-- ==== Sys2Proof/Word.lean ====
section
/-! DEFINITION. The words of the block: the 32-bit command and status word (30_encoding.md R71, 10_state.md
R33) and `Num`, the data of IEEE 754 binary64 (00_scope.md R8). The arithmetic of `Num` is in Machine/Binary64.lean. -/

namespace Sys2Proof

/-- A command word or a status word: 32 bits, bit 0 the least significant (00_scope.md R13). -/
abbrev Word := BitVec 32

/-- The spec's `Num`: the data of IEEE 754 binary64 (00_scope.md R8, 92_eei_decisions.md D1).

`fin neg exp frac` has the biased exponent `exp` (0 to 2046) and the 52 fraction bits `frac`; `exp = 0` holds the
zeros and the subnormals. The standard gives the data one NaN; what a NaN's bit pattern carries beyond that is no
part of the data (PRESUMED, log 1). -/
inductive Binary64 where
  | fin (neg : Bool) (exp : Fin 2047) (frac : BitVec 52)
  | inf (neg : Bool)
  | nan
  deriving DecidableEq, Repr, Inhabited

end Sys2Proof
end

