-- ==== Sys2Proof/Config.lean ====
section
/-! DEFINITION. What the spec leaves to the configuration: the three functions `Sin`, `Tanh` and `Pow`
(00_scope.md R7, R10; 92_eei_decisions.md D2, OPEN `TranscendentalConfig`). Every other parameter of R6 is a constant and
stands in Machine/Constants.lean. -/

namespace Sys2Proof

/-- A numeric configuration: the three configuration functions, "total, deterministic maps from `Num` (or
`Num × Num`) to `Num`" (R10). The sub-operations of a tick take one as an argument (R7), so that a claim about them
can name the property it needs of it. -/
structure NumericConfig where
  sin  : Binary64 → Binary64
  tanh : Binary64 → Binary64
  pow  : Binary64 → Binary64 → Binary64

namespace Config

/-- `Sin` of the block at hand: a free function, nothing is assumed of it (R10; log 2). -/
opaque sin : Binary64 → Binary64

/-- `Tanh` of the block at hand: a free function, nothing is assumed of it (R10; log 2). -/
opaque tanh : Binary64 → Binary64

/-- `Pow` of the block at hand: a free function, nothing is assumed of it (R10; log 2). -/
opaque pow : Binary64 → Binary64 → Binary64

/-- The configuration the machine runs with. -/
def numeric : NumericConfig := { sin := sin, tanh := tanh, pow := pow }

end Config

end Sys2Proof
end

