-- ==== Sys2Proof/Syntax.lean ====
section
/-! DEFINITION. The commands of the block as syntax: one constructor per row of spec/opcode_table.json
(30_encoding.md R71 to R75). -/

namespace Sys2Proof

/-- The two configuration variants (00_scope.md R2; 10_state.md R31). -/
inductive Variant where
  /-- `VARIANT` = 0: chord multiplier 4, no delay line. -/
  | basic
  /-- `VARIANT` = 1: chord multiplier 5, the feedback delay line on the chord. -/
  | withDelay
  deriving DecidableEq, Repr, Inhabited

/-- The commands. `sr` and `n` are the unsigned integers of 30_encoding.md R72 and R74, not scaled; `WellFormed`
says which of them the command word can hold. -/
inductive Instr where
  /-- `INIT V, SR` (40_commands.md R100). -/
  | init (v : Variant) (sr : Nat)
  /-- `TICK` (40_commands.md R101). -/
  | tick
  /-- `FILL N` (40_commands.md R102). -/
  | fill (n : Nat)
  deriving DecidableEq, Repr

end Sys2Proof
end

