-- ==== Sys2Proof/WellFormed.lean ====
section
/-! DEFINITION. Which commands a 32-bit word can hold: `SR` is 20 bits and `N` is 24 bits wide (30_encoding.md R72,
R74); an assembler refuses larger ones (R78). -/

namespace Sys2Proof

/-- `FILL_MAX` = 2^24 − 1, the most samples one FILL produces (00_scope.md R6). -/
def fillMax : Nat := 2 ^ 24 - 1

/-- The operands fit their fields. -/
def Instr.wellFormed : Instr → Bool
  | .init _ sr => decide (sr < 2 ^ 20)
  | .tick      => true
  | .fill n    => decide (n ≤ fillMax)

/-- A command whose operands fit its word. -/
abbrev WellFormed (i : Instr) : Prop := i.wellFormed = true

end Sys2Proof
end

