-- ==== Sys2Proof/Decode.lean ====
section
/-! DEFINITION. The decoder, total on all 2^32 words and refusing by name (30_encoding.md R71 to R77), and after it the
encoder, written from the same tables. -/

namespace Sys2Proof

/-- Why a word is no command: the three kinds of illegal word of 30_encoding.md R76. -/
inductive IllegalWord where
  /-- (a) `OP` is none of 0x01, 0x02, 0x03. -/
  | reservedOpcode
  /-- (b) an INIT word with `cmd[22:20]` not 000. -/
  | initReservedBits
  /-- (c) a TICK word with `cmd[23:0]` not 0. -/
  | tickReservedBits
  deriving DecidableEq, Repr

/-- `OP = cmd[31:24]` (R71). -/
def opField (cmd : Word) : BitVec 8 := cmd.extractLsb' 24 8

/-- `V = cmd[23]` (R72). -/
def vField (cmd : Word) : BitVec 1 := cmd.extractLsb' 23 1

/-- `RES3 = cmd[22:20]` (R71). -/
def res3Field (cmd : Word) : BitVec 3 := cmd.extractLsb' 20 3

/-- `SR = cmd[19:0]` (R72). -/
def srField (cmd : Word) : BitVec 20 := cmd.extractLsb' 0 20

/-- `cmd[23:0]`: `RES24` of TICK and `N` of FILL (R71). -/
def low24Field (cmd : Word) : BitVec 24 := cmd.extractLsb' 0 24

/-- The variant that bit `V` names: 0 = Basic, 1 = WithDelay (R72). -/
def Variant.ofBit (b : BitVec 1) : Variant := if b = 1#1 then .withDelay else .basic

/-- The bit that names a variant (R72; 10_state.md R33). -/
def Variant.bit : Variant → BitVec 1
  | .basic     => 0#1
  | .withDelay => 1#1

/-- The opcode map (R75), with the operands assembled as R72 to R74 say. Zero-extension to 32 bits keeps the unsigned
value, which is the operand. -/
def decode (cmd : Word) : Except IllegalWord Instr :=
  if opField cmd = 0x01#8 then
    if res3Field cmd = 0#3 then
      .ok (.init (Variant.ofBit (vField cmd)) ((srField cmd).setWidth 32).toNat)
    else .error .initReservedBits
  else if opField cmd = 0x02#8 then
    if low24Field cmd = 0#24 then .ok .tick else .error .tickReservedBits
  else if opField cmd = 0x03#8 then
    .ok (.fill ((low24Field cmd).setWidth 32).toNat)
  else .error .reservedOpcode

/-- The word of a well-formed command, as R78 assembles it from the layouts of R71: the opcode and the variant bit, OR the
zero-extended operand; reserved bits are zero. An operand too large for its field is cut to it. -/
def encode : Instr → Word
  | .init .basic sr     => 0x01000000#32 ||| (BitVec.ofNat 20 sr).setWidth 32
  | .init .withDelay sr => 0x01800000#32 ||| (BitVec.ofNat 20 sr).setWidth 32
  | .tick               => 0x02000000#32
  | .fill n             => 0x03000000#32 ||| (BitVec.ofNat 24 n).setWidth 32

/-- The instruction the decoder reads from a row of spec/opcode_table.json whose `nbits` bits are `w`; every bit above
`nbits` is 0. A command word is presented whole, bit 31 its most significant (R70, R71), so no byte order is involved
(log 12). -/
def decodeTableWord (nbits w : Nat) : Option Instr :=
  match decode (BitVec.ofNat 32 (w % 2 ^ nbits)) with
  | .ok i    => some i
  | .error _ => none

end Sys2Proof
end

