-- ==== Sys2Proof/Machine/Binary64.lean ====
section
/-! DEFINITION. The arithmetic of `Num`: IEEE 754 binary64, round to nearest, ties to even (00_scope.md R8, R9, R11 to
R13). Every operation converts its operands to exact integers, computes exactly and rounds once.

Every finite binary64 is an integer multiple of 2^-1074, the least subnormal. `Binary64.units` is that integer, so sums are
sums of integers and products and quotients are ratios of integers. -/

namespace Sys2Proof

/-- The number of units in 1.0: the unit is 2^-1074. -/
def unitsPerOne : Nat := 2 ^ 1074

/-- The zero of a sign. -/
def Binary64.zero (neg : Bool) : Binary64 := .fin neg 0 0#52

/-- The sign bit (false for the one NaN). -/
def Binary64.isNeg : Binary64 → Bool
  | .fin neg _ _ => neg
  | .inf neg     => neg
  | .nan         => false

/-- Neither an infinity nor NaN. -/
def Binary64.isFinite : Binary64 → Bool
  | .fin _ _ _ => true
  | _          => false

/-- The magnitude of a finite datum in units: the fraction alone when the biased exponent is 0, else the fraction with
its leading one, shifted by the exponent. -/
def Binary64.magnitude : Binary64 → Nat
  | .fin _ exp frac => if exp.val = 0 then frac.toNat else (2 ^ 52 + frac.toNat) * 2 ^ (exp.val - 1)
  | _               => 0

/-- The value of a finite datum, an exact integer number of units (0 for the data that have no value). -/
def Binary64.units (x : Binary64) : Int := if x.isNeg then -(x.magnitude : Int) else (x.magnitude : Int)

/-! ### Rounding -/

/-- The datum of a sign and a magnitude code `exp · 2^52 + frac`; a code past the largest finite one is infinity. -/
def Binary64.pack (neg : Bool) (code : Nat) : Binary64 :=
  if h : code / 2 ^ 52 < 2047 then .fin neg ⟨code / 2 ^ 52, h⟩ (BitVec.ofNat 52 code) else .inf neg

/-- How many low bits of `t` units lie below the last place of a 53-bit significand. -/
def roundShift (t : Nat) : Nat := Nat.log2 t - 52

/-- `a / d` to the nearest integer, ties to even. -/
def divNearestEven (a d : Nat) : Nat :=
  if 2 * (a % d) < d then a / d
  else if d < 2 * (a % d) then a / d + 1
  else a / d + (a / d) % 2

/-- The magnitude code of the binary64 nearest to `a / b` units, ties to even. A significand rounded up to 2^53 carries
into the exponent by itself. -/
def roundCode (a b : Nat) : Nat :=
  roundShift (a / b) * 2 ^ 52 + divNearestEven a (b * 2 ^ roundShift (a / b))

/-- `a / b` units, with a sign, rounded once to binary64 (R8). -/
def Binary64.round (neg : Bool) (a b : Nat) : Binary64 := Binary64.pack neg (roundCode a b)

/-- `z` units rounded once; an exact zero takes the sign `zeroNeg`. -/
def Binary64.roundInt (zeroNeg : Bool) (z : Int) : Binary64 :=
  if z = 0 then Binary64.zero zeroNeg else Binary64.round (decide (z < 0)) z.natAbs 1

/-! ### The four operations (R8) -/

/-- Negation: the sign bit flipped. -/
def Binary64.neg : Binary64 → Binary64
  | .fin neg exp frac => .fin (!neg) exp frac
  | .inf neg          => .inf (!neg)
  | .nan              => .nan

/-- `x + y`. An exact zero sum is +0.0 unless both operands are negative (PRESUMED from IEEE 754, log 3). -/
def Binary64.add (x y : Binary64) : Binary64 :=
  match x, y with
  | .nan, _ => .nan
  | _, .nan => .nan
  | .inf a, .inf b => if a = b then .inf a else .nan
  | .inf a, _ => .inf a
  | _, .inf b => .inf b
  | .fin _ _ _, .fin _ _ _ => Binary64.roundInt (x.isNeg && y.isNeg) (x.units + y.units)

/-- `x - y`: the sum of `x` and the negation of `y`. -/
def Binary64.sub (x y : Binary64) : Binary64 := x.add y.neg

/-- `x * y`. -/
def Binary64.mul (x y : Binary64) : Binary64 :=
  match x, y with
  | .nan, _ => .nan
  | _, .nan => .nan
  | .inf a, .inf b => .inf (a != b)
  | .inf a, .fin b _ _ => if y.magnitude = 0 then .nan else .inf (a != b)
  | .fin a _ _, .inf b => if x.magnitude = 0 then .nan else .inf (a != b)
  | .fin a _ _, .fin b _ _ => Binary64.round (a != b) (x.magnitude * y.magnitude) unitsPerOne

/-- `x / y`. -/
def Binary64.div (x y : Binary64) : Binary64 :=
  match x, y with
  | .nan, _ => .nan
  | _, .nan => .nan
  | .inf _, .inf _ => .nan
  | .inf a, .fin b _ _ => .inf (a != b)
  | .fin a _ _, .inf b => Binary64.zero (a != b)
  | .fin a _ _, .fin b _ _ =>
    if y.magnitude = 0 then (if x.magnitude = 0 then .nan else .inf (a != b))
    else Binary64.round (a != b) (x.magnitude * unitsPerOne) y.magnitude

/-! ### Comparisons (R12): IEEE, so NaN compares false and −0.0 equals +0.0 -/

/-- `x < y`. -/
def Binary64.lt (x y : Binary64) : Bool :=
  match x, y with
  | .nan, _ => false
  | _, .nan => false
  | .inf a, .inf b => a && !b
  | .inf a, .fin _ _ _ => a
  | .fin _ _ _, .inf b => !b
  | .fin _ _ _, .fin _ _ _ => decide (x.units < y.units)

/-- `x == y`. -/
def Binary64.ieeeEq (x y : Binary64) : Bool :=
  match x, y with
  | .nan, _ => false
  | _, .nan => false
  | .inf a, .inf b => a == b
  | .inf _, .fin _ _ _ => false
  | .fin _ _ _, .inf _ => false
  | .fin _ _ _, .fin _ _ _ => decide (x.units = y.units)

/-! ### Rounding to an integer (R9) and conversions (R13) -/

/-- `trunc(x)`: the integer next to `x` towards zero. A zero result keeps the sign of `x` (PRESUMED from IEEE 754,
log 3). -/
def Binary64.trunc (x : Binary64) : Binary64 :=
  match x with
  | .fin neg _ _ => Binary64.round neg (x.magnitude / unitsPerOne * unitsPerOne) 1
  | _ => x

/-- `floor(x)`: the largest integer not above `x`. A zero result keeps the sign of `x` (PRESUMED from IEEE 754, log 3). -/
def Binary64.floor (x : Binary64) : Binary64 :=
  match x with
  | .fin neg _ _ => Binary64.roundInt neg (x.units / (unitsPerOne : Int) * (unitsPerOne : Int))
  | _ => x

/-- `frac(x) = x - trunc(x)` (R9). -/
def Binary64.frac (x : Binary64) : Binary64 := x.sub x.trunc

/-- `toNum(n)`; exact below 2^53 (R13). -/
def Binary64.ofNat (n : Nat) : Binary64 := Binary64.round false (n * unitsPerOne) 1

/-- `toNat(x)`, which R13 gives for a non-negative integer-valued `x`. Elsewhere, where no rule applies it, the integer
part, and 0 for a negative or non-finite datum (DESIGN CHOICE, log 10). -/
def Binary64.toNat (x : Binary64) : Nat := (x.units / (unitsPerOne : Int)).toNat

/-- The literal `a / b`, rounded once (R11). -/
def Binary64.ofRatio (a b : Nat) : Binary64 := Binary64.round false (a * unitsPerOne) b

end Sys2Proof
end

