-- ==== Sys2Proof/Machine/Constants.lean ====
section
/-! DEFINITION. The fixed parameters of the block (00_scope.md R6, R11) and its construction constants (10_state.md
R32): fixed values, not registers. -/

namespace Sys2Proof.Machine.Const

/-! ### Integers -/

/-- `SAMPLE_RATE` = 48 000 Hz (R6). -/
def sampleRate : Nat := 48000

/-- `INDEX_LIMIT` = 2^53 (R6). -/
def indexLimit : Nat := 2 ^ 53

/-- `DELAY_LEN`, `L` = floor(0.375 × 48 000) = 18 000 words (R6; 45_delay.md R182). -/
def delayLen : Nat := 18000

/-- The contents of the pattern ROM `PAT`: hits on steps 0, 3, 5, 10 and 12 (10_state.md R30). -/
def pattern : Vector Bool 16 :=
  #v[true, false, false, true, false, true, false, false,
     false, false, true, false, true, false, false, false]

/-! ### Integer-valued and dyadic literals, exact (R11) -/

/-- +0.0 -/
def zero : Binary64 := Binary64.zero false
/-- 0.5: the delay's feedback, the bass envelope's exponent, a bias. -/
def half : Binary64 := Binary64.ofRatio 1 2
/-- 1.0 -/
def one : Binary64 := Binary64.ofNat 1
/-- 1.5: the bass drive, and the ratio 3/2 of chord partial 1. -/
def oneAndHalf : Binary64 := Binary64.ofRatio 3 2
/-- 2.0: beats per second. -/
def two : Binary64 := Binary64.ofNat 2
/-- 3.0: the gate's start in seconds, the kick and chord envelopes' exponent. -/
def three : Binary64 := Binary64.ofNat 3
/-- 4.0: beats per bar, sixteenths per beat. -/
def four : Binary64 := Binary64.ofNat 4
/-- 50.0: the kick's base frequency, the bass frequency, the sweep's exponent. -/
def fifty : Binary64 := Binary64.ofNat 50
/-- 900.0: the kick sweep's amplitude. -/
def nineHundred : Binary64 := Binary64.ofNat 900

/-! ### Rounded decimal literals (R11, D3) -/

/-- 0.15 -/
def kickAmp : Binary64 := Binary64.ofRatio 15 100
/-- 0.2: the bass gain, its envelope's amplitude, and a bias. -/
def pointTwo : Binary64 := Binary64.ofRatio 2 10
/-- 0.1 -/
def chordEnvAmp : Binary64 := Binary64.ofRatio 1 10
/-- 0.4 -/
def delayWet : Binary64 := Binary64.ofRatio 4 10
/-- 0.375 -/
def delaySeconds : Binary64 := Binary64.ofRatio 375 1000
/-- `DELAY_FEEDBACK` = 0.5 (R6; 45_delay.md R184). -/
def delayFeedback : Binary64 := half

/-- `SAW_BIAS` = 0, 0.5, 0.33, 0.25, 0.2, 0.16 (R6, R11). -/
def sawBias : List Binary64 :=
  [zero, half, Binary64.ofRatio 33 100, Binary64.ofRatio 25 100, pointTwo, Binary64.ofRatio 16 100]

/-! ### Constants computed once (R11; 10_state.md R32) -/

/-- `PI`, the binary64 nearest π: `0x1.921fb54442d18p+1` (R11). -/
def pi : Binary64 := Binary64.ofRatio 0x1921fb54442d18 (2 ^ 51)

/-- `TWO_PI = 2.0 * PI` (R11, D5). -/
def twoPi : Binary64 := two.mul pi

/-- `DT = 1.0 / toNum(SR)` (10_state.md R32, D6). -/
def dt : Binary64 := one.div (Binary64.ofNat sampleRate)

/-- `C_2_3 = 2.0 / 3.0` (R11, D4). -/
def twoThirds : Binary64 := two.div three

/-- `C_6_5 = 6.0 / 5.0` (R11, D4). -/
def sixFifths : Binary64 := (Binary64.ofNat 6).div (Binary64.ofNat 5)

/-- `CHORD_MUL`: 4.0 for Basic, 5.0 for WithDelay (10_state.md R32; 00_scope.md R2). -/
def chordMul : Variant → Binary64
  | .basic     => four
  | .withDelay => Binary64.ofNat 5

end Sys2Proof.Machine.Const
end

