-- ==== Sys2Proof/Machine/State.lean ====
section
/-! DEFINITION. The state of the block as plain data (10_state.md R20 to R36), the ports (30_encoding.md R70, R80) and the
reasons a step can stop. -/

namespace Sys2Proof.Machine

/-- `LIFECYCLE` (10_state.md R20, R34). The encoding 11 is never produced (R33) and cannot be written down (log 11). -/
inductive Lifecycle where
  | unconstructed
  | running
  | faulted
  deriving DecidableEq, Repr, Inhabited

/-- `FAULT_CODE` (60_exceptions.md R201). The codes 6 to 15 are never produced and cannot be written down (log 11). -/
inductive FaultCode where
  /-- 0: no fault since power-on reset. -/
  | none
  /-- 1: a word that decodes to no command. -/
  | illegalCommand
  /-- 2: TICK or FILL before INIT. -/
  | notConstructed
  /-- 3: INIT while Running. -/
  | alreadyConstructed
  /-- 4: INIT with a sample rate other than 48 000. -/
  | unsupportedSampleRate
  /-- 5: a tick with `sampleCount` at least 2^53. -/
  | counterRange
  deriving DecidableEq, Repr, Inhabited

/-- One move of the host (70_reset_and_hazards.md R239): power-on reset, or a word on `cmd_in`. Observing and stopping
send nothing. -/
inductive HostMove where
  /-- the `rst` port (R230) -/
  | rst
  /-- one 32-bit word accepted on `cmd_in` (30_encoding.md R70) -/
  | command (w : Word)
  deriving DecidableEq, Repr

/-- The contents of `DLY`: (address, word) cells, addresses strictly rising, no cell holding +0.0, which is what an
unlisted address reads as (20_memory.md R51; log 8). -/
abbrev Memory := List (Nat × Binary64)

/-- The state of the block. The registers are those of 10_state.md R20; `datapathWritten` is the model's own and holds
the "no value" of R20 and R230 (log 4); the last three fields are the ports (log 5, log 7). -/
structure State where
  /-- `LIFECYCLE` -/
  lifecycle : Lifecycle
  /-- `FAULT_CODE` -/
  faultCode : FaultCode
  /-- `VARIANT` -/
  variant : Variant
  /-- The datapath registers and `DLY` hold values: false from power-on reset to INIT. -/
  datapathWritten : Bool
  /-- `sampleCount` (R22) -/
  sampleCount : BitVec 64
  /-- `kickPhase` (R23) -/
  kickPhase : Binary64
  /-- `bassPhase` (R24) -/
  bassPhase : Binary64
  /-- `chordPhase[0..2]` (R25) -/
  chordPhase : Vector Binary64 3
  /-- `chordGateEngaged` (R27) -/
  chordGateEngaged : Bool
  /-- `delayWriteIndex`, the cursor (R28) -/
  delayWriteIndex : BitVec 15
  /-- `DLY` (R29) -/
  dly : Memory
  /-- `PAT` (R30) -/
  pat : Vector Bool 16
  /-- `cmd_in` and `rst`: what the host has presented and the block has not yet taken, oldest first. -/
  hostIn : List HostMove
  /-- `sample_out`: the samples emitted since power-on reset, oldest first (30_encoding.md R80). -/
  sampleOut : List Binary64
  /-- The continue flags reported since power-on reset, oldest first (40_commands.md R102). -/
  contOut : List (BitVec 1)
  deriving DecidableEq, Repr

/-- What stops the machine: one stop that the spec asks a model for, in states that no run reaches, and safe, since the block
has no such behaviour to be wrong about. A fault of the block itself is a next state (R203), not one of these. -/
inductive Fault where
  /-- Raised by the delay operation when its address is not in [0, L): "a model that receives an address outside
  [0, L) has met a state the rules cannot reach and must fault" (20_memory.md R51). Safe. -/
  | dlyAddressOutOfRange
  deriving DecidableEq, Repr

/-- Why a command has no meaning here. -/
inductive Refusal where
  /-- Raised by an arm of `exec` for a command that has no meaning yet (none). Safe. -/
  | notModelled (mnemonic : String)
  deriving DecidableEq, Repr

/-- The state right after power-on reset (70_reset_and_hazards.md R230): Unconstructed, no fault, `VARIANT` 0, `PAT` as
ever, the datapath without values. The values under `datapathWritten = false` are a DESIGN CHOICE (log 4). -/
def State.reset : State :=
  { lifecycle := .unconstructed
    faultCode := .none
    variant := .basic
    datapathWritten := false
    sampleCount := 0#64
    kickPhase := Const.zero
    bassPhase := Const.zero
    chordPhase := #v[Const.zero, Const.zero, Const.zero]
    chordGateEngaged := false
    delayWriteIndex := 0#15
    dly := []
    pat := Const.pattern
    hostIn := []
    sampleOut := []
    contOut := [] }

end Sys2Proof.Machine
end

