-- ==== Sys2Proof/Machine/Ops.lean ====
section
/-! DEFINITION. The shared operations over the block's stores, ports and fault state: `DLY` (20_memory.md R51), `PAT`
(R52), the output ports (30_encoding.md R80), taking a fault and the one return from it (60_exceptions.md R203, R206),
and construction (40_commands.md R100). -/

namespace Sys2Proof.Machine

/-! ### `DLY` -/

/-- The word at an address; +0.0 where no cell is listed (R51). -/
def Memory.load : Memory → Nat → Binary64
  | [], _ => Const.zero
  | (k, v) :: m, a => if k = a then v else Memory.load m a

/-- The cells after the whole word at an address is replaced (R51). Storing +0.0 unlists the address, which keeps the
one canonical form. -/
def Memory.store : Memory → Nat → Binary64 → Memory
  | [], a, v => if v = Const.zero then [] else [(a, v)]
  | (k, w) :: m, a, v =>
    if a < k then (if v = Const.zero then (k, w) :: m else (a, v) :: (k, w) :: m)
    else if a = k then (if v = Const.zero then m else (a, v) :: m)
    else (k, w) :: Memory.store m a v

/-- The canonical form from address `lo` up: addresses rising, below `L`, and no cell holding +0.0. -/
def Memory.wfFrom : Nat → Memory → Bool
  | _, [] => true
  | lo, (k, v) :: m =>
    decide (lo ≤ k) && decide (k < Const.delayLen) && decide (v ≠ Const.zero) && Memory.wfFrom (k + 1) m

/-- The canonical form: equal contents are equal data. -/
def Memory.wf (m : Memory) : Bool := Memory.wfFrom 0 m

/-- `MemRead(DLY, a)` (R51): an address outside [0, L) faults. -/
def memRead (m : Memory) (a : Nat) : Except Fault Binary64 :=
  if a < Const.delayLen then .ok (m.load a) else .error .dlyAddressOutOfRange

/-- `MemWrite(DLY, a, v)` (R51): an address outside [0, L) faults. -/
def memWrite (m : Memory) (a : Nat) (v : Binary64) : Except Fault Memory :=
  if a < Const.delayLen then .ok (m.store a v) else .error .dlyAddressOutOfRange

/-! ### `PAT` -/

/-- `RomRead(PAT, i)` for 0 ≤ i < 16 (R52). -/
def romRead (pat : Vector Bool 16) (i : Fin 16) : Bool := pat[i]

/-! ### The output ports -/

/-- `emit(v)`: append a sample to the output stream (00_scope.md R13; 30_encoding.md R80). The port applies no gain,
limiting, clipping or conversion. -/
def emit (v : Binary64) (s : State) : State := { s with sampleOut := s.sampleOut ++ [v] }

/-- Report the continue flag, `CONT = 1` (40_commands.md R102). -/
def reportCont (s : State) : State := { s with contOut := s.contOut ++ [1#1] }

/-! ### Faults -/

/-- Fault entry (60_exceptions.md R203): exactly two writes, `FAULT_CODE` and `LIFECYCLE`. There is no vector, no handler
and no saved state (R200), and nothing else is recorded (R201). -/
def raiseFault (c : FaultCode) (s : State) : State := { s with faultCode := c, lifecycle := .faulted }

/-- A word that decodes to no command: `IllegalCommand`, unless the block is Faulted already and ignores it
(30_encoding.md R76; 60_exceptions.md R205, R207). -/
def takeIllegalWord (s : State) : State :=
  match s.lifecycle with
  | .faulted => s
  | .unconstructed => raiseFault .illegalCommand s
  | .running => raiseFault .illegalCommand s

/-- Power-on reset (70_reset_and_hazards.md R230), the only way out of Faulted (60_exceptions.md R206): the state right
after reset, `PAT` as it is, and what the host has still to send. A run begins here (R242), so the record of the output
ports begins anew (log 7). -/
def powerOnReset (s : State) : State := { State.reset with pat := s.pat, hostIn := s.hostIn }

/-! ### Construction -/

/-- The writes of a successful INIT (40_commands.md R100; 70_reset_and_hazards.md R231). `PAT` is a ROM. -/
def construct (v : Variant) (s : State) : State :=
  { s with
    variant := v
    datapathWritten := true
    sampleCount := 0#64
    kickPhase := Const.zero
    bassPhase := Const.zero
    chordPhase := #v[Const.zero, Const.zero, Const.zero]
    chordGateEngaged := false
    delayWriteIndex := 0#15
    dly := []
    faultCode := .none
    lifecycle := .running }

/-! ### The command port -/

/-- The next move of the host and the state with that move taken (30_encoding.md R70); none when the host has sent
nothing. -/
def takeMove (s : State) : Option (HostMove × State) :=
  match s.hostIn with
  | [] => none
  | m :: rest => some (m, { s with hostIn := rest })

end Sys2Proof.Machine
end

