-- ==== Sys2Proof/Machine/Clock.lean ====
section
/-! DEFINITION. CLOCK, TICK step 2: musical time from the sample index (41_clock.md R120 to R122). Every value is computed
from scratch on every tick; none is state. -/

namespace Sys2Proof.Machine

/-- The clock's derived values (R120). -/
structure MusicalTime where
  seconds           : Binary64
  beats             : Binary64
  beatFraction      : Binary64
  bar               : Binary64
  sixteenths        : Binary64
  sixteenthFraction : Binary64
  step              : Fin 16
  barMod4           : Nat
  deriving DecidableEq, Repr

/-- `seconds = toNum(n) / toNum(SR)` (R120). -/
def clockSeconds (n : Nat) : Binary64 := (Binary64.ofNat n).div (Binary64.ofNat Const.sampleRate)

/-- `beats = seconds * 2.0` (R120). -/
def clockBeats (n : Nat) : Binary64 := (clockSeconds n).mul Const.two

/-- `bar = floor(beats / 4.0)` (R120). -/
def clockBar (n : Nat) : Binary64 := ((clockBeats n).div Const.four).floor

/-- `sixteenths = beats * 4.0` (R120). -/
def clockSixteenths (n : Nat) : Binary64 := (clockBeats n).mul Const.four

/-- CLOCK (R120), for an index below 2^53, which TICK step 1 has checked. -/
def clock (n : Nat) : MusicalTime :=
  { seconds           := clockSeconds n
    beats             := clockBeats n
    beatFraction      := (clockBeats n).sub (clockBeats n).floor
    bar               := clockBar n
    sixteenths        := clockSixteenths n
    sixteenthFraction := (clockSixteenths n).sub (clockSixteenths n).floor
    step              := Fin.ofNat 16 (clockSixteenths n).floor.toNat
    barMod4           := (clockBar n).toNat % 4 }

end Sys2Proof.Machine
end

