-- ==== Sys2Proof/Machine/Delay.lean ====
section
/-! DEFINITION. The feedback delay line, TICK step 7 (45_delay.md R180 to R185; 44_voices.md R168). -/

namespace Sys2Proof.Machine

/-- The delay line: the cursor `delayWriteIndex` and the RAM `DLY`. -/
structure DelayLine where
  cursor : BitVec 15
  words  : Memory
  deriving DecidableEq, Repr

/-- `c' = (c + 1) mod L` (R180, R181). -/
def nextCursor (c : BitVec 15) : BitVec 15 := BitVec.ofNat 15 ((c.toNat + 1) % Const.delayLen)

/-- One call of a delay line with a given feedback (R180; R184 for other feedbacks than the block's): read the slot at the
cursor, write it, advance, and return the slot after the one written. -/
def delayCall (feedback input : Binary64) (line : DelayLine) : Except Fault (Binary64 × DelayLine) :=
  match memRead line.words line.cursor.toNat with
  | .error f => .error f
  | .ok output =>
    match memWrite line.words line.cursor.toNat (input.add (output.mul feedback)) with
    | .error f => .error f
    | .ok words' =>
      match memRead words' (nextCursor line.cursor).toNat with
      | .error f => .error f
      | .ok returned => .ok (returned, { cursor := nextCursor line.cursor, words := words' })

/-- DELAY (R180): the block's own call, feedback 0.5 (R184). -/
def delay (input : Binary64) (line : DelayLine) : Except Fault (Binary64 × DelayLine) :=
  delayCall Const.delayFeedback input line

/-- `chordOut` (44_voices.md R168): Basic passes the dry chord and leaves the delay line alone; WithDelay adds the wet tap
of exactly one DELAY call. -/
def chordTap (v : Variant) (dry : Binary64) (line : DelayLine) : Except Fault (Binary64 × DelayLine) :=
  match v with
  | .basic => .ok (dry, line)
  | .withDelay =>
    match delay dry line with
    | .error f => .error f
    | .ok (returned, line') => .ok (dry.add (returned.mul Const.delayWet), line')

end Sys2Proof.Machine
end

