-- ==== Sys2Proof/Machine/Flags.lean ====
section
/-! DEFINITION. The block's one flag (10_state.md R27; 44_voices.md R155) and its status word (10_state.md R33). No other
flag or condition code exists. -/

namespace Sys2Proof.Machine

/-- GATE_LATCH (44_voices.md R155): the flag after TICK step 5. The time comparison is strict and the equality is the
exact IEEE one. -/
def gateLatch (engaged : Bool) (seconds beatFraction : Binary64) : Bool :=
  if engaged = false ∧ Const.three.lt seconds = true ∧ beatFraction.ieeeEq Const.zero = true then true else engaged

/-- The encoding of `LIFECYCLE` in `STATUS[1:0]` (10_state.md R33). -/
def Lifecycle.bits : Lifecycle → BitVec 2
  | .unconstructed => 0b00#2
  | .running       => 0b01#2
  | .faulted       => 0b10#2

/-- The encoding of `FAULT_CODE` in `STATUS[7:4]` (60_exceptions.md R201). -/
def FaultCode.bits : FaultCode → BitVec 4
  | .none                  => 0#4
  | .illegalCommand        => 1#4
  | .notConstructed        => 2#4
  | .alreadyConstructed    => 3#4
  | .unsupportedSampleRate => 4#4
  | .counterRange          => 5#4

/-- `STATUS` (10_state.md R33; 30_encoding.md R81), computed from three registers: `LIFECYCLE` in bits
[1:0], `VARIANT` in bit [2], `FAULT_CODE` in bits [7:4]; the reserved bits [3] and [31:8] are hardwired 0. -/
def State.statusWord (s : State) : Word :=
  s.lifecycle.bits.setWidth 32 ||| (s.variant.bit.setWidth 32 <<< 2) ||| (s.faultCode.bits.setWidth 32 <<< 4)

end Sys2Proof.Machine
end

