-- ==== Sys2Proof/Machine/Envelope.lean ====
section
/-! DEFINITION. The envelope generator, a pure function (43_envelope.md R140). -/

namespace Sys2Proof.Machine

/-- ENV (R140): `A * Pow(1.0 - t, E)`. -/
def env (F : NumericConfig) (t A E : Binary64) : Binary64 := A.mul (F.pow (Const.one.sub t) E)

end Sys2Proof.Machine
end

