-- ==== Sys2Proof/Machine/Operands.lean ====
section
/-! DEFINITION. The commands' operands as the meanings read them: which sample rate INIT accepts (40_commands.md R100), and
the chord frequencies that the variant and the bar select (44_voices.md R161, R162). The fields of the command word are
taken apart in Decode.lean. TICK has no operand (30_encoding.md R73), and FILL's `N` is a count as it stands (R74). -/

namespace Sys2Proof.Machine

/-- INIT accepts `SR` = 48 000 and no other rate (R100; 30_encoding.md R72). -/
def rateSupported (sr : Nat) : Bool := decide (sr = Const.sampleRate)

/-- `base = 50.0 * CHORD_MUL` (44_voices.md R161). -/
def chordBase (v : Variant) : Binary64 := Const.fifty.mul (Const.chordMul v)

/-- `freq = base * C_2_3` in bars 2 and 3 of every four, otherwise `base` (44_voices.md R162). -/
def chordFreq (v : Variant) (barMod4 : Nat) : Binary64 :=
  if barMod4 = 2 ∨ barMod4 = 3 then (chordBase v).mul Const.twoThirds else chordBase v

end Sys2Proof.Machine
end

