-- ==== Sys2Proof/Machine/Oscillator.lean ====
section
/-! DEFINITION. The oscillator bank's one operation, ADVANCE (42_oscillator_bank.md R130), and the angular phase (R133). The
five slots are the five phase registers of State; each voice advances its own and reads the new phase (R131). -/

namespace Sys2Proof.Machine

/-- ADVANCE (R130): the phase after one sample at frequency `f`, `frac(phase + (f * DT))`. The product is rounded, then
the sum; the fractional part truncates toward zero. -/
def advance (phase f : Binary64) : Binary64 := (phase.add (f.mul Const.dt)).frac

/-- `phase * TWO_PI` (R133). -/
def angle (phase : Binary64) : Binary64 := phase.mul Const.twoPi

end Sys2Proof.Machine
end

