-- ==== Sys2Proof/Machine/Voices.lean ====
section
/-! DEFINITION. The voice mixers, TICK steps 3, 4 and 6 (44_voices.md R150 to R167). The gate latch, step 5, is a flag and
stands in Flags.lean; the delay tap, step 7, in Delay.lean. -/

namespace Sys2Proof.Machine

/-! ### Kick -/

/-- The kick's swept frequency (R151). -/
def kickFreq (F : NumericConfig) (bf : Binary64) : Binary64 := Const.fifty.add (env F bf Const.nineHundred Const.fifty)

/-- `kickPhase'`: the kick phase that the tick commits (R150). -/
def kickAdvance (F : NumericConfig) (bf phase : Binary64) : Binary64 := advance phase (kickFreq F bf)

/-- The kick's output, read from the advanced phase (R150). -/
def kickOut (F : NumericConfig) (bf phase' : Binary64) : Binary64 :=
  (F.sin (angle phase')).mul (env F bf Const.kickAmp Const.three)

/-! ### Bass -/

/-- `bassPhase'`: the bass phase that the tick commits (R152). -/
def bassAdvance (phase : Binary64) : Binary64 := advance phase Const.fifty

/-- The bass gain, an inverted envelope (R153). -/
def bassGain (F : NumericConfig) (bf : Binary64) : Binary64 := Const.pointTwo.sub (env F bf Const.pointTwo Const.half)

/-- The bass's output, read from the advanced phase (R152). -/
def bassOut (F : NumericConfig) (bf phase' : Binary64) : Binary64 :=
  (F.tanh ((F.sin (angle phase')).mul Const.oneAndHalf)).mul (bassGain F bf)

/-! ### Chord -/

/-- CHORD_PARTIALS (R163): the three partial phasors at `freq`, `freq * 1.5` and `freq * C_6_5`. -/
def chordPartials (freq : Binary64) (phases : Vector Binary64 3) : Vector Binary64 3 :=
  #v[advance phases[0] freq,
     advance phases[1] (freq.mul Const.oneAndHalf),
     advance phases[2] (freq.mul Const.sixFifths)]

/-- SAW6F's loop from harmonic `k` on, over the biases still to come (R164): `s = (s + Sin(toNum(k) * x)) + BIAS[k-1]`. -/
def saw6fFrom (F : NumericConfig) (x : Binary64) : Nat → List Binary64 → Binary64 → Binary64
  | _, [], s => s
  | k, b :: bs, s => saw6fFrom F x (k + 1) bs ((s.add (F.sin ((Binary64.ofNat k).mul x))).add b)

/-- SAW6F (R164): six harmonics of weight 1, each followed by its additive bias, summed from +0.0. -/
def saw6f (F : NumericConfig) (x : Binary64) : Binary64 := saw6fFrom F x 1 Const.sawBias Const.zero

/-- The chord timbre, left to right over the advanced phases (R165). -/
def chordTimbre (F : NumericConfig) (phases' : Vector Binary64 3) : Binary64 :=
  ((saw6f F (angle phases'[0])).add (saw6f F (angle phases'[1]))).add (saw6f F (angle phases'[2]))

/-- STEP_GATE (R166): 1.0 or 0.0 from the pattern ROM. -/
def stepGate (pat : Vector Bool 16) (step : Fin 16) : Binary64 := if romRead pat step then Const.one else Const.zero

/-- DRY_CHORD (R167): `(tim * ENV(sf, 0.1, 3.0)) * gateValue`. -/
def dryChord (F : NumericConfig) (tim sf gateValue : Binary64) : Binary64 :=
  (tim.mul (env F sf Const.chordEnvAmp Const.three)).mul gateValue

end Sys2Proof.Machine
end

