-- ==== Sys2Proof/Machine/Mixer.lean ====
section
/-! DEFINITION. The summing stage and TickStep, the block's one state-advance function (46_mixer.md R190, R191). -/

namespace Sys2Proof.Machine

/-- What TickStep returns: a sample and the next state, a fault of the block, or a stop of the model. -/
inductive TickResult where
  | produced (sample : Binary64) (s : State)
  | raised (c : FaultCode)
  | stopped (f : Fault)
  deriving DecidableEq, Repr

/-- What steps 6 and 7 return: the chord's contribution (none while the gate is off) and the registers they write. -/
structure ChordResult where
  chordOut   : Option Binary64
  chordPhase : Vector Binary64 3
  line       : DelayLine
  deriving DecidableEq, Repr

/-- TICK step 6: the dry chord (44_voices.md R160 to R167), from the phases this tick has advanced. -/
def dryChordOf (F : NumericConfig) (t : MusicalTime) (pat : Vector Bool 16) (phases' : Vector Binary64 3) : Binary64 :=
  dryChord F (chordTimbre F phases') t.sixteenthFraction (stepGate pat t.step)

/-- TICK steps 6 and 7 (44_voices.md R160, R168): while the gate is off nothing is advanced, the delay line is not called
and the chord is absent. -/
def chordVoice (F : NumericConfig) (t : MusicalTime) (engaged : Bool) (s : State) : Except Fault ChordResult :=
  let line : DelayLine := { cursor := s.delayWriteIndex, words := s.dly }
  if engaged then
    let phases' := chordPartials (chordFreq s.variant t.barMod4) s.chordPhase
    match chordTap s.variant (dryChordOf F t s.pat phases') line with
    | .error f => .error f
    | .ok (chordOut, line') => .ok { chordOut := some chordOut, chordPhase := phases', line := line' }
  else .ok { chordOut := none, chordPhase := s.chordPhase, line := line }

/-- SUM, TICK step 8 (R191): left to right; before the latch the chord term is absent. No limiting, clipping or gain
(R192). -/
def mix (kick bass : Binary64) (chordOut : Option Binary64) : Binary64 :=
  match chordOut with
  | some c => (kick.add bass).add c
  | none   => kick.add bass

/-- The tick at a musical time, steps 3 to 9 of R190: every register is written together, from values that the earlier
steps produced (00_scope.md R14). -/
def tickAt (F : NumericConfig) (t : MusicalTime) (s : State) : TickResult :=
  let kickPhase' := kickAdvance F t.beatFraction s.kickPhase
  let bassPhase' := bassAdvance s.bassPhase
  let engaged' := gateLatch s.chordGateEngaged t.seconds t.beatFraction
  match chordVoice F t engaged' s with
  | .error f => .stopped f
  | .ok r =>
    .produced (mix (kickOut F t.beatFraction kickPhase') (bassOut F t.beatFraction bassPhase') r.chordOut)
      { s with
        kickPhase := kickPhase'
        bassPhase := bassPhase'
        chordGateEngaged := engaged'
        chordPhase := r.chordPhase
        delayWriteIndex := r.line.cursor
        dly := r.line.words
        sampleCount := s.sampleCount + 1#64 }

/-- TickStep (R190). Step 1 reads the index. A datapath that holds no value is one before INIT, and the read of it is a
fault (10_state.md R20): NotConstructed, which TICK and FILL raise "before INIT" (40_commands.md R101, R102; DEDUCED,
log 4). An index at or past 2^53 raises CounterRange (10_state.md R22). -/
def tickStep (F : NumericConfig) (s : State) : TickResult :=
  if s.datapathWritten = false then .raised .notConstructed
  else if Const.indexLimit ≤ s.sampleCount.toNat then .raised .counterRange
  else tickAt F (clock s.sampleCount.toNat) s

end Sys2Proof.Machine
end

