-- ==== Sys2Proof/Machine/Commands.lean ====
section
/-! DEFINITION. The meanings of the three host commands (40_commands.md R100 to R103), in the checking order of
60_exceptions.md R205. -/

namespace Sys2Proof.Machine

/-- INIT (R100): construct the engine. -/
def execInit (v : Variant) (sr : Nat) (s : State) : Host.Outcome State Fault Refusal :=
  match s.lifecycle with
  | .faulted => .next s
  | .running => .next (raiseFault .alreadyConstructed s)
  | .unconstructed => .next (if rateSupported sr then construct v s else raiseFault .unsupportedSampleRate s)

/-- TICK with a given numeric configuration (R101): one TickStep, one sample. -/
def tickWith (F : NumericConfig) (s : State) : Host.Outcome State Fault Refusal :=
  match s.lifecycle with
  | .faulted => .next s
  | .unconstructed => .next (raiseFault .notConstructed s)
  | .running =>
    match tickStep F s with
    | .produced v s' => .next (emit v s')
    | .raised c => .next (raiseFault c s)
    | .stopped f => .fault f

/-- The ticks of a FILL (R102): each is committed and emitted before the next. A tick that faults commits only the fault
state, ends the command and leaves CONT unreported (60_exceptions.md R204). -/
def fillTicks (F : NumericConfig) : Nat → State → Host.Outcome State Fault Refusal
  | 0, s => .next (reportCont s)
  | k + 1, s =>
    match tickStep F s with
    | .produced v s' => fillTicks F k (emit v s')
    | .raised c => .next (raiseFault c s)
    | .stopped f => .fault f

/-- FILL with a given numeric configuration (R102): N TickSteps, then `CONT = 1`. -/
def fillWith (F : NumericConfig) (n : Nat) (s : State) : Host.Outcome State Fault Refusal :=
  match s.lifecycle with
  | .faulted => .next s
  | .unconstructed => .next (raiseFault .notConstructed s)
  | .running => fillTicks F n s

/-- TICK (R101). -/
def execTick (s : State) : Host.Outcome State Fault Refusal := tickWith Config.numeric s

/-- FILL (R102). -/
def execFill (n : Nat) (s : State) : Host.Outcome State Fault Refusal := fillWith Config.numeric n s

end Sys2Proof.Machine
end

