-- ==== Sys2Proof/Machine/Dispatch.lean ====
section
/-! DEFINITION. One arm per command, each a direct call of its meaning. -/

namespace Sys2Proof.Machine

def exec (i : Instr) (s : State) : Host.Outcome State Fault Refusal :=
  match i with
  | .init v sr => Sys2Proof.Machine.execInit v sr s
  | .tick => Sys2Proof.Machine.execTick s
  | .fill n => Sys2Proof.Machine.execFill n s

end Sys2Proof.Machine
end

