-- ==== Sys2Proof/Machine/Step.lean ====
section
/-! DEFINITION. One step: the block takes the host's next move and completes it (30_encoding.md R70; 70_reset_and_hazards.md
R239). With nothing presented it is idle and keeps its state (60_exceptions.md R215). -/

namespace Sys2Proof.Machine

/-- One step of the block. A word that is no command raises IllegalCommand (30_encoding.md R76). -/
def step (s : State) : Host.Outcome State Fault Refusal :=
  match takeMove s with
  | none => .next s
  | some (.rst, t) => .next (powerOnReset t)
  | some (.command w, t) =>
    match decode w with
    | .ok i => exec i t
    | .error _ => .next (takeIllegalWord t)

/-- `s` with an opcode-table word presented on `cmd_in` ahead of whatever else the host has sent: the very next step takes
it. Commands are presented from outside and not stored (20_memory.md R62; log 6). -/
def State.withFetchWord (s : State) (nbits w : Nat) : State :=
  { s with hostIn := .command (BitVec.ofNat 32 (w % 2 ^ nbits)) :: s.hostIn }

end Sys2Proof.Machine
end

