-- ==== Sys2Proof/Machine/Assembler.lean ====
section
/-! DEFINITION. The assembler: mnemonics and their syntax (30_encoding.md R78) and the pseudo-command RUN (R79). No machine
step uses it; it says which words a program text stands for. What the spec leaves open of the text's form (case, blanks,
empty lines) is log 13. -/

namespace Sys2Proof.Machine

/-- One line of a program, its operands as the integers they denote. -/
inductive AsmLine where
  /-- nothing but blanks and a comment -/
  | blank
  /-- `INIT BASIC, <sr>` or `INIT WITHDELAY, <sr>` -/
  | init (v : Variant) (sr : Nat)
  /-- `TICK` -/
  | tick
  /-- `FILL <n>` -/
  | fill (n : Nat)
  /-- `RUN <s>`, `s` in thousandths of a second -/
  | run (thousandths : Nat)
  deriving DecidableEq, Repr

/-! ### What a line stands for -/

/-- The samples in `RUN <s>`: `k = s × 48 000` (R79). With at most three fractional digits it is an integer. -/
def runSamples (thousandths : Nat) : Nat := thousandths * 48

/-- The FILLs that produce `k` samples (R79): one when it fits, otherwise full blocks and, when it is not 0, the
remainder. -/
def runFills (k : Nat) : List Instr :=
  if k < 2 ^ 24 then [.fill k]
  else List.replicate (k / fillMax) (.fill fillMax) ++ (if k % fillMax = 0 then [] else [.fill (k % fillMax)])

/-- The commands of a line; none where the assembler refuses it: `<sr>` ≥ 2^20 or `<n>` ≥ 2^24 (R78). -/
def AsmLine.commands : AsmLine → Option (List Instr)
  | .blank => some []
  | .init v sr => if sr < 2 ^ 20 then some [.init v sr] else none
  | .tick => some [.tick]
  | .fill n => if n < 2 ^ 24 then some [.fill n] else none
  | .run t => some (runFills (runSamples t))

/-! ### Reading the text -/

/-- The value of a decimal digit. -/
def decimalDigit (c : Char) : Option Nat :=
  if 48 ≤ c.toNat ∧ c.toNat ≤ 57 then some (c.toNat - 48) else none

/-- The value of a hexadecimal digit, either case. -/
def hexDigit (c : Char) : Option Nat :=
  if 97 ≤ c.toNat ∧ c.toNat ≤ 102 then some (c.toNat - 87)
  else if 65 ≤ c.toNat ∧ c.toNat ≤ 70 then some (c.toNat - 55)
  else decimalDigit c

/-- The number that digits in a base spell after a value already read. -/
def readDigits (digit : Char → Option Nat) (base : Nat) : Nat → List Char → Option Nat
  | acc, [] => some acc
  | acc, c :: cs =>
    match digit c with
    | some d => readDigits digit base (acc * base + d) cs
    | none => none

/-- An unsigned decimal or `0x` hexadecimal integer (R78). -/
def readInteger : List Char → Option Nat
  | [] => none
  | '0' :: 'x' :: [] => none
  | '0' :: 'x' :: cs => readDigits hexDigit 16 0 cs
  | cs => readDigits decimalDigit 10 0 cs

/-- A decimal with at most three fractional digits, in thousandths (R79): the whole part, then what follows the point. -/
def readThousandths (cs : List Char) : Option Nat :=
  let whole := cs.takeWhile (· ≠ '.')
  let rest := cs.dropWhile (· ≠ '.')
  if whole = [] then none
  else
    match rest with
    | [] => (readDigits decimalDigit 10 0 whole).map (· * 1000)
    | _ :: digits =>
      if digits = [] ∨ 3 < digits.length then none
      else (readDigits decimalDigit 10 0 (whole ++ digits)).map (· * 10 ^ (3 - digits.length))

/-- The tokens of a line: runs of characters other than blanks and commas, and each comma by itself. `word` holds the
token being read. -/
def tokensFrom (word : List Char) : List Char → List (List Char)
  | [] => if word = [] then [] else [word]
  | c :: cs =>
    let done := if word = [] then [] else [word]
    if c = ' ' ∨ c = '\t' ∨ c = '\r' then done ++ tokensFrom [] cs
    else if c = ',' then done ++ [','] :: tokensFrom [] cs
    else tokensFrom (word ++ [c]) cs

/-- The variant names of R78. -/
def readVariant (word : List Char) : Option Variant :=
  if word = ['B', 'A', 'S', 'I', 'C'] then some .basic
  else if word = ['W', 'I', 'T', 'H', 'D', 'E', 'L', 'A', 'Y'] then some .withDelay
  else none

/-- A line's tokens as a line of the program; none where it has no form of R78 or R79. -/
def parseTokens : List (List Char) → Option AsmLine
  | [] => some .blank
  | [m] => if m = ['T', 'I', 'C', 'K'] then some .tick else none
  | [m, a] =>
    if m = ['F', 'I', 'L', 'L'] then (readInteger a).map .fill
    else if m = ['R', 'U', 'N'] then (readThousandths a).map .run
    else none
  | [m, v, comma, a] =>
    if m = ['I', 'N', 'I', 'T'] ∧ comma = [','] then
      match readVariant v, readInteger a with
      | some v', some sr => some (.init v' sr)
      | _, _ => none
    else none
  | _ => none

/-- A line of text: everything from `;` on is a comment (R78). -/
def parseLine (line : List Char) : Option AsmLine := parseTokens (tokensFrom [] (line.takeWhile (· ≠ ';')))

/-- The lines of a text. `line` holds the line being read. -/
def linesFrom (line : List Char) : List Char → List (List Char)
  | [] => [line]
  | c :: cs => if c = '\n' then line :: linesFrom [] cs else linesFrom (line ++ [c]) cs

/-- The commands of some lines, in order (R78: one command a line). -/
def assembleLines : List (List Char) → Option (List Instr)
  | [] => some []
  | l :: ls =>
    match (parseLine l).bind AsmLine.commands, assembleLines ls with
    | some is, some rest => some (is ++ rest)
    | _, _ => none

/-- The command words of a program text; none where the assembler refuses it. -/
def assemble (text : List Char) : Option (List Word) :=
  (assembleLines (linesFrom [] text)).map (·.map encode)

end Sys2Proof.Machine
end

