-- ==== Sys2Proof/Safety.lean ====
section
/-! DEFINITION. The terms claims are stated in: the exact value of a `Num` and what it is to be rounded once, the range of a
phase, the named assumptions about a numeric configuration (00_scope.md R10), the invariants of the state, and the end of
a run (70_reset_and_hazards.md R242). -/

namespace Sys2Proof

/-! ### Values -/

/-- The exact value of a finite datum. -/
def Binary64.value (x : Binary64) : ℚ := (x.units : ℚ) / (unitsPerOne : ℚ)

/-- The fraction's last bit is 0. -/
def Binary64.evenFraction : Binary64 → Bool
  | .fin _ _ frac => frac.getLsbD 0 == false
  | _ => true

/-- Where rounding to nearest goes to infinity: half a last place past the largest finite value, 2^1024 − 2^970. -/
def overflowBound : ℚ := 2 ^ 1024 - 2 ^ 970

/-- `r` is the exact `q` rounded once to binary64, to nearest, ties to even (00_scope.md R8): below the overflow bound a
finite datum nearer than any other (and even where another is as near), from the bound on an infinity of the sign of
`q`. -/
def RoundedOnce (q : ℚ) (r : Binary64) : Prop :=
  if |q| < overflowBound then
    r.isFinite = true ∧
    (∀ z : Binary64, z.isFinite = true → |r.value - q| ≤ |z.value - q|) ∧
    (∀ z : Binary64, z.isFinite = true → |z.value - q| = |r.value - q| → z.value ≠ r.value → r.evenFraction = true)
  else r = .inf (decide (q < 0))

/-- A phase's range, [0, 1) (10_state.md R26). -/
def Binary64.inUnit (x : Binary64) : Bool :=
  x.isFinite && decide (0 ≤ x.units) && decide (x.units < (unitsPerOne : Int))

/-- A finite datum between `-b` and `b`. -/
def Binary64.absLe (x b : Binary64) : Bool :=
  x.isFinite && decide (-b.units ≤ x.units) && decide (x.units ≤ b.units)

namespace Machine

/-! ### Named assumptions about a numeric configuration (00_scope.md R10) -/

/-- `Pow(1, e) = 1`. -/
def PowOne (F : NumericConfig) : Prop := ∀ e, F.pow Const.one e = Const.one

/-- `Pow(0, e) = +0` for `e > 0`. -/
def PowZero (F : NumericConfig) : Prop := ∀ e, Const.zero.lt e = true → F.pow Const.zero e = Const.zero

/-- `Pow(b, e)` is finite and in [0, 1] for `b` in (0, 1] and `e > 0`. -/
def PowUnit (F : NumericConfig) : Prop :=
  ∀ b e : Binary64, b.isFinite = true → 0 < b.units → b.units ≤ (unitsPerOne : Int) → Const.zero.lt e = true →
    (F.pow b e).isFinite = true ∧ 0 ≤ (F.pow b e).units ∧ (F.pow b e).units ≤ (unitsPerOne : Int)

/-- `Pow(b, e)` does not decrease as `b` grows over (0, 1], for `e > 0`. -/
def PowMonotone (F : NumericConfig) : Prop :=
  ∀ b c e : Binary64, 0 < b.units → b.units ≤ c.units → c.units ≤ (unitsPerOne : Int) → Const.zero.lt e = true →
    (F.pow b e).units ≤ (F.pow c e).units

/-- `|Sin(x)| ≤ 1` for finite `x`. -/
def SinBounded (F : NumericConfig) : Prop := ∀ x : Binary64, x.isFinite = true → (F.sin x).absLe Const.one = true

/-- `|Tanh(x)| ≤ 1` for finite `x`. -/
def TanhBounded (F : NumericConfig) : Prop := ∀ x : Binary64, x.isFinite = true → (F.tanh x).absLe Const.one = true

/-! ### Invariants of the state -/

/-- What holds of every state the block can be in, whatever the configuration functions return. -/
structure State.Wf (s : State) : Prop where
  /-- `DLY` keeps its canonical form, with every address below `L`. -/
  dlyCanonical : s.dly.wf = true
  /-- The cursor is in [0, L) (10_state.md R28). -/
  cursorInRange : s.delayWriteIndex.toNat < Const.delayLen
  /-- `sampleCount` never exceeds 2^53 (10_state.md R22). -/
  countInRange : s.sampleCount.toNat ≤ Const.indexLimit
  /-- `PAT` keeps its fixed contents (10_state.md R30). -/
  patFixed : s.pat = Const.pattern
  /-- A Running block has been constructed. -/
  runningWritten : s.lifecycle = .running → s.datapathWritten = true
  /-- An Unconstructed block has not. -/
  unconstructedUnwritten : s.lifecycle = .unconstructed → s.datapathWritten = false
  /-- Exactly a Faulted block shows a fault code. -/
  faultedCode : s.lifecycle = .faulted ↔ s.faultCode ≠ .none
  /-- `sampleCount` is the number of samples emitted: each index once, none skipped (70_reset_and_hazards.md R235). -/
  countsSamples : s.datapathWritten = true → s.sampleOut.length = s.sampleCount.toNat
  /-- Before INIT nothing has been emitted or reported, and `VARIANT` reads 0 (10_state.md R31). -/
  nothingBeforeInit : s.datapathWritten = false → s.sampleOut = [] ∧ s.contOut = [] ∧ s.variant = .basic
  /-- `CONT` is always 1 (40_commands.md R102). -/
  contIsOne : ∀ c ∈ s.contOut, c = 1#1

/-- Where the latch, the chord and the delay line stand at each sample index of a constructed block (44_voices.md R156;
45_delay.md R181; 10_state.md R25; 20_memory.md R53). -/
structure State.OnGrid (s : State) : Prop where
  /-- The gate is on exactly from the tick of index 168 000 on. -/
  gate : s.datapathWritten = true → (s.chordGateEngaged = true ↔ 168000 < s.sampleCount.toNat)
  /-- Under WithDelay the cursor is `(n − 168000) mod 18000`, and 0 before; under Basic it stays 0. -/
  cursor : s.datapathWritten = true →
    s.delayWriteIndex.toNat =
      if s.variant = .withDelay then (s.sampleCount.toNat - 168000) % 18000 else 0
  /-- While the gate is off the chord phases keep their INIT value. -/
  chordIdle : s.datapathWritten = true → s.chordGateEngaged = false →
    s.chordPhase = #v[Const.zero, Const.zero, Const.zero]
  /-- `DLY` stays all +0.0 while the gate is off, and always under Basic. -/
  dlyIdle : s.datapathWritten = true → (s.chordGateEngaged = false ∨ s.variant = .basic) → s.dly = []

/-- The phases whose frequencies are constants lie in [0, 1) (10_state.md R26). -/
structure State.PhasesInUnit (s : State) : Prop where
  bass : s.bassPhase.inUnit = true
  chord0 : s.chordPhase[0].inUnit = true
  chord1 : s.chordPhase[1].inUnit = true
  chord2 : s.chordPhase[2].inUnit = true

/-- The bound that the delay line's words and the samples keep under a bounded configuration: 4.5, which lies above the
4.464 and the 4.3676 that 46_mixer.md R193 gives "up to rounding". -/
def outputBound : Binary64 := Binary64.ofRatio 9 2

/-- Every word of `DLY` is finite and within the bound. -/
def State.DlyBounded (s : State) : Prop := ∀ a, (s.dly.load a).absLe outputBound = true

/-! ### The assembler's numbers -/

/-- The number that digits spell in a base, the most significant digit first. -/
def digitsValue (base : Nat) (ds : List Nat) : Nat := ds.foldl (fun value d => value * base + d) 0

/-! ### A run and its end -/

/-- `k` steps of the block, stopping where a step stops: `Host.Core.run` of `Sys2Proof.core`, in the model's own terms. -/
def runSteps : Nat → State → Host.Outcome State Fault Refusal
  | 0, s => .next s
  | k + 1, s =>
    match step s with
    | .next s' => runSteps k s'
    | .fault f => .fault f
    | .refused r => .refused r

/-- A run has ended well: the last command has completed and the block is Running (70_reset_and_hazards.md R242). -/
def State.endsWell (s : State) : Bool := decide (s.hostIn = []) && decide (s.lifecycle = .running)

/-- A run's observation: the emitted samples and the final status (R242; 10_state.md R35). -/
def State.observation (s : State) : List Binary64 × Word := (s.sampleOut, s.statusWord)

/-- Successive calls of a delay line (45_delay.md R183): what each returns, in order, and the line after them. -/
def delayCalls (feedback : Binary64) : List Binary64 → DelayLine → Except Fault (List Binary64 × DelayLine)
  | [], line => .ok ([], line)
  | x :: xs, line =>
    match delayCall feedback x line with
    | .error f => .error f
    | .ok (y, line') =>
      match delayCalls feedback xs line' with
      | .error f => .error f
      | .ok (ys, line'') => .ok (y :: ys, line'')

end Machine

end Sys2Proof
end

