-- ==== Sys2Proof/Certificates/Slice0/Obligations.lean ====
section
/-! DEFINITION. The statements for the provers, from the numbered rules of spec/. `[derived]` in a docstring marks a
statement that rests on an inference the spec itself marks as derived, or on a choice of the model that a log entry
names. -/

open Sys2Proof Sys2Proof.Machine

/-! ### Encoding -/

/-- Words written out from the layouts of 30_encoding.md R71 to R74 decode to the commands they stand for, and three
illegal words (95_test_vectors.md V-CMD-4, V-CMD-9, V-CMD-10) are refused by name. -/
def Obligations.WrittenWordsDecode : Prop :=
  decode 0b00000001000000001011101110000000#32 = .ok (.init .basic 48000) ∧
  decode 0b00000001100000001011101110000000#32 = .ok (.init .withDelay 48000) ∧
  decode 0b00000001000000001010110001000100#32 = .ok (.init .basic 44100) ∧
  decode 0b00000010000000000000000000000000#32 = .ok .tick ∧
  decode 0b00000011000000000000000000000001#32 = .ok (.fill 1) ∧
  decode 0b00000011000000101001000001000001#32 = .ok (.fill 168001) ∧
  decode 0b00000001000100001011101110000000#32 = .error .initReservedBits ∧
  decode 0b00000010000000000000000000000001#32 = .error .tickReservedBits ∧
  decode 0b00000000000000000000000000000000#32 = .error .reservedOpcode

/-- Decoding the word of a well-formed command gives the command back, with every operand at every value its field
admits (30_encoding.md R71 to R75). -/
def Obligations.DecodeInvertsEncode : Prop :=
  ∀ i : Instr, WellFormed i → decode (encode i) = .ok i

/-- Each command word has one meaning: a word that decodes is the word of what it decodes to, and that is well-formed
(30_encoding.md R71 to R75). -/
def Obligations.EncodeInvertsDecode : Prop :=
  ∀ (w : Word) (i : Instr), decode w = .ok i → encode i = w ∧ WellFormed i

/-- The opcode map of 30_encoding.md R75, by its masks: the first condition that holds decides, and anything else is an
illegal command. -/
def Obligations.OpcodeMapByMasks : Prop :=
  ∀ cmd : Word,
    (cmd &&& 0xFF700000#32 = 0x01000000#32 →
      decode cmd = .ok (.init (if cmd.getLsbD 23 then .withDelay else .basic) (cmd.toNat % 2 ^ 20))) ∧
    (cmd = 0x02000000#32 → decode cmd = .ok .tick) ∧
    (cmd &&& 0xFF000000#32 = 0x03000000#32 → decode cmd = .ok (.fill (cmd.toNat % 2 ^ 24))) ∧
    (cmd &&& 0xFF700000#32 ≠ 0x01000000#32 → cmd ≠ 0x02000000#32 → cmd &&& 0xFF000000#32 ≠ 0x03000000#32 →
      ∃ e, decode cmd = .error e)

/-- 30_encoding.md R76: the words of (a), (b) and (c), and only those, are illegal; a block that is not Faulted answers
one with IllegalCommand and no other effect; an INIT layout with another rate than 48 000 is no illegal word but faults
with UnsupportedSampleRate. -/
def Obligations.IllegalWordsFault : Prop :=
  (∀ w : Word, (∃ e, decode w = .error e) ↔
    (w.toNat / 2 ^ 24 ≠ 1 ∧ w.toNat / 2 ^ 24 ≠ 2 ∧ w.toNat / 2 ^ 24 ≠ 3) ∨
    (w.toNat / 2 ^ 24 = 1 ∧ w.toNat / 2 ^ 20 % 8 ≠ 0) ∨
    (w.toNat / 2 ^ 24 = 2 ∧ w.toNat % 2 ^ 24 ≠ 0)) ∧
  (∀ (s : State) (w : Word) (rest : List HostMove) (e : IllegalWord),
    s.hostIn = .command w :: rest → decode w = .error e → s.lifecycle ≠ .faulted →
      step s = .next { s with hostIn := rest, faultCode := .illegalCommand, lifecycle := .faulted }) ∧
  (∀ (s : State) (v : Variant) (sr : Nat) (rest : List HostMove),
    s.hostIn = .command (encode (.init v sr)) :: rest → sr < 2 ^ 20 → sr ≠ 48000 → s.lifecycle = .unconstructed →
      step s = .next { s with hostIn := rest, faultCode := .unsupportedSampleRate, lifecycle := .faulted })

/-! ### The step and the host's moves -/

/-- A step runs the decoded command: the block takes the oldest word the host presented and completes it before the next
(30_encoding.md R70). -/
def Obligations.StepRunsTheDecodedCommand : Prop :=
  ∀ (s : State) (w : Word) (i : Instr) (rest : List HostMove),
    s.hostIn = .command w :: rest → decode w = .ok i → step s = exec i { s with hostIn := rest }

/-- Between commands the block is idle and keeps all its state (60_exceptions.md R215); that an empty queue is such a time
is the model's choice (log 5). -/
def Obligations.IdleBlockKeepsItsState : Prop :=
  ∀ s : State, s.hostIn = [] → step s = .next s

/-- The state right after power-on reset: `STATUS` 0, no datapath value, `PAT` with its set bits at steps 0, 3, 5, 10 and
12 (70_reset_and_hazards.md R230; 10_state.md R30). That nothing has been presented or emitted is the model's choice
(log 5, log 7). -/
def Obligations.ResetStateIsUnconstructed : Prop :=
  State.reset.lifecycle = .unconstructed ∧ State.reset.faultCode = .none ∧ State.reset.variant = .basic ∧
  State.reset.statusWord = 0#32 ∧ State.reset.datapathWritten = false ∧
  (∀ i : Fin 16, State.reset.pat[i] = true ↔ i ∈ [0, 3, 5, 10, 12]) ∧
  State.reset.hostIn = [] ∧ State.reset.sampleOut = [] ∧ State.reset.contOut = []

/-- [derived] Power-on reset from any state (70_reset_and_hazards.md R230). The datapath holds no value: a tick that reads it
faults, as 10_state.md R20 says, with NotConstructed, which code is the model's inference (log 4). `PAT` keeps its
contents, and TICK and FILL fault with NotConstructed until INIT. -/
def Obligations.PowerOnResetFromAnyState : Prop :=
  ∀ (s : State) (rest : List HostMove), s.hostIn = .rst :: rest →
    ∃ t, step s = .next t ∧
      t.lifecycle = .unconstructed ∧ t.faultCode = .none ∧ t.variant = .basic ∧ t.statusWord = 0#32 ∧
      (∀ F, tickStep F t = .raised .notConstructed) ∧ t.pat = s.pat ∧ t.hostIn = rest ∧
      exec .tick t = .next { t with faultCode := .notConstructed, lifecycle := .faulted } ∧
      (∀ n, exec (.fill n) t = .next { t with faultCode := .notConstructed, lifecycle := .faulted }) ∧
      (∀ v, exec (.init v 48000) t =
        .next { t with
          variant := v, datapathWritten := true, sampleCount := 0#64, kickPhase := Binary64.zero false,
          bassPhase := Binary64.zero false,
          chordPhase := #v[Binary64.zero false, Binary64.zero false, Binary64.zero false],
          chordGateEngaged := false, delayWriteIndex := 0#15, dly := [], faultCode := .none, lifecycle := .running })

/-- 40_commands.md R103: while Faulted every command word is ignored, illegal ones too. Nothing is emitted, nothing
changes but that the word is taken. -/
def Obligations.FaultedBlockIgnoresCommands : Prop :=
  ∀ (s : State) (w : Word) (rest : List HostMove), s.lifecycle = .faulted → s.hostIn = .command w :: rest →
    step s = .next { s with hostIn := rest }

/-- 60_exceptions.md R206: no command leaves Faulted; only power-on reset does, and then the block is Unconstructed with
no fault code. -/
def Obligations.OnlyResetLeavesFaulted : Prop :=
  ∀ s t : State, s.lifecycle = .faulted → step s = .next t →
    (t.lifecycle = .faulted ∧ t.faultCode = s.faultCode) ∨
    (s.hostIn.head? = some .rst ∧ t.lifecycle = .unconstructed ∧ t.faultCode = .none)

/-- 10_state.md R34: the lifecycle's transitions. A successful INIT, a fault of a block that is not Faulted, and power-on
reset (from any state, 70_reset_and_hazards.md R230) are the only ones, and a step that is none of them writes neither
LIFECYCLE nor FAULT_CODE: no fault leaves LIFECYCLE as it was. -/
def Obligations.LifecycleTransitions : Prop :=
  ∀ s t : State, step s = .next t →
    (t.lifecycle = s.lifecycle ∧ t.faultCode = s.faultCode) ∨
    (s.lifecycle = .unconstructed ∧ t.lifecycle = .running ∧ t.faultCode = .none ∧
      ∃ w v, s.hostIn.head? = some (.command w) ∧ decode w = .ok (.init v 48000)) ∨
    (s.lifecycle ≠ .faulted ∧ t.lifecycle = .faulted ∧ t.faultCode ≠ .none ∧
      ∃ w, s.hostIn.head? = some (.command w)) ∨
    (s.hostIn.head? = some .rst ∧ t.lifecycle = .unconstructed)

/-- 60_exceptions.md R205: the fault conditions are checked in this order and the first that holds is reported. -/
def Obligations.FaultChecksInOrder : Prop :=
  ∀ (s : State) (w : Word) (rest : List HostMove), s.hostIn = .command w :: rest →
    let raised (c : FaultCode) : Host.Outcome State Fault Refusal :=
      .next { s with hostIn := rest, faultCode := c, lifecycle := .faulted }
    (s.lifecycle = .faulted → step s = .next { s with hostIn := rest }) ∧
    (s.lifecycle ≠ .faulted → (∃ e, decode w = .error e) → step s = raised .illegalCommand) ∧
    (∀ v sr, decode w = .ok (.init v sr) → s.lifecycle = .running → step s = raised .alreadyConstructed) ∧
    (∀ v sr, decode w = .ok (.init v sr) → s.lifecycle = .unconstructed → sr ≠ 48000 →
      step s = raised .unsupportedSampleRate) ∧
    (decode w = .ok .tick → s.lifecycle = .unconstructed → step s = raised .notConstructed) ∧
    (∀ n, decode w = .ok (.fill n) → s.lifecycle = .unconstructed → step s = raised .notConstructed) ∧
    (s.lifecycle = .running → s.datapathWritten = true → 2 ^ 53 ≤ s.sampleCount.toNat →
      (decode w = .ok .tick → step s = raised .counterRange) ∧
      (∀ n, decode w = .ok (.fill (n + 1)) → step s = raised .counterRange))

/-- [derived] Fault entry commits exactly two writes, FAULT_CODE and LIFECYCLE (60_exceptions.md R203). A command that takes a
block into Faulted writes the code of its command and lifecycle (60_exceptions.md R201; 40_commands.md R100 to R102) and
leaves everything else as it was before the command, or, for FILL, as it was before the faulting tick: as `FILL j` leaves
it, less `FILL j`'s own report of CONT. An illegal word writes IllegalCommand, and then only the queue has moved on. For a
Running block whose datapath holds no value, a state no run reaches, the code NotConstructed is the model's inference
(log 4). -/
def Obligations.FaultEntryWritesTwoRegisters : Prop :=
  (∀ (s t : State) (i : Instr), s.lifecycle ≠ .faulted → t.lifecycle = .faulted → exec i s = .next t →
    t = { s with
      faultCode := (match s.lifecycle, i with
        | .unconstructed, .init _ _ => .unsupportedSampleRate
        | .unconstructed, .tick => .notConstructed
        | .unconstructed, .fill _ => .notConstructed
        | .running, .init _ _ => .alreadyConstructed
        | .running, .tick => if s.datapathWritten then .counterRange else .notConstructed
        | .running, .fill _ => if s.datapathWritten then .counterRange else .notConstructed
        | .faulted, _ => s.faultCode),
      lifecycle := .faulted } ∨
    ∃ n j u, i = .fill n ∧ j < n ∧ exec (.fill j) s = .next u ∧ u.lifecycle = .running ∧
      t = { u with contOut := s.contOut, faultCode := .counterRange, lifecycle := .faulted }) ∧
  (∀ (s t : State) (w : Word) (rest : List HostMove) (e : IllegalWord), s.lifecycle ≠ .faulted →
    s.hostIn = .command w :: rest → decode w = .error e → step s = .next t →
      t = { s with hostIn := rest, faultCode := .illegalCommand, lifecycle := .faulted })

/-! ### INIT -/

/-- 40_commands.md R100: INIT. Ignored when Faulted, AlreadyConstructed when Running, UnsupportedSampleRate for another
rate, and otherwise the whole engine constructed: every datapath register written, `DLY` all +0.0, nothing else changed
and no sample emitted. -/
def Obligations.InitConstructsTheEngine : Prop :=
  ∀ (s : State) (v : Variant) (sr : Nat),
    (s.lifecycle = .faulted → exec (.init v sr) s = .next s) ∧
    (s.lifecycle = .running →
      exec (.init v sr) s = .next { s with faultCode := .alreadyConstructed, lifecycle := .faulted }) ∧
    (s.lifecycle = .unconstructed → sr ≠ 48000 →
      exec (.init v sr) s = .next { s with faultCode := .unsupportedSampleRate, lifecycle := .faulted }) ∧
    (s.lifecycle = .unconstructed → sr = 48000 →
      ∃ t, exec (.init v sr) s = .next t ∧
        t = { s with
          variant := v, datapathWritten := true, sampleCount := 0#64, kickPhase := Binary64.zero false,
          bassPhase := Binary64.zero false,
          chordPhase := #v[Binary64.zero false, Binary64.zero false, Binary64.zero false],
          chordGateEngaged := false, delayWriteIndex := 0#15, dly := t.dly, faultCode := .none,
          lifecycle := .running } ∧
        (∀ a, t.dly.load a = Binary64.zero false) ∧ t.dly.wf = true ∧
        t.statusWord = (if v = .withDelay then 0x00000005#32 else 0x00000001#32))

/-! ### TICK -/

/-- 46_mixer.md R190 and 44_voices.md R168: one tick of a Running block, its nine steps written out, the clock (41_clock.md
R120) and the envelope (43_envelope.md R140) by their formulas. Every register is written from values of this tick's earlier steps, the sample is emitted, and nothing else changes; past the index
limit it raises CounterRange and nothing else changes. -/
def Obligations.TickComputesOneSample : Prop :=
  ∀ s : State, s.lifecycle = .running → s.datapathWritten = true → s.delayWriteIndex.toNat < 18000 →
    (2 ^ 53 ≤ s.sampleCount.toNat →
      exec .tick s = .next { s with faultCode := .counterRange, lifecycle := .faulted }) ∧
    (s.sampleCount.toNat < 2 ^ 53 →
      let F := Config.numeric
      let seconds := (Binary64.ofNat s.sampleCount.toNat).div (Binary64.ofNat 48000)
      let beats := seconds.mul Const.two
      let beatFraction := beats.sub beats.floor
      let bar := (beats.div Const.four).floor
      let sixteenths := beats.mul Const.four
      let sixteenthFraction := sixteenths.sub sixteenths.floor
      let stepIndex : Fin 16 := Fin.ofNat 16 sixteenths.floor.toNat
      let barMod4 := bar.toNat % 4
      let envelope (t A E : Binary64) := A.mul (F.pow (Const.one.sub t) E)
      let kickFreq := Const.fifty.add (envelope beatFraction Const.nineHundred Const.fifty)
      let kickPhase := advance s.kickPhase kickFreq
      let kick := (F.sin (kickPhase.mul Const.twoPi)).mul (envelope beatFraction Const.kickAmp Const.three)
      let bassPhase := advance s.bassPhase Const.fifty
      let shaped := F.tanh ((F.sin (bassPhase.mul Const.twoPi)).mul Const.oneAndHalf)
      let bass := shaped.mul (Const.pointTwo.sub (envelope beatFraction Const.pointTwo Const.half))
      let gate := s.chordGateEngaged || (Const.three.lt seconds && beatFraction.ieeeEq Const.zero)
      let base := Const.fifty.mul (Const.chordMul s.variant)
      let freq := if barMod4 = 2 ∨ barMod4 = 3 then base.mul Const.twoThirds else base
      let p0 := advance s.chordPhase[0] freq
      let p1 := advance s.chordPhase[1] (freq.mul Const.oneAndHalf)
      let p2 := advance s.chordPhase[2] (freq.mul Const.sixFifths)
      let tim := ((saw6f F (p0.mul Const.twoPi)).add (saw6f F (p1.mul Const.twoPi))).add
        (saw6f F (p2.mul Const.twoPi))
      let dry := (tim.mul (envelope sixteenthFraction Const.chordEnvAmp Const.three)).mul
        (if s.pat[stepIndex] then Const.one else Const.zero)
      let ticked : State :=
        { s with
          kickPhase := kickPhase, bassPhase := bassPhase, chordGateEngaged := gate,
          sampleCount := s.sampleCount + 1#64 }
      (gate = false → exec .tick s = .next { ticked with sampleOut := s.sampleOut ++ [kick.add bass] }) ∧
      (gate = true → s.variant = .basic →
        exec .tick s = .next { ticked with
          chordPhase := #v[p0, p1, p2], sampleOut := s.sampleOut ++ [(kick.add bass).add dry] }) ∧
      (gate = true → s.variant = .withDelay →
        ∃ returned line, delay dry { cursor := s.delayWriteIndex, words := s.dly } = .ok (returned, line) ∧
          exec .tick s = .next { ticked with
            chordPhase := #v[p0, p1, p2], delayWriteIndex := line.cursor, dly := line.words,
            sampleOut := s.sampleOut ++ [(kick.add bass).add (dry.add (returned.mul Const.delayWet))] }))

/-- The frame of TICK (40_commands.md R101; 10_state.md R23 to R29): what it leaves unchanged when it gives a next state.
The one word of `DLY` it stores to is the word at the cursor, and only under WithDelay with the gate engaged. -/
def Obligations.TickFrame : Prop :=
  ∀ s t : State, exec .tick s = .next t →
    t.variant = s.variant ∧ t.datapathWritten = s.datapathWritten ∧ t.pat = s.pat ∧ t.hostIn = s.hostIn ∧
    t.contOut = s.contOut ∧
    (s.chordGateEngaged = true → t.chordGateEngaged = true) ∧
    (t.chordGateEngaged = false → t.chordPhase = s.chordPhase) ∧
    (t.lifecycle = s.lifecycle → t.faultCode = s.faultCode ∧ t.statusWord = s.statusWord) ∧
    (t.lifecycle ≠ s.lifecycle → t = { s with faultCode := t.faultCode, lifecycle := .faulted }) ∧
    (t.lifecycle = .running → s.variant = .withDelay → t.chordGateEngaged = true →
      t.delayWriteIndex.toNat = (s.delayWriteIndex.toNat + 1) % 18000 ∧
      ∀ a, a ≠ s.delayWriteIndex.toNat → t.dly.load a = s.dly.load a) ∧
    (¬ (t.lifecycle = .running ∧ s.variant = .withDelay ∧ t.chordGateEngaged = true) →
      t.delayWriteIndex = s.delayWriteIndex ∧ ∀ a, t.dly.load a = s.dly.load a)

/-- [derived] What TICK and FILL do with reads that no run reaches. The datapath of a Running block that holds no value (a read
10_state.md R20 makes a fault) raises NotConstructed and commits only the fault state, which code is the model's inference
(log 4). A cursor outside [0, 18 000) that the delay line would use stops the model (20_memory.md R51). -/
def Obligations.UnreachableReadsFault : Prop :=
  ∀ s : State, s.lifecycle = .running →
    (s.datapathWritten = false →
      exec .tick s = .next { s with faultCode := .notConstructed, lifecycle := .faulted } ∧
      ∀ n, exec (.fill (n + 1)) s = .next { s with faultCode := .notConstructed, lifecycle := .faulted }) ∧
    (s.datapathWritten = true → s.sampleCount.toNat < 2 ^ 53 → s.variant = .withDelay →
      s.chordGateEngaged = true → 18000 ≤ s.delayWriteIndex.toNat →
      exec .tick s = .fault .dlyAddressOutOfRange ∧ ∀ n, exec (.fill (n + 1)) s = .fault .dlyAddressOutOfRange)

/-! ### FILL -/

/-- 40_commands.md R102 with R101: FILL N has the same effect as N TICKs, fault behaviour included. Running N TICK words
from the queue ends where FILL N ends, but for the one report of CONT that a FILL which has not faulted makes. -/
def Obligations.FillEqualsTicks : Prop :=
  ∀ (s : State) (n : Nat) (rest : List HostMove), s.lifecycle = .running →
    match runSteps n { s with hostIn := List.replicate n (.command 0x02000000#32) ++ rest } with
    | .next t =>
      exec (.fill n) { s with hostIn := rest } =
        .next (if t.lifecycle = .running then { t with contOut := t.contOut ++ [1#1] } else t)
    | .fault f => exec (.fill n) { s with hostIn := rest } = .fault f
    | .refused _ => False

/-- 40_commands.md R102, corner cases: block boundaries are invisible. FILL a and then FILL b leave the block as
FILL (a+b) does, the sample stream included; only the reports of CONT are counted per command. -/
def Obligations.FillBoundariesAreInvisible : Prop :=
  ∀ (s t u : State) (a b : Nat), s.lifecycle = .running → t.lifecycle = .running →
    exec (.fill a) s = .next t → exec (.fill b) t = .next u →
    ∃ u', exec (.fill (a + b)) s = .next u' ∧ { u' with contOut := u.contOut } = u ∧
      u'.contOut ++ [1#1] = u.contOut

/-- FILL completes (40_commands.md R102): within the index limit it emits exactly N samples, advances the index by N, stays
Running with `STATUS` unchanged, and reports CONT = 1; FILL 0 changes nothing else at all. -/
def Obligations.FillCompletes : Prop :=
  ∀ (s : State) (n : Nat), s.lifecycle = .running → s.datapathWritten = true → s.delayWriteIndex.toNat < 18000 →
    s.sampleCount.toNat + n ≤ 2 ^ 53 →
    ∃ t xs, exec (.fill n) s = .next t ∧ t.lifecycle = .running ∧ t.statusWord = s.statusWord ∧
      t.sampleOut = s.sampleOut ++ xs ∧ xs.length = n ∧ t.sampleCount.toNat = s.sampleCount.toNat + n ∧
      t.contOut = s.contOut ++ [1#1] ∧ (n = 0 → t = { s with contOut := s.contOut ++ [1#1] })

/-- 60_exceptions.md R204: faults are precise. A TICK that faults commits only the fault state. A FILL that meets the index
limit at its tick j has emitted and committed ticks 0 to j−1, exactly as FILL j, then commits only the fault state and
reports no CONT. -/
def Obligations.FaultsArePrecise : Prop :=
  ∀ s : State, s.lifecycle = .running → s.datapathWritten = true → s.delayWriteIndex.toNat < 18000 →
    (∀ t, exec .tick s = .next t → t.lifecycle = .faulted →
      t = { s with faultCode := .counterRange, lifecycle := .faulted }) ∧
    (∀ n j, j < n → s.sampleCount.toNat + j = 2 ^ 53 →
      ∃ u, exec (.fill j) s = .next u ∧ u.lifecycle = .running ∧ u.sampleCount.toNat = 2 ^ 53 ∧
        u.sampleOut.length = s.sampleOut.length + j ∧
        exec (.fill n) s =
          .next { u with contOut := s.contOut, faultCode := .counterRange, lifecycle := .faulted })

/-- The frame of FILL (40_commands.md R102), when it gives a next state. The words of `DLY` it stores to are those at the
cursor and on, one for each tick from the first one with the gate engaged (44_voices.md R155, R160; 45_delay.md R181):
from its first tick where the gate is on already, otherwise from the first index past 144 000 that is a multiple of
24 000. -/
def Obligations.FillFrame : Prop :=
  ∀ (s t : State) (n : Nat), exec (.fill n) s = .next t →
    t.variant = s.variant ∧ t.datapathWritten = s.datapathWritten ∧ t.pat = s.pat ∧ t.hostIn = s.hostIn ∧
    (t.contOut = s.contOut ∨ t.contOut = s.contOut ++ [1#1]) ∧
    (t.lifecycle = s.lifecycle → t.faultCode = s.faultCode ∧ t.statusWord = s.statusWord) ∧
    (s.chordGateEngaged = true → t.chordGateEngaged = true) ∧
    (t.chordGateEngaged = false → t.chordPhase = s.chordPhase) ∧
    (s.variant = .basic → t.delayWriteIndex = s.delayWriteIndex ∧ ∀ a, t.dly.load a = s.dly.load a) ∧
    (s.variant = .withDelay → s.delayWriteIndex.toNat < 18000 →
      let first := if s.chordGateEngaged then s.sampleCount.toNat
        else (max s.sampleCount.toNat 144001 + 23999) / 24000 * 24000
      let calls := t.sampleCount.toNat - first
      t.delayWriteIndex.toNat = (s.delayWriteIndex.toNat + calls) % 18000 ∧
      ∀ a, (∀ j, j < calls → a ≠ (s.delayWriteIndex.toNat + j) % 18000) → t.dly.load a = s.dly.load a)

/-! ### The delay line -/

/-- 45_delay.md R180: one DELAY call at a cursor in range. It reads the slot at the cursor, writes that slot and no other,
advances the cursor modulo 18 000 and returns the old content of the next slot, which is what the next call will read.
At a cursor out of range the model faults (20_memory.md R51). -/
def Obligations.DelayCallReadsWritesAdvances : Prop :=
  ∀ (input : Binary64) (line : DelayLine), line.words.wf = true →
    (line.cursor.toNat < 18000 →
      ∃ returned line', delay input line = .ok (returned, line') ∧
        line'.cursor.toNat = (line.cursor.toNat + 1) % 18000 ∧
        line'.words.load line.cursor.toNat =
          input.add ((line.words.load line.cursor.toNat).mul (Binary64.ofRatio 1 2)) ∧
        (∀ a, a ≠ line.cursor.toNat → line'.words.load a = line.words.load a) ∧
        returned = line.words.load ((line.cursor.toNat + 1) % 18000) ∧
        returned = line'.words.load line'.cursor.toNat ∧ line'.words.wf = true) ∧
    (18000 ≤ line.cursor.toNat → delay input line = .error .dlyAddressOutOfRange)

/-- [derived] The impulse response (the inference 45_delay.md R183). From cursor 0 and all words zero, 1.0 and then zeros:
with feedback 0 the only non-zero return is 1.0 at call 17 999; with feedback 0.5 the return at call (k+1)·18000 − 1 is
0.5^k, rounded once, and every other return is +0.0. -/
def Obligations.DelayImpulseResponse : Prop :=
  ∀ k : Nat,
    (∃ ys line, delayCalls Const.zero (Const.one :: List.replicate k Const.zero) { cursor := 0#15, words := [] } =
        .ok (ys, line) ∧ ys.length = k + 1 ∧
      ∀ i, i ≤ k → ys[i]? = some (if i = 17999 then Const.one else Const.zero)) ∧
    (∃ ys line, delayCalls Const.half (Const.one :: List.replicate k Const.zero) { cursor := 0#15, words := [] } =
        .ok (ys, line) ∧ ys.length = k + 1 ∧
      ∀ i, i ≤ k → ys[i]? = some
        (if (i + 1) % 18000 = 0 then Binary64.ofRatio 1 (2 ^ ((i + 1) / 18000 - 1)) else Const.zero))

/-! ### The clock -/

/-- [derived] The grid is exact (the inference 41_clock.md R123), for every index below the limit. -/
def Obligations.ClockGridIsExact : Prop :=
  ∀ n : Nat, n < 2 ^ 53 →
    ((clock n).beatFraction.ieeeEq Const.zero = true ↔ n % 24000 = 0) ∧
    ((clock n).sixteenthFraction.ieeeEq Const.zero = true ↔ n % 6000 = 0) ∧
    (clock n).beats.floor.toNat = n / 24000 ∧ (clock n).sixteenths.floor.toNat = n / 6000 ∧
    (clock n).bar.toNat = n / 96000 ∧
    (Const.three.lt (clock n).seconds = true ↔ 144000 < n) ∧
    (clock n).beatFraction.inUnit = true ∧ (clock n).sixteenthFraction.inUnit = true

/-- [derived] The step gate and the chord shift by sample index (44_voices.md R162 and R166, over the grid of 41_clock.md
R123 and R124): hits on steps 0, 3, 5, 10 and 12 of every 16, each step 6 000 samples, and the base frequency times the
rounded 2/3 in the second half of every 384 000 samples. -/
def Obligations.StepGateAndShiftByIndex : Prop :=
  ∀ n : Nat, n < 2 ^ 53 →
    (clock n).step.val = n / 6000 % 16 ∧ (clock n).barMod4 = n / 96000 % 4 ∧
    stepGate Const.pattern (clock n).step =
      (if n / 6000 % 16 ∈ [0, 3, 5, 10, 12] then Binary64.ofNat 1 else Binary64.zero false) ∧
    chordFreq .basic (clock n).barMod4 =
      (if 192000 ≤ n % 384000 then (Binary64.ofNat 200).mul ((Binary64.ofNat 2).div (Binary64.ofNat 3))
        else Binary64.ofNat 200) ∧
    chordFreq .withDelay (clock n).barMod4 =
      (if 192000 ≤ n % 384000 then (Binary64.ofNat 250).mul ((Binary64.ofNat 2).div (Binary64.ofNat 3))
        else Binary64.ofNat 250)

/-! ### The numbers -/

/-- Each of the four operations on finite data is the exact operation rounded once, to nearest, ties to even
(00_scope.md R8). -/
def Obligations.EachOperationRoundsOnce : Prop :=
  ∀ x y : Binary64, x.isFinite = true → y.isFinite = true →
    RoundedOnce (x.value + y.value) (x.add y) ∧
    RoundedOnce (x.value - y.value) (x.sub y) ∧
    RoundedOnce (x.value * y.value) (x.mul y) ∧
    (y.value ≠ 0 → RoundedOnce (x.value / y.value) (x.div y))

/-- 00_scope.md R9: `trunc` and `floor` are exact integers, the one next to `x` towards zero, the other the largest not
above it; the subtraction in `frac` does not round, and `frac` lies in [0, 1) or in (−1, 0]. -/
def Obligations.TruncFloorFracAreExact : Prop :=
  ∀ x : Binary64, x.isFinite = true →
    x.trunc.isFinite = true ∧ x.floor.isFinite = true ∧ x.frac.isFinite = true ∧
    x.trunc.value = (if 0 ≤ x.value then (⌊x.value⌋ : ℚ) else (⌈x.value⌉ : ℚ)) ∧
    x.floor.value = (⌊x.value⌋ : ℚ) ∧
    x.frac.value = x.value - x.trunc.value ∧
    (0 ≤ x.value → 0 ≤ x.frac.value ∧ x.frac.value < 1) ∧
    (x.value < 0 → -1 < x.frac.value ∧ x.frac.value ≤ 0)

/-- 00_scope.md R11: each decimal literal is the binary64 nearest to the decimal; 0.5, 0.375, 1.5, 2.0 and the integers are
exact; 2/3 and 6/5 are rounded quotients; `TWO_PI` is the exact double of the binary64 nearest π that the rule gives. -/
def Obligations.LiteralsAreRoundedOnce : Prop :=
  RoundedOnce (15 / 100) Const.kickAmp ∧ RoundedOnce (2 / 10) Const.pointTwo ∧
  RoundedOnce (1 / 10) Const.chordEnvAmp ∧ RoundedOnce (4 / 10) Const.delayWet ∧
  (∃ b33 b16, Const.sawBias = [Const.zero, Const.half, b33, Binary64.ofRatio 1 4, Const.pointTwo, b16] ∧
    RoundedOnce (33 / 100) b33 ∧ RoundedOnce (16 / 100) b16) ∧
  Const.half.value = 1 / 2 ∧ Const.delaySeconds.value = 375 / 1000 ∧ Const.oneAndHalf.value = 3 / 2 ∧
  Const.zero = Binary64.zero false ∧ Const.one.value = 1 ∧ Const.two.value = 2 ∧ Const.three.value = 3 ∧
  Const.four.value = 4 ∧ (Const.chordMul .basic).value = 4 ∧ (Const.chordMul .withDelay).value = 5 ∧
  Const.fifty.value = 50 ∧ Const.nineHundred.value = 900 ∧ (Binary64.ofRatio 1 4).value = 1 / 4 ∧
  RoundedOnce (2 / 3) Const.twoThirds ∧ RoundedOnce (6 / 5) Const.sixFifths ∧ RoundedOnce (1 / 48000) Const.dt ∧
  Const.pi = .fin false 1024 0x921fb54442d18#52 ∧ Const.twoPi = .fin false 1025 0x921fb54442d18#52

/-- Comparisons are IEEE comparisons (00_scope.md R12): on finite data those of the values, so −0.0 equals +0.0; false
where an operand is NaN; infinities beyond every finite datum. -/
def Obligations.ComparisonsAreIeee : Prop :=
  (∀ x y : Binary64, x.isFinite = true → y.isFinite = true →
    (x.lt y = true ↔ x.value < y.value) ∧ (x.ieeeEq y = true ↔ x.value = y.value)) ∧
  (∀ x : Binary64, Binary64.nan.lt x = false ∧ x.lt .nan = false ∧
    Binary64.nan.ieeeEq x = false ∧ x.ieeeEq .nan = false) ∧
  (∀ x : Binary64, x.isFinite = true →
    Binary64.lt (.inf true) x = true ∧ x.lt (.inf false) = true ∧ x.ieeeEq (.inf false) = false ∧
    x.ieeeEq (.inf true) = false) ∧
  (Binary64.zero true).ieeeEq (Binary64.zero false) = true ∧ Binary64.zero true ≠ Binary64.zero false

/-- The conversions of 00_scope.md R13 are exact: `toNum` below 2^53, and `toNat` of every such integer. -/
def Obligations.ConversionsAreExact : Prop :=
  ∀ n : Nat, n < 2 ^ 53 →
    (Binary64.ofNat n).isFinite = true ∧ (Binary64.ofNat n).value = (n : ℚ) ∧ (Binary64.ofNat n).toNat = n

/-! ### The oscillator bank and the envelope -/

/-- [derived] Range (the inference 42_oscillator_bank.md R132): a phase in [0, 1) advanced at any finite non-negative
frequency stays in [0, 1). -/
def Obligations.AdvanceStaysInUnit : Prop :=
  ∀ phase f : Binary64, phase.inUnit = true → f.isFinite = true → 0 ≤ f.units → (advance phase f).inUnit = true

/-- 42_oscillator_bank.md R130: ADVANCE and its corner cases, with `x = phase + (f * DT)`: frequency 0 leaves a phase, a sum
of exactly 1.0 gives +0.0, a sum in [1, 2) gives `x − 1.0` exactly, a sum of 1 or more loses its whole cycles, and a
negative sum truncates into (−1, 0]; and the rule's four examples. -/
def Obligations.AdvanceCornerCases : Prop :=
  (∀ phase f : Binary64,
    let x := phase.add (f.mul Const.dt)
    advance phase f = x.sub x.trunc ∧
    (phase.inUnit = true → (advance phase Const.zero).ieeeEq phase = true) ∧
    (x.ieeeEq Const.one = true → advance phase f = Binary64.zero false) ∧
    (x.isFinite = true → 1 ≤ x.value → x.value < 2 →
      advance phase f = x.sub Const.one ∧ (advance phase f).value = x.value - 1) ∧
    (x.isFinite = true → 1 ≤ x.value → (advance phase f).value = x.value - (⌊x.value⌋ : ℚ)) ∧
    (x.isFinite = true → x.value < 0 → -1 < (advance phase f).value ∧ (advance phase f).value ≤ 0)) ∧
  advance Const.zero (Binary64.ofNat 950) = .fin false 1017 0x4444444444444#52 ∧
  advance (Binary64.ofRatio 3 4) (Binary64.ofNat 12000) = Binary64.zero false ∧
  advance Const.zero (Binary64.ofNat 72000) = Binary64.ofRatio 1 2 ∧
  advance (Binary64.ofRatio 1 4) (Binary64.ofNat 24000).neg = (Binary64.ofRatio 1 4).neg

/-- [derived] The envelope's endpoints (43_envelope.md R142): with the named assumptions `Pow(1, e) = 1` and
`Pow(0, e) = +0`, it is `A` at 0 for every amplitude, and zero at 1 for every finite amplitude and positive exponent. -/
def Obligations.EnvelopeEndpoints : Prop :=
  ∀ F : NumericConfig, PowOne F → PowZero F → ∀ A E : Binary64,
    env F Const.zero A E = A ∧
    (A.isFinite = true → Const.zero.lt E = true → (env F Const.one A E).ieeeEq Const.zero = true)

/-- [derived] The envelope decays (43_envelope.md R142): with `Pow` in [0, 1] and monotone in its base, it does not
increase over [0, 1) for a non-negative amplitude, and lies between 0 and the amplitude. -/
def Obligations.EnvelopeDecays : Prop :=
  ∀ F : NumericConfig, PowUnit F → PowMonotone F → ∀ A E t u : Binary64,
    A.isFinite = true → 0 ≤ A.units → Const.zero.lt E = true → t.inUnit = true → u.inUnit = true →
    t.units ≤ u.units →
    (env F u A E).units ≤ (env F t A E).units ∧ 0 ≤ (env F u A E).units ∧ (env F t A E).units ≤ A.units

/-! ### The voices -/

/-- 44_voices.md R164: SAW6F is the six sines, each followed by its bias, summed in this order from +0.0; where `Sin(+0)` is
+0 its value at +0 is the bias sum alone, 1.44 (95_test_vectors.md V-SAW-1: `0x1.70a3d70a3d70ap+0`). -/
def Obligations.SawIsSixBiasedSines : Prop :=
  ∀ (F : NumericConfig) (x : Binary64),
    (let part (s : Binary64) (k : Nat) (bias : Binary64) := (s.add (F.sin ((Binary64.ofNat k).mul x))).add bias
     saw6f F x =
      part (part (part (part (part (part (Binary64.zero false) 1 (Binary64.zero false))
        2 (Binary64.ofRatio 1 2)) 3 (Binary64.ofRatio 33 100)) 4 (Binary64.ofRatio 25 100))
        5 (Binary64.ofRatio 20 100)) 6 (Binary64.ofRatio 16 100)) ∧
    (F.sin Const.zero = Const.zero → saw6f F Const.zero = .fin false 1023 0x70a3d70a3d70a#52)

/-- [derived] The bass is silent on every beat (44_voices.md R152, corner cases, over the grid of 41_clock.md R123): with
`Pow(1, e) = 1` its gain is +0.0 there, so its output is a zero. -/
def Obligations.BassIsSilentOnTheBeat : Prop :=
  ∀ F : NumericConfig, PowOne F → TanhBounded F → SinBounded F → ∀ (n : Nat) (phase : Binary64),
    n < 2 ^ 53 → n % 24000 = 0 → phase.inUnit = true →
    bassGain F (clock n).beatFraction = Binary64.zero false ∧
    (bassOut F (clock n).beatFraction phase).ieeeEq Const.zero = true

/-- [derived] The zero property of the gate (44_voices.md R169): on a step whose pattern bit is 0 the dry chord is a zero,
so under Basic the whole chord is; under WithDelay the chord adds the wet tap to it. -/
def Obligations.GateZeroSilencesTheDryChord : Prop :=
  ∀ (F : NumericConfig) (t : MusicalTime) (s : State) (r : ChordResult),
    s.pat[t.step] = false → chordVoice F t true s = .ok r →
    ((chordTimbre F r.chordPhase).mul (env F t.sixteenthFraction Const.chordEnvAmp Const.three)).isFinite = true →
    (dryChordOf F t s.pat r.chordPhase).ieeeEq Const.zero = true ∧
    (s.variant = .basic → ∃ c, r.chordOut = some c ∧ c.ieeeEq Const.zero = true) ∧
    (s.variant = .withDelay → ∃ returned,
      delay (dryChordOf F t s.pat r.chordPhase) { cursor := s.delayWriteIndex, words := s.dly } =
        .ok (returned, r.line) ∧
      r.chordOut = some ((dryChordOf F t s.pat r.chordPhase).add (returned.mul (Binary64.ofRatio 4 10))))

/-! ### Invariants and whole-machine rules -/

/-- The state right after reset meets the invariants that the statements below keep. What its registers hold there is the
model's choice (log 4). -/
def Obligations.ResetMeetsTheInvariants : Prop :=
  State.reset.Wf ∧ State.reset.OnGrid ∧ State.reset.PhasesInUnit ∧ State.reset.DlyBounded

/-- Every step keeps the well-formedness of the state: canonical `DLY`, cursor and counter in range, `PAT` fixed, a Running
block constructed, exactly a Faulted block with a code, as many samples emitted as indexes consumed, CONT always 1. -/
def Obligations.StepKeepsWf : Prop :=
  ∀ s t : State, s.Wf → step s = .next t → t.Wf

/-- No step of a well-formed state stops the model: none of its faults and no refusal is reachable
(70_reset_and_hazards.md R230; 20_memory.md R51; 60_exceptions.md R202). -/
def Obligations.WellFormedStateAlwaysSteps : Prop :=
  ∀ s : State, s.Wf → ∃ t, step s = .next t

/-- [derived] Latch timing and the cursor (the inferences 44_voices.md R156 and 45_delay.md R181): at every step of a
constructed block the gate is on exactly past index 168 000, the cursor is (n − 168 000) mod 18 000 under WithDelay, and
before the latch the chord phases and `DLY` still hold their INIT values. -/
def Obligations.StepKeepsTheGrid : Prop :=
  ∀ s t : State, s.Wf → s.OnGrid → step s = .next t → t.OnGrid

/-- [derived] Phases stay in [0, 1) (10_state.md R26): the bass and chord phases in every step, and the kick's in every tick
whose `Pow` lies in [0, 1]. -/
def Obligations.PhasesStayInUnit : Prop :=
  (∀ s t : State, s.PhasesInUnit → step s = .next t → t.PhasesInUnit) ∧
  (∀ (F : NumericConfig) (s t : State) (v : Binary64), PowUnit F → s.kickPhase.inUnit = true →
    tickStep F s = .produced v t → t.kickPhase.inUnit = true)

/-- [derived] Bound and finiteness (the inferences 46_mixer.md R193 and R195): under a configuration with `|Sin| ≤ 1`,
`|Tanh| ≤ 1` and `Pow` in [0, 1], every tick's sample is finite and at most 4.5 in magnitude, and every word of `DLY`
stays so. -/
def Obligations.OutputIsBounded : Prop :=
  ∀ (F : NumericConfig) (s t : State) (v : Binary64), SinBounded F → TanhBounded F → PowUnit F →
    s.Wf → s.PhasesInUnit → s.kickPhase.inUnit = true → s.DlyBounded → tickStep F s = .produced v t →
    v.absLe outputBound = true ∧ t.DlyBounded

/-- 10_state.md R27: the gate flag is set false by INIT, set true by a tick and never set back: over every step of a
constructed block that stays constructed it can only go from false to true, and only a TICK or FILL moves it. -/
def Obligations.GateNeverReverts : Prop :=
  ∀ s t : State, s.Wf → step s = .next t →
    (s.datapathWritten = true → t.datapathWritten = true → s.chordGateEngaged = true → t.chordGateEngaged = true) ∧
    (s.datapathWritten = false → t.datapathWritten = true → t.chordGateEngaged = false) ∧
    (s.datapathWritten = true → t.datapathWritten = true → t.chordGateEngaged ≠ s.chordGateEngaged →
      ∃ w, s.hostIn.head? = some (.command w) ∧ (decode w = .ok .tick ∨ ∃ n, decode w = .ok (.fill n)))

/-- Samples are produced strictly in index order, none skipped, repeated or withdrawn (70_reset_and_hazards.md R235): every
step but power-on reset only appends to the stream, as many samples as the counter moves; INIT emits none. -/
def Obligations.SamplesAreOnlyAppended : Prop :=
  ∀ s t : State, s.Wf → s.hostIn.head? ≠ some .rst → step s = .next t →
    ∃ xs, t.sampleOut = s.sampleOut ++ xs ∧
      (s.datapathWritten = true → t.sampleCount.toNat = s.sampleCount.toNat + xs.length) ∧
      (s.datapathWritten = false → xs = [] ∧ (t.datapathWritten = true → t.sampleCount = 0#64))

/-- 10_state.md R31: only INIT writes `VARIANT`, from bit 23 of its word, and it is fixed from then until power-on reset,
which sets it to 0. -/
def Obligations.OnlyInitWritesVariant : Prop :=
  ∀ s t : State, step s = .next t →
    t.variant = s.variant ∨
    (s.hostIn.head? = some .rst ∧ t.variant = .basic) ∨
    (s.lifecycle = .unconstructed ∧ t.lifecycle = .running ∧
      ∃ w, s.hostIn.head? = some (.command w) ∧ (∃ v, decode w = .ok (.init v 48000)) ∧
        t.variant = if w.getLsbD 23 then .withDelay else .basic)

/-- Nothing writes `PAT` (20_memory.md R52), and a lookup at any step of the clock gives the bit that 10_state.md R30 lists. -/
def Obligations.NothingWritesThePattern : Prop :=
  (∀ s t : State, step s = .next t → t.pat = s.pat) ∧
  (∀ (s : State) (n : Nat), s.Wf → romRead s.pat (clock n).step = decide ((clock n).step.val ∈ [0, 3, 5, 10, 12]))

/-- 10_state.md R33: the status word's fields, with the reserved bits 0 and the encodings 11 and 6 to 15 never produced. -/
def Obligations.StatusWordLayout : Prop :=
  ∀ s : State,
    s.statusWord.toNat % 4 =
      (match s.lifecycle with | .unconstructed => 0 | .running => 1 | .faulted => 2) ∧
    s.statusWord.toNat / 4 % 2 = (match s.variant with | .basic => 0 | .withDelay => 1) ∧
    s.statusWord.toNat / 8 % 2 = 0 ∧
    s.statusWord.toNat / 16 % 16 =
      (match s.faultCode with
        | .none => 0 | .illegalCommand => 1 | .notConstructed => 2 | .alreadyConstructed => 3
        | .unsupportedSampleRate => 4 | .counterRange => 5) ∧
    s.statusWord.toNat / 256 = 0

/-- Under Basic the delay line is never accessed, so its contents do not matter (20_memory.md R53): a TICK or FILL from
another content and cursor gives the same state but for those, which it leaves as they are. -/
def Obligations.BasicIgnoresTheDelayLine : Prop :=
  ∀ (s t : State) (m : Memory) (c : BitVec 15) (i : Instr), (i = .tick ∨ ∃ n, i = .fill n) → s.variant = .basic →
    exec i s = .next t →
    exec i { s with dly := m, delayWriteIndex := c } = .next { t with dly := m, delayWriteIndex := c }

/-- [derived] Before the latch the variant does not matter (00_scope.md R2; 95_test_vectors.md V-MIX-8): a FILL that ends at
or before index 168 000 produces the same samples and the same state under either variant. -/
def Obligations.VariantsAgreeBeforeTheLatch : Prop :=
  ∀ (s t : State) (v : Variant) (n : Nat), s.chordGateEngaged = false → s.sampleCount.toNat + n ≤ 168000 →
    exec (.fill n) s = .next t → exec (.fill n) { s with variant := v } = .next { t with variant := v }

/-! ### The assembler -/

/-- 30_encoding.md R78: INIT with an `<sr>` below 2^20, TICK, and FILL with an `<n>` below 2^24 are accepted, each as its one
command and its one word; from 2^20 and 2^24 on they are refused. A line of blanks or of a
comment alone is accepted and is no command, which is the model's choice (log 13). What the assembler accepts of a text are command words,
each decoding to the command of its line. -/
def Obligations.AssembledWordsAreCommands : Prop :=
  (∀ v sr, (AsmLine.init v sr).commands = if sr < 2 ^ 20 then some [.init v sr] else none) ∧
  AsmLine.tick.commands = some [.tick] ∧
  (∀ n, (AsmLine.fill n).commands = if n < 2 ^ 24 then some [.fill n] else none) ∧
  AsmLine.blank.commands = some [] ∧
  (∀ sr, sr < 2 ^ 20 →
    encode (.init .basic sr) = 0x01000000#32 ||| BitVec.ofNat 32 sr ∧
    encode (.init .withDelay sr) = 0x01800000#32 ||| BitVec.ofNat 32 sr) ∧
  encode .tick = 0x02000000#32 ∧
  (∀ n, n < 2 ^ 24 → encode (.fill n) = 0x03000000#32 ||| BitVec.ofNat 32 n) ∧
  (∀ (text : List Char) (words : List Word), assemble text = some words →
    ∃ is, assembleLines (linesFrom [] text) = some is ∧ words = is.map encode ∧ words.map decode = is.map .ok)

/-- 30_encoding.md R79: `RUN <s>`, with `s` in thousandths of a second, is FILLs of `k = s × 48 000` samples in all: one
FILL when `k` fits, otherwise full FILLs and, when it is not 0, one FILL of the remainder. -/
def Obligations.RunExpandsToItsSamples : Prop :=
  (∀ thousandths : Nat, (AsmLine.run thousandths).commands = some (runFills (48 * thousandths))) ∧
  (∀ k : Nat,
    (k < 2 ^ 24 → runFills k = [.fill k]) ∧
    (2 ^ 24 ≤ k → ∃ full, runFills k = List.replicate full (.fill 16777215) ++
      (if k % 16777215 = 0 then [] else [.fill (k % 16777215)]) ∧ full * 16777215 + k % 16777215 = k) ∧
    (runFills k).foldl (fun total i => match i with | .fill n => total + n | _ => total) 0 = k ∧
    ∀ i ∈ runFills k, WellFormed i)

/-- The assembler's text (30_encoding.md R78, R79): integers in decimal and in hexadecimal after `0x`; the four lines, each
with its word; RUN with up to three fractional digits and no more; comments; one command per line. Where the blanks stand
and that hexadecimal digits may be of either case are the model's choice (log 13). -/
def Obligations.AssemblerReadsItsText : Prop :=
  (∀ ds : List (Fin 10), ds ≠ [] →
    readInteger (ds.map fun d => Nat.digitChar d.val) = some (digitsValue 10 (ds.map Fin.val))) ∧
  (∀ ds : List (Fin 16), ds ≠ [] →
    readInteger ('0' :: 'x' :: ds.map fun d => Nat.digitChar d.val) = some (digitsValue 16 (ds.map Fin.val)) ∧
    readInteger ('0' :: 'x' :: ds.map fun d => (Nat.digitChar d.val).toUpper) = some (digitsValue 16 (ds.map Fin.val))) ∧
  (∀ (text : List Char) (n : Nat), readInteger text = some n →
    assemble (['I', 'N', 'I', 'T', ' ', 'B', 'A', 'S', 'I', 'C', ',', ' '] ++ text) =
      (if n < 2 ^ 20 then some [0x01000000#32 ||| BitVec.ofNat 32 n] else none) ∧
    assemble (['I', 'N', 'I', 'T', ' ', 'W', 'I', 'T', 'H', 'D', 'E', 'L', 'A', 'Y', ',', ' '] ++ text) =
      (if n < 2 ^ 20 then some [0x01800000#32 ||| BitVec.ofNat 32 n] else none) ∧
    assemble (['F', 'I', 'L', 'L', ' '] ++ text) =
      (if n < 2 ^ 24 then some [0x03000000#32 ||| BitVec.ofNat 32 n] else none)) ∧
  assemble ['T', 'I', 'C', 'K'] = some [0x02000000#32] ∧
  (∀ ds fs : List (Fin 10), ds ≠ [] →
    let whole := ds.map fun d => Nat.digitChar d.val
    let fraction := fs.map fun d => Nat.digitChar d.val
    assemble (['R', 'U', 'N', ' '] ++ whole) =
      some ((runFills (48000 * digitsValue 10 (ds.map Fin.val))).map encode) ∧
    (fs ≠ [] → fs.length ≤ 3 → assemble (['R', 'U', 'N', ' '] ++ whole ++ '.' :: fraction) =
      some ((runFills (48 * (digitsValue 10 ((ds ++ fs).map Fin.val) * 10 ^ (3 - fs.length)))).map encode)) ∧
    (3 < fs.length → assemble (['R', 'U', 'N', ' '] ++ whole ++ '.' :: fraction) = none)) ∧
  (∀ line comment : List Char, parseLine (line ++ ';' :: comment) = parseLine line) ∧
  (∀ first rest : List Char,
    assemble (first ++ '\n' :: rest) = (assemble first).bind fun a => (assemble rest).map (a ++ ·))

/-! ### The clock's and the envelope's formulas -/

/-- [derived] CLOCK by its formulas at every index (41_clock.md R120); at index 0 every value is +0.0 and the step and the bar
0; below the limit the scalings by powers of two are exact, which the rule marks as its own inference. -/
def Obligations.ClockFollowsItsFormulas : Prop :=
  (∀ n : Nat,
    (clock n).seconds = (Binary64.ofNat n).div (Binary64.ofNat 48000) ∧
    (clock n).beats = (clock n).seconds.mul (Binary64.ofNat 2) ∧
    (clock n).beatFraction = (clock n).beats.sub (clock n).beats.floor ∧
    (clock n).bar = ((clock n).beats.div (Binary64.ofNat 4)).floor ∧
    (clock n).sixteenths = (clock n).beats.mul (Binary64.ofNat 4) ∧
    (clock n).sixteenthFraction = (clock n).sixteenths.sub (clock n).sixteenths.floor ∧
    (clock n).step.val = (clock n).sixteenths.floor.toNat % 16 ∧
    (clock n).barMod4 = (clock n).bar.toNat % 4) ∧
  (let z := Binary64.zero false
   clock 0 = { seconds := z, beats := z, beatFraction := z, bar := z, sixteenths := z, sixteenthFraction := z,
               step := 0, barMod4 := 0 }) ∧
  (∀ n : Nat, n < 2 ^ 53 →
    (clock n).beats.value = (clock n).seconds.value * 2 ∧
    ((clock n).beats.div (Binary64.ofNat 4)).value = (clock n).beats.value / 4 ∧
    (clock n).sixteenths.value = (clock n).beats.value * 4)

/-- [derived] ENV by its formula, `A * Pow(1.0 - t, E)` (43_envelope.md R140), with the rule's corner cases: `1.0 - t` lies in
(0, 1] for `t` in [0, 1) and does not round for `t` in [0.5, 1), which the rule gives from general knowledge; at 0 the
base is 1.0, and at 1 it is +0.0. -/
def Obligations.EnvelopeIsPowerDecay : Prop :=
  ∀ (F : NumericConfig) (t A E : Binary64),
    env F t A E = A.mul (F.pow ((Binary64.ofNat 1).sub t) E) ∧
    env F (Binary64.zero false) A E = A.mul (F.pow (Binary64.ofNat 1) E) ∧
    env F (Binary64.ofNat 1) A E = A.mul (F.pow (Binary64.zero false) E) ∧
    (t.inUnit = true →
      ((Binary64.ofNat 1).sub t).isFinite = true ∧ 0 < ((Binary64.ofNat 1).sub t).value ∧
      ((Binary64.ofNat 1).sub t).value ≤ 1) ∧
    (t.isFinite = true → 1 / 2 ≤ t.value → t.value < 1 → ((Binary64.ofNat 1).sub t).value = 1 - t.value)
end

