-- ==== Sys2Proof/Laws/Assembler.lean ====
section
/-! SUPPORT. The laws of the assembler's readers: digits, tokens and lines. -/

namespace Sys2Proof.Machine

/-- A character of a token: no blank, no comma, no comment sign, no line end. -/
def isPlain (c : Char) : Bool := c ≠ ' ' && c ≠ '\t' && c ≠ '\r' && c ≠ ',' && c ≠ ';' && c ≠ '\n'

/-! ### Digits -/

/-- Digits written out and read again give the number they spell. -/
theorem readDigits_map {α : Type} {digit : Char → Option Nat} {base : Nat} {text : α → Char} {value : α → Nat}
    (h : ∀ d, digit (text d) = some (value d)) (ds : List α) (acc : Nat) :
    readDigits digit base acc (ds.map text) = some ((ds.map value).foldl (fun n d => n * base + d) acc) := by
  induction ds generalizing acc with
  | nil => rfl
  | cons d ds ih => simp [readDigits, h, ih]

theorem decimalDigit_digitChar : ∀ d : Fin 10, decimalDigit (Nat.digitChar d.val) = some d.val := by decide
theorem hexDigit_digitChar : ∀ d : Fin 16, hexDigit (Nat.digitChar d.val) = some d.val := by decide
theorem hexDigit_toUpper : ∀ d : Fin 16, hexDigit (Nat.digitChar d.val).toUpper = some d.val := by decide
theorem digitChar_plain : ∀ d : Fin 10, isPlain (Nat.digitChar d.val) = true ∧ Nat.digitChar d.val ≠ '.' := by decide

/-- A character whose number is none of those of the blanks, the comma, the comment sign and the line end. -/
theorem isPlain_of_toNat {c : Char} (h : c.toNat ∉ [32, 9, 13, 44, 59, 10]) : isPlain c = true := by
  simp only [isPlain, Bool.and_eq_true, decide_eq_true_eq]
  refine ⟨⟨⟨⟨⟨?_, ?_⟩, ?_⟩, ?_⟩, ?_⟩, ?_⟩ <;> rintro rfl <;> exact absurd (by decide) h

theorem hexDigit_plain {c : Char} {d : Nat} (h : hexDigit c = some d) : isPlain c = true := by
  refine isPlain_of_toNat fun hc => ?_
  unfold hexDigit decimalDigit at h
  simp only [List.mem_cons, List.not_mem_nil, or_false] at hc
  split at h
  · omega
  · split at h
    · omega
    · split at h
      · omega
      · cases h

theorem decimalDigit_plain {c : Char} {d : Nat} (h : decimalDigit c = some d) : isPlain c = true := by
  refine isPlain_of_toNat fun hc => ?_
  unfold decimalDigit at h
  simp only [List.mem_cons, List.not_mem_nil, or_false] at hc
  split at h
  · omega
  · cases h

/-- A text read as digits holds no character that ends a token. -/
theorem readDigits_plain {digit : Char → Option Nat} {base : Nat}
    (hd : ∀ {c : Char} {d : Nat}, digit c = some d → isPlain c = true) {text : List Char} {acc n : Nat}
    (h : readDigits digit base acc text = some n) : ∀ c ∈ text, isPlain c = true := by
  induction text generalizing acc with
  | nil => simp
  | cons c cs ih =>
    unfold readDigits at h
    split at h
    · rename_i d hc
      exact List.forall_mem_cons.2 ⟨hd hc, ih h⟩
    · cases h

theorem readInteger_plain {text : List Char} {n : Nat} (h : readInteger text = some n) :
    text ≠ [] ∧ ∀ c ∈ text, isPlain c = true := by
  unfold readInteger at h
  split at h
  · cases h
  · cases h
  · exact ⟨by simp, List.forall_mem_cons.2 ⟨by decide, List.forall_mem_cons.2 ⟨by decide, readDigits_plain hexDigit_plain h⟩⟩⟩
  · exact ⟨‹_›, readDigits_plain decimalDigit_plain h⟩

/-! ### Tokens and lines -/

/-- Plain characters go on with the token being read. -/
theorem tokensFrom_plain {text : List Char} (h : ∀ c ∈ text, isPlain c = true) (word : List Char) :
    tokensFrom word text = if word ++ text = [] then [] else [word ++ text] := by
  induction text generalizing word with
  | nil => simp [tokensFrom]
  | cons c cs ih =>
    obtain ⟨hc, hcs⟩ := List.forall_mem_cons.1 h
    simp only [isPlain, Bool.and_eq_true, decide_eq_true_eq] at hc
    rw [tokensFrom, if_neg (by tauto), if_neg (by tauto), ih hcs]
    simp

/-- Plain characters hold no comment. -/
theorem takeWhile_plain {text : List Char} (h : ∀ c ∈ text, isPlain c = true) : text.takeWhile (· ≠ ';') = text := by
  refine List.takeWhile_eq_self_iff.2 fun c hc => ?_
  have := h c hc
  simp only [isPlain, Bool.and_eq_true, decide_eq_true_eq] at this
  simpa using this.1.2

/-- A line end closes a line and begins the next. -/
theorem linesFrom_append (line first rest : List Char) :
    linesFrom line (first ++ '\n' :: rest) = linesFrom line first ++ linesFrom [] rest := by
  induction first generalizing line with
  | nil => simp [linesFrom]
  | cons c cs ih => simp only [List.cons_append, linesFrom]; split <;> simp [ih]

/-- A text without a line end is one line. -/
theorem linesFrom_of_notMem {text : List Char} (h : '\n' ∉ text) (line : List Char) :
    linesFrom line text = [line ++ text] := by
  induction text generalizing line with
  | nil => simp [linesFrom]
  | cons c cs ih =>
    obtain ⟨hc, hcs⟩ := not_or.1 (mt List.mem_cons.2 h)
    rw [linesFrom, if_neg (Ne.symm hc), ih hcs]
    simp

end Sys2Proof.Machine
end

