-- ==== Sys2Proof/Laws/Memory.lean ====
section
/-! SUPPORT. The laws of `DLY`: a load after a store, the canonical form kept, and equal contents are equal data. -/

namespace Sys2Proof.Machine

variable {m : Memory} {a b lo : Nat} {v : Binary64}

theorem wfFrom_cons {k : Nat} {w : Binary64} :
    Memory.wfFrom lo ((k, w) :: m) = true ↔
      lo ≤ k ∧ k < Const.delayLen ∧ w ≠ Const.zero ∧ Memory.wfFrom (k + 1) m = true := by
  simp [Memory.wfFrom, and_assoc]

/-- A lower start asks for less. -/
theorem wfFrom_mono (h : Memory.wfFrom lo m = true) (hb : b ≤ lo) : Memory.wfFrom b m = true := by
  cases m with
  | nil => rfl
  | cons c m => obtain ⟨k, w⟩ := c; rw [wfFrom_cons] at h ⊢; exact ⟨hb.trans h.1, h.2⟩

/-- Below the first address nothing is listed. -/
theorem load_below (h : Memory.wfFrom lo m = true) (ha : a < lo) : m.load a = Const.zero := by
  induction m generalizing lo with
  | nil => rfl
  | cons c m ih =>
    obtain ⟨k, w⟩ := c
    obtain ⟨h1, -, -, h4⟩ := wfFrom_cons.1 h
    rw [Memory.load, if_neg (by omega)]
    exact ih h4 (by omega)

/-- Storing keeps the canonical form. -/
theorem store_wfFrom (h : Memory.wfFrom lo m = true) (ha : lo ≤ a) (hL : a < Const.delayLen) :
    Memory.wfFrom lo (m.store a v) = true := by
  induction m generalizing lo with
  | nil =>
    rw [Memory.store]
    split
    · rfl
    · exact wfFrom_cons.2 ⟨ha, hL, ‹_›, rfl⟩
  | cons c m ih =>
    obtain ⟨k, w⟩ := c
    obtain ⟨h1, h2, h3, h4⟩ := wfFrom_cons.1 h
    rw [Memory.store]
    split
    · split
      · exact h
      · exact wfFrom_cons.2 ⟨ha, hL, ‹_›, wfFrom_cons.2 ⟨by omega, h2, h3, h4⟩⟩
    · split
      · split
        · exact wfFrom_mono h4 (by omega)
        · exact wfFrom_cons.2 ⟨ha, hL, ‹_›, by subst_vars; exact h4⟩
      · exact wfFrom_cons.2 ⟨h1, h2, h3, ih h4 (by omega)⟩

theorem store_wf (h : m.wf = true) (hL : a < Const.delayLen) : (m.store a v).wf = true :=
  store_wfFrom h (Nat.zero_le a) hL

/-- A load after a store to the same address gives the word stored. -/
theorem load_store_same (h : Memory.wfFrom lo m = true) : (m.store a v).load a = v := by
  induction m generalizing lo with
  | nil => rw [Memory.store]; split <;> simp_all [Memory.load]
  | cons c m ih =>
    obtain ⟨k, w⟩ := c
    obtain ⟨h1, h2, h3, h4⟩ := wfFrom_cons.1 h
    rw [Memory.store]
    split
    · split
      · rw [Memory.load, if_neg (by omega), load_below h4 (by omega)]; exact Eq.symm ‹_›
      · simp [Memory.load]
    · split
      · split
        · rw [load_below h4 (by omega)]; exact Eq.symm ‹_›
        · simp [Memory.load]
      · rw [Memory.load, if_neg (by omega)]; exact ih h4

/-- A store leaves every other word alone. -/
theorem load_store_other (hab : b ≠ a) : (m.store a v).load b = m.load b := by
  induction m with
  | nil => rw [Memory.store]; split <;> simp [Memory.load, hab.symm]
  | cons c m ih =>
    obtain ⟨k, w⟩ := c
    rw [Memory.store]
    split
    · split <;> simp [Memory.load, hab.symm]
    · split
      · subst_vars; split <;> simp [Memory.load, hab.symm]
      · simp [Memory.load, ih]

/-- Equal contents are equal data: the canonical form is one. -/
theorem wfFrom_ext {m' : Memory} (h : Memory.wfFrom lo m = true) (h' : Memory.wfFrom lo m' = true)
    (hl : ∀ a, m.load a = m'.load a) : m = m' := by
  induction m generalizing lo m' with
  | nil =>
    cases m' with
    | nil => rfl
    | cons c m' =>
      obtain ⟨k, w⟩ := c
      have := hl k
      simp only [Memory.load, if_pos] at this
      exact absurd this.symm (wfFrom_cons.1 h').2.2.1
  | cons c m ih =>
    obtain ⟨k, w⟩ := c
    obtain ⟨h1, h2, h3, h4⟩ := wfFrom_cons.1 h
    cases m' with
    | nil => have := hl k; simp only [Memory.load, if_pos] at this; exact absurd this h3
    | cons c' m' =>
      obtain ⟨k', w'⟩ := c'
      obtain ⟨h1', h2', h3', h4'⟩ := wfFrom_cons.1 h'
      have hk : k = k' := by
        rcases Nat.lt_trichotomy k k' with hlt | heq | hgt
        · have := hl k
          rw [Memory.load, if_pos rfl, Memory.load, if_neg (by omega), load_below h4' (by omega)] at this
          exact absurd this h3
        · exact heq
        · have := hl k'
          rw [Memory.load, if_neg (by omega), load_below h4 (by omega), Memory.load, if_pos rfl] at this
          exact absurd this.symm h3'
      subst hk
      have hw : w = w' := by have := hl k; simpa [Memory.load] using this
      subst hw
      rw [ih h4 h4' fun a => ?_]
      by_cases ha : a = k
      · subst ha; rw [load_below h4 (by omega), load_below h4' (by omega)]
      · have := hl a
        rwa [Memory.load, if_neg (by omega), Memory.load, if_neg (by omega)] at this

/-- The memory right after reset is in canonical form. -/
theorem reset_dly_wf : State.reset.dly.wf = true := rfl

@[simp] theorem memRead_eq_ok {x : Binary64} :
    memRead m a = .ok x ↔ a < Const.delayLen ∧ x = m.load a := by
  unfold memRead; split <;> simp_all [eq_comm]

@[simp] theorem memWrite_eq_ok {m' : Memory} :
    memWrite m a v = .ok m' ↔ a < Const.delayLen ∧ m' = m.store a v := by
  unfold memWrite; split <;> simp_all [eq_comm]

end Sys2Proof.Machine
end

