-- ==== Sys2Proof/Laws/PerInstr.lean ====
section
/-! SUPPORT. Families of statements about every command as syntax, one lemma per constructor of Instr. -/

namespace Sys2Proof.Laws

/-- The mask of a command's row of spec/opcode_table.json. -/
def rowMask : Instr → Word
  | .init _ _ => 0xFF700000#32
  | .tick     => 0xFFFFFFFF#32
  | .fill _   => 0xFF000000#32

/-- The match value of a command's row of spec/opcode_table.json. -/
def rowMatch : Instr → Word
  | .init _ _ => 0x01000000#32
  | .tick     => 0x02000000#32
  | .fill _   => 0x03000000#32

/-- A command's word matches its row of the opcode table, whatever its operands. -/
def OpcodeRow.Statement (i : Instr) : Prop := encode i &&& rowMask i = rowMatch i

theorem OpcodeRow.init (v : Variant) (sr : Nat) : OpcodeRow.Statement (.init v sr) := by
  apply BitVec.eq_of_getLsbD_eq
  intro j hj
  cases v <;> interval_cases j <;>
    simp [encode, rowMask, rowMatch]

theorem OpcodeRow.tick : OpcodeRow.Statement .tick := by rfl

theorem OpcodeRow.fill (n : Nat) : OpcodeRow.Statement (.fill n) := by
  apply BitVec.eq_of_getLsbD_eq
  intro j hj
  interval_cases j <;> simp [encode, rowMask, rowMatch]

end Sys2Proof.Laws
end

