-- ==== Sys2Proof/Laws/Rounding.lean ====
section
/-! SUPPORT. Rounding once, said once: magnitude codes are ordered as the magnitudes they stand for, and `roundCode` picks
the code nearest to an exact ratio. The four operations, the conversions and the literals all go through it. -/

namespace Sys2Proof

/-- The magnitude, in units, that a code stands for. -/
def codeMag (c : Nat) : Nat :=
  if c / 2 ^ 52 = 0 then c % 2 ^ 52 else (2 ^ 52 + c % 2 ^ 52) * 2 ^ (c / 2 ^ 52 - 1)

/-- A significand `m` (up to and including the carry) at a scale `k`. -/
theorem codeMag_scaled {k m : Nat} (hm : m ≤ 2 ^ 53) (hk : k = 0 ∨ 2 ^ 52 ≤ m) :
    codeMag (k * 2 ^ 52 + m) = m * 2 ^ k := by
  unfold codeMag
  by_cases h1 : m < 2 ^ 52
  · obtain rfl : k = 0 := by omega
    rw [if_pos (by omega)]; omega
  · by_cases h2 : m = 2 ^ 53
    · subst h2
      have e1 : (k * 2 ^ 52 + 2 ^ 53) / 2 ^ 52 = k + 2 := by omega
      have e2 : (k * 2 ^ 52 + 2 ^ 53) % 2 ^ 52 = 0 := by omega
      rw [e1, e2, if_neg (by omega), show k + 2 - 1 = k + 1 by omega, pow_succ]
      ring
    · have e1 : (k * 2 ^ 52 + m) / 2 ^ 52 = k + 1 := by omega
      have e2 : (k * 2 ^ 52 + m) % 2 ^ 52 = m - 2 ^ 52 := by omega
      rw [e1, e2, if_neg (by omega), show k + 1 - 1 = k by omega, show 2 ^ 52 + (m - 2 ^ 52) = m by omega]

/-- Every code is a significand at a scale. -/
theorem code_scaled (c : Nat) : ∃ k m, c = k * 2 ^ 52 + m ∧ m < 2 ^ 53 ∧ (k = 0 ∨ 2 ^ 52 ≤ m) := by
  by_cases h : c < 2 ^ 52
  · exact ⟨0, c, by omega, by omega, .inl rfl⟩
  · exact ⟨c / 2 ^ 52 - 1, c % 2 ^ 52 + 2 ^ 52, by omega, by omega, .inr (by omega)⟩

theorem codeMag_lt_succ (c : Nat) : codeMag c < codeMag (c + 1) := by
  obtain ⟨k, m, rfl, hm, hk⟩ := code_scaled c
  rw [add_assoc, codeMag_scaled hm.le hk, codeMag_scaled (by omega) (by omega)]
  exact Nat.mul_lt_mul_of_pos_right (by omega) (by positivity)

/-- Codes are ordered as their magnitudes. -/
theorem codeMag_strictMono : StrictMono codeMag := strictMono_nat_of_lt_succ codeMag_lt_succ

theorem codeMag_le_iff {c c' : Nat} : codeMag c ≤ codeMag c' ↔ c ≤ c' := codeMag_strictMono.le_iff_le

theorem codeMag_lt_iff {c c' : Nat} : codeMag c < codeMag c' ↔ c < c' := codeMag_strictMono.lt_iff_lt

/-- Rounding to the nearest integer: the error is at most half, and a tie goes to the even neighbour. -/
theorem divNearestEven_spec {a d : Nat} (hd : 0 < d) :
    2 * a ≤ 2 * (divNearestEven a d * d) + d ∧ 2 * (divNearestEven a d * d) ≤ 2 * a + d ∧
    ((2 * a = 2 * (divNearestEven a d * d) + d ∨ 2 * (divNearestEven a d * d) = 2 * a + d) →
      divNearestEven a d % 2 = 0) ∧
    a / d ≤ divNearestEven a d ∧ divNearestEven a d ≤ a / d + 1 := by
  have h1 := Nat.div_add_mod a d
  have h2 := Nat.mod_lt a hd
  rw [mul_comm] at h1
  unfold divNearestEven
  split
  · refine ⟨by omega, by omega, fun h => by omega, le_rfl, by omega⟩
  · split
    · have : (a / d + 1) * d = a / d * d + d := by ring
      refine ⟨by omega, by omega, fun h => by omega, by omega, le_rfl⟩
    · have h3 : (a / d + a / d % 2) * d = a / d * d + a / d % 2 * d := by ring
      rcases Nat.mod_two_eq_zero_or_one (a / d) with h | h <;> rw [h] at h3 ⊢ <;>
        refine ⟨by omega, by omega, fun _ => by omega, by omega, by omega⟩

/-- The significand that rounding divides out: 53 bits, and a full 53 unless at the least scale. -/
theorem roundShift_spec (t : Nat) :
    t / 2 ^ roundShift t < 2 ^ 53 ∧ (roundShift t = 0 ∨ 2 ^ 52 ≤ t / 2 ^ roundShift t) := by
  unfold roundShift
  rcases Nat.eq_zero_or_pos t with rfl | ht
  · simp
  · have hlo : 2 ^ Nat.log2 t ≤ t := Nat.log2_self_le (by omega)
    have hhi : t < 2 ^ (Nat.log2 t + 1) := Nat.lt_log2_self
    by_cases h : Nat.log2 t ≤ 52
    · rw [Nat.sub_eq_zero_of_le h]
      refine ⟨?_, .inl rfl⟩
      rw [pow_zero, Nat.div_one]
      exact hhi.trans_le (Nat.pow_le_pow_right (by omega) (by omega))
    · refine ⟨?_, .inr ?_⟩
      · rw [Nat.div_lt_iff_lt_mul (by positivity), ← pow_add]
        convert hhi using 2; omega
      · rw [Nat.le_div_iff_mul_le (by positivity), ← pow_add]
        convert hlo using 2; omega

/-- What `roundCode` returns: the significand nearest to the exact ratio at the ratio's own scale, ties to even. -/
theorem roundCode_spec {a b : Nat} (hb : 0 < b) :
    ∃ k m, roundCode a b = k * 2 ^ 52 + m ∧ m ≤ 2 ^ 53 ∧ (k = 0 ∨ 2 ^ 52 ≤ m) ∧
      k = roundShift (a / b) ∧
      codeMag (roundCode a b) = m * 2 ^ k ∧
      2 * a ≤ 2 * (m * (b * 2 ^ k)) + b * 2 ^ k ∧ 2 * (m * (b * 2 ^ k)) ≤ 2 * a + b * 2 ^ k ∧
      ((2 * a = 2 * (m * (b * 2 ^ k)) + b * 2 ^ k ∨ 2 * (m * (b * 2 ^ k)) = 2 * a + b * 2 ^ k) → m % 2 = 0) ∧
      (k ≠ 0 → m = 2 ^ 52 → m * (b * 2 ^ k) ≤ a) := by
  have hd : 0 < b * 2 ^ roundShift (a / b) := by positivity
  obtain ⟨h1, h2, h3, h4, h5⟩ := divNearestEven_spec (a := a) hd
  obtain ⟨h6, h7⟩ := roundShift_spec (a / b)
  rw [Nat.div_div_eq_div_mul] at h6 h7
  have hk : roundShift (a / b) = 0 ∨ 2 ^ 52 ≤ divNearestEven a (b * 2 ^ roundShift (a / b)) := by omega
  refine ⟨roundShift (a / b), divNearestEven a (b * 2 ^ roundShift (a / b)), rfl, by omega, hk, rfl,
    codeMag_scaled (by omega) hk, h1, h2, h3, fun h0 hm => ?_⟩
  have : divNearestEven a (b * 2 ^ roundShift (a / b)) = a / (b * 2 ^ roundShift (a / b)) := by omega
  rw [this]
  exact Nat.div_mul_le_self _ _

/-- A representable upper bound of the exact ratio bounds the rounded one. -/
theorem roundCode_le {a b c : Nat} (hb : 0 < b) (h : a ≤ codeMag c * b) : roundCode a b ≤ c := by
  obtain ⟨k, m, hR, hm, hk, -, hmag, h1, h2, -, h4⟩ := roundCode_spec (a := a) hb
  by_contra hc
  have hpos : 0 < b * 2 ^ k := by positivity
  have hle : codeMag c ≤ codeMag (roundCode a b - 1) := codeMag_le_iff.2 (by omega)
  have ha : a ≤ codeMag (roundCode a b - 1) * b := h.trans (Nat.mul_le_mul_right b hle)
  rcases Nat.eq_zero_or_pos m with rfl | hmp
  · rcases hk with rfl | hk
    · omega
    · omega
  · by_cases hedge : k ≠ 0 ∧ m = 2 ^ 52
    · obtain ⟨hk0, hm52⟩ := hedge
      have e : roundCode a b - 1 = (k - 1) * 2 ^ 52 + (2 ^ 53 - 1) := by
        obtain ⟨j, rfl⟩ : ∃ j, k = j + 1 := ⟨k - 1, by omega⟩
        rw [hR, hm52]; simp only [Nat.add_sub_cancel]; ring_nf; omega
      rw [e, codeMag_scaled (by omega) (.inr (by omega))] at ha
      have h5 := h4 hk0 hm52
      obtain ⟨j, rfl⟩ : ∃ j, k = j + 1 := ⟨k - 1, by omega⟩
      rw [hm52] at h5
      simp only [Nat.add_sub_cancel] at ha
      have hj : 0 < 2 ^ j * b := by positivity
      have e2 : 2 ^ 52 * (b * 2 ^ (j + 1)) = 2 ^ 53 * (2 ^ j * b) := by rw [pow_succ 2 j]; ring
      have e3 : (2 ^ 53 - 1) * 2 ^ j * b = (2 ^ 53 - 1) * (2 ^ j * b) := by ring
      rw [e2] at h5; rw [e3] at ha
      omega
    · have e : roundCode a b - 1 = k * 2 ^ 52 + (m - 1) := by omega
      rw [e, codeMag_scaled (by omega) (by omega)] at ha
      obtain ⟨j, rfl⟩ : ∃ j, m = j + 1 := ⟨m - 1, by omega⟩
      have e2 : (j + 1) * (b * 2 ^ k) = j * (b * 2 ^ k) + b * 2 ^ k := by ring
      have e3 : (j + 1 - 1) * 2 ^ k * b = j * (b * 2 ^ k) := by rw [Nat.add_sub_cancel]; ring
      rw [e2] at h2; rw [e3] at ha
      omega

/-- A representable lower bound of the exact ratio bounds the rounded one. -/
theorem le_roundCode {a b c : Nat} (hb : 0 < b) (h : codeMag c * b ≤ a) : c ≤ roundCode a b := by
  obtain ⟨k, m, hR, hm, hk, -, hmag, h1, h2, -, -⟩ := roundCode_spec (a := a) hb
  by_contra hc
  have hpos : 0 < b * 2 ^ k := by positivity
  have hle : codeMag (roundCode a b + 1) ≤ codeMag c := codeMag_le_iff.2 (by omega)
  have hnext : (m + 1) * 2 ^ k ≤ codeMag (roundCode a b + 1) := by
    by_cases hm53 : m = 2 ^ 53
    · have e : roundCode a b + 1 = (k + 1) * 2 ^ 52 + (2 ^ 52 + 1) := by rw [hR, hm53]; ring
      rw [e, codeMag_scaled (by omega) (.inr (by omega)), hm53, pow_succ 2 k]
      have hk2 : 0 < 2 ^ k := by positivity
      generalize 2 ^ k = q at *
      omega
    · rw [hR, add_assoc, codeMag_scaled (by omega) (by omega)]
  have ha : (m + 1) * 2 ^ k * b ≤ a := (Nat.mul_le_mul_right b (hnext.trans hle)).trans h
  have e : (m + 1) * 2 ^ k * b = m * (b * 2 ^ k) + b * 2 ^ k := by ring
  omega

/-- A representable ratio is returned as it is. -/
theorem roundCode_exact {b c : Nat} (hb : 0 < b) : roundCode (codeMag c * b) b = c :=
  le_antisymm (roundCode_le hb le_rfl) (le_roundCode hb le_rfl)

/-- The rounding error is at most half a last place. -/
theorem roundCode_error {a b : Nat} (hb : 0 < b) :
    2 * a ≤ 2 * (codeMag (roundCode a b) * b) + b * 2 ^ roundShift (a / b) ∧
    2 * (codeMag (roundCode a b) * b) ≤ 2 * a + b * 2 ^ roundShift (a / b) := by
  obtain ⟨k, m, -, -, -, rfl, hmag, h1, h2, -, -⟩ := roundCode_spec (a := a) hb
  rw [hmag, show m * 2 ^ roundShift (a / b) * b = m * (b * 2 ^ roundShift (a / b)) by ring]
  exact ⟨h1, h2⟩

/-- The gap above the rounded code is at least the last place that was rounded to. -/
theorem codeMag_succ_ge {k m : Nat} (hm : m ≤ 2 ^ 53) (hk : k = 0 ∨ 2 ^ 52 ≤ m) :
    (m + 1) * 2 ^ k ≤ codeMag (k * 2 ^ 52 + m + 1) := by
  by_cases hm53 : m = 2 ^ 53
  · have e : k * 2 ^ 52 + m + 1 = (k + 1) * 2 ^ 52 + (2 ^ 52 + 1) := by rw [hm53]; ring
    rw [e, codeMag_scaled (by omega) (.inr (by omega)), hm53, pow_succ 2 k]
    have hk2 : 0 < 2 ^ k := by positivity
    generalize 2 ^ k = q at *
    omega
  · rw [add_assoc, codeMag_scaled (by omega) (by omega)]

/-- The exact ratio is at most halfway to the next code, and there only from an even code. -/
theorem roundCode_mid_hi {a b : Nat} (hb : 0 < b) :
    2 * a ≤ (codeMag (roundCode a b) + codeMag (roundCode a b + 1)) * b ∧
    (2 * a = (codeMag (roundCode a b) + codeMag (roundCode a b + 1)) * b → roundCode a b % 2 = 0) := by
  obtain ⟨k, m, hR, hm, hk, -, hmag, h1, h2, h3, -⟩ := roundCode_spec (a := a) hb
  have hpos : 0 < b * 2 ^ k := by positivity
  have hn := Nat.mul_le_mul_right b (codeMag_succ_ge hm hk)
  rw [← hR] at hn
  have e1 : (m + 1) * 2 ^ k * b = m * (b * 2 ^ k) + b * 2 ^ k := by ring
  have e2 : (codeMag (roundCode a b) + codeMag (roundCode a b + 1)) * b =
      m * (b * 2 ^ k) + codeMag (roundCode a b + 1) * b := by rw [hmag]; ring
  rw [e1] at hn
  rw [e2]
  refine ⟨by omega, fun h => ?_⟩
  have := h3 (.inl (by omega))
  omega

/-- The exact ratio is at least halfway up from the previous code, and there only for an even code. -/
theorem roundCode_mid_lo {a b : Nat} (hb : 0 < b) (hpos : 0 < roundCode a b) :
    (codeMag (roundCode a b - 1) + codeMag (roundCode a b)) * b ≤ 2 * a ∧
    (2 * a = (codeMag (roundCode a b - 1) + codeMag (roundCode a b)) * b → roundCode a b % 2 = 0) := by
  obtain ⟨k, m, hR, hm, hk, -, hmag, h1, h2, h3, h4⟩ := roundCode_spec (a := a) hb
  have hd : 0 < b * 2 ^ k := by positivity
  have e2 : (codeMag (roundCode a b - 1) + codeMag (roundCode a b)) * b =
      codeMag (roundCode a b - 1) * b + m * (b * 2 ^ k) := by rw [hmag]; ring
  rw [e2]
  by_cases hedge : k ≠ 0 ∧ m = 2 ^ 52
  · obtain ⟨hk0, hm52⟩ := hedge
    have hlt := codeMag_lt_iff.2 (show roundCode a b - 1 < roundCode a b by omega)
    have hlt' := Nat.mul_lt_mul_of_pos_right hlt hb
    rw [hmag, show m * 2 ^ k * b = m * (b * 2 ^ k) by ring] at hlt'
    have := h4 hk0 hm52
    refine ⟨by omega, fun h => by omega⟩
  · have hm1 : 0 < m := by omega
    have e : roundCode a b - 1 = k * 2 ^ 52 + (m - 1) := by omega
    rw [e, codeMag_scaled (by omega) (by omega)]
    obtain ⟨j, rfl⟩ : ∃ j, m = j + 1 := ⟨m - 1, by omega⟩
    have e3 : (j + 1) * (b * 2 ^ k) = j * (b * 2 ^ k) + b * 2 ^ k := by ring
    have e4 : (j + 1 - 1) * 2 ^ k * b = j * (b * 2 ^ k) := by rw [Nat.add_sub_cancel]; ring
    rw [e3] at h1 h2 h3 ⊢
    rw [e4]
    refine ⟨by omega, fun h => ?_⟩
    have := h3 (.inr (by omega))
    omega

/-- Rounding keeps order. -/
theorem roundCode_mono {a a' b : Nat} (hb : 0 < b) (h : a ≤ a') : roundCode a b ≤ roundCode a' b := by
  by_contra hc
  obtain ⟨l1, l2⟩ := roundCode_mid_lo (a := a) hb (by omega)
  obtain ⟨u1, u2⟩ := roundCode_mid_hi (a := a') hb
  have m1 : codeMag (roundCode a' b) ≤ codeMag (roundCode a b - 1) := codeMag_le_iff.2 (by omega)
  have m2 : codeMag (roundCode a' b + 1) ≤ codeMag (roundCode a b) := codeMag_le_iff.2 (by omega)
  have m3 := Nat.mul_le_mul_right b (Nat.add_le_add m1 m2)
  have e1 := l2 (by omega)
  have e2 := u2 (by omega)
  have hne : codeMag (roundCode a' b) = codeMag (roundCode a b - 1) := by
    by_contra hne
    have := Nat.mul_lt_mul_of_pos_right
      (Nat.add_lt_add_of_lt_of_le (lt_of_le_of_ne m1 hne) m2) hb
    omega
  have := codeMag_strictMono.injective hne
  omega

/-- Nothing at or below the lower neighbour is nearer to `a` than `r`, where `a` is past their middle. -/
theorem nearest_of_le_lower {a lower r c : Nat} (h1 : lower + r ≤ 2 * a) (h2 : c ≤ lower) (h3 : lower < r) :
    |(r : ℤ) - a| ≤ |(c : ℤ) - a| ∧ (|(r : ℤ) - a| = |(c : ℤ) - a| → 2 * a = lower + r) := by
  have hc : |(c : ℤ) - a| = a - c := by rw [abs_of_nonpos] <;> omega
  rw [hc]
  refine ⟨abs_le.2 ⟨by omega, by omega⟩, fun e => ?_⟩
  rcases abs_cases ((r : ℤ) - a) with ⟨h, -⟩ | ⟨h, -⟩ <;> omega

/-- Nothing at or above the upper neighbour is nearer to `a` than `r`, where `a` is not past their middle. -/
theorem nearest_of_upper_le {a r upper c : Nat} (h1 : 2 * a ≤ r + upper) (h2 : upper ≤ c) (h3 : r < upper) :
    |(r : ℤ) - a| ≤ |(c : ℤ) - a| ∧ (|(r : ℤ) - a| = |(c : ℤ) - a| → 2 * a = r + upper) := by
  have hc : |(c : ℤ) - a| = c - a := by rw [abs_of_nonneg]; omega
  rw [hc]
  refine ⟨abs_le.2 ⟨by omega, by omega⟩, fun e => ?_⟩
  rcases abs_cases ((r : ℤ) - a) with ⟨h, -⟩ | ⟨h, -⟩ <;> omega

/-- No code stands for a magnitude nearer to the exact ratio than the rounded one, and where another is as near the rounded
one is even. -/
theorem roundCode_nearest {a b : Nat} (hb : 0 < b) (c : Nat) :
    |((codeMag (roundCode a b) * b : ℕ) : ℤ) - a| ≤ |((codeMag c * b : ℕ) : ℤ) - a| ∧
    (|((codeMag (roundCode a b) * b : ℕ) : ℤ) - a| = |((codeMag c * b : ℕ) : ℤ) - a| → c ≠ roundCode a b →
      roundCode a b % 2 = 0) := by
  obtain ⟨u1, u2⟩ := roundCode_mid_hi (a := a) hb
  rw [add_mul] at u1 u2
  rcases Nat.lt_trichotomy c (roundCode a b) with h | rfl | h
  · obtain ⟨l1, l2⟩ := roundCode_mid_lo (a := a) hb (by omega)
    rw [add_mul] at l1 l2
    obtain ⟨n1, n2⟩ := nearest_of_le_lower l1 (Nat.mul_le_mul_right b (codeMag_le_iff.2 (Nat.le_sub_one_of_lt h)))
      (Nat.mul_lt_mul_of_pos_right (codeMag_lt_iff.2 (by omega)) hb)
    exact ⟨n1, fun e _ => l2 (n2 e)⟩
  · exact ⟨le_rfl, fun _ h => absurd rfl h⟩
  · obtain ⟨n1, n2⟩ := nearest_of_upper_le u1 (Nat.mul_le_mul_right b (codeMag_le_iff.2 h))
      (Nat.mul_lt_mul_of_pos_right (codeMag_lt_iff.2 (Nat.lt_succ_self _)) hb)
    exact ⟨n1, fun e _ => u2 (n2 e)⟩

/-! ### From codes to data -/

namespace Binary64

/-- The code of a finite datum's magnitude. -/
def code : Binary64 → Nat
  | .fin _ exp frac => exp.val * 2 ^ 52 + frac.toNat
  | _ => 0

theorem code_lt (x : Binary64) : x.code < 2047 * 2 ^ 52 := by
  cases x with
  | fin neg exp frac => have := exp.isLt; have := frac.isLt; simp only [code]; omega
  | inf neg => simp [code]
  | nan => simp [code]

theorem magnitude_eq_codeMag (x : Binary64) : x.magnitude = codeMag x.code := by
  cases x with
  | fin neg exp frac =>
    have := frac.isLt
    have e1 : (exp.val * 2 ^ 52 + frac.toNat) / 2 ^ 52 = exp.val := by omega
    have e2 : (exp.val * 2 ^ 52 + frac.toNat) % 2 ^ 52 = frac.toNat := by omega
    simp only [magnitude, code, codeMag, e1, e2]
  | inf neg => simp [magnitude, code, codeMag]
  | nan => simp [magnitude, code, codeMag]

/-- A code below the largest packs into a finite datum that has it; a larger one into an infinity. -/
theorem pack_of_lt {neg : Bool} {c : Nat} (h : c < 2047 * 2 ^ 52) :
    (pack neg c).isFinite = true ∧ (pack neg c).code = c ∧ (pack neg c).isNeg = neg := by
  have h1 : c / 2 ^ 52 < 2047 := by omega
  simp only [pack, h1, dif_pos, isFinite, code, isNeg, BitVec.toNat_ofNat, and_true, true_and]
  omega

theorem pack_of_le {neg : Bool} {c : Nat} (h : 2047 * 2 ^ 52 ≤ c) : pack neg c = .inf neg := by
  have h1 : ¬ c / 2 ^ 52 < 2047 := by omega
  simp only [pack, h1, dif_neg, not_false_eq_true]

/-- A finite datum is the packing of its own sign and code. -/
theorem pack_code {x : Binary64} (h : x.isFinite = true) : pack x.isNeg x.code = x := by
  cases x with
  | fin neg exp frac =>
    have hf := frac.isLt
    have e1 : (exp.val * 2 ^ 52 + frac.toNat) / 2 ^ 52 = exp.val := by omega
    have e2 : BitVec.ofNat 52 (exp.val * 2 ^ 52 + frac.toNat) = frac := by
      apply BitVec.eq_of_toNat_eq; simp only [BitVec.toNat_ofNat]; omega
    change pack neg (exp.val * 2 ^ 52 + frac.toNat) = _
    unfold pack
    rw [dif_pos (by rw [e1]; exact exp.isLt)]
    simp only [e1, e2]
  | inf neg => simp [isFinite] at h
  | nan => simp [isFinite] at h

/-- Rounding a datum's own magnitude gives the datum. -/
theorem round_magnitude {x : Binary64} (h : x.isFinite = true) : round x.isNeg x.magnitude 1 = x := by
  rw [round, magnitude_eq_codeMag]
  have := roundCode_exact (b := 1) (c := x.code) (by omega)
  rw [mul_one] at this
  rw [this, pack_code h]

/-- Rounding below a finite bound stays finite and below it. -/
theorem round_le {neg : Bool} {a b : Nat} {z : Binary64} (hb : 0 < b) (h : a ≤ z.magnitude * b) :
    (round neg a b).isFinite = true ∧ (round neg a b).isNeg = neg ∧ (round neg a b).magnitude ≤ z.magnitude := by
  rw [magnitude_eq_codeMag] at h
  have hc := roundCode_le hb h
  obtain ⟨h1, h2, h3⟩ := pack_of_lt (neg := neg) (lt_of_le_of_lt hc z.code_lt)
  refine ⟨h1, h3, ?_⟩
  rw [magnitude_eq_codeMag, magnitude_eq_codeMag, round, h2]
  exact codeMag_le_iff.2 hc

/-- Rounding above a finite bound stays above it, where the result is finite. -/
theorem le_round {neg : Bool} {a b : Nat} {z : Binary64} (hb : 0 < b) (h : z.magnitude * b ≤ a)
    (hf : (round neg a b).isFinite = true) : z.magnitude ≤ (round neg a b).magnitude := by
  rw [magnitude_eq_codeMag] at h
  have hc := le_roundCode hb h
  have hlt : roundCode a b < 2047 * 2 ^ 52 := by
    by_contra hge
    rw [round, pack_of_le (by omega)] at hf
    simp [isFinite] at hf
  rw [magnitude_eq_codeMag, magnitude_eq_codeMag, round, (pack_of_lt hlt).2.1]
  exact codeMag_le_iff.2 hc

end Binary64

end Sys2Proof
end

