-- ==== Sys2Proof/Laws/State.lean ====
section
/-! SUPPORT. One lemma per field per update of the state, each true by rfl, so that no later proof unfolds a record
update. -/

namespace Sys2Proof.Machine

variable (s : State)

/-! ### `emit` -/

@[simp] theorem emit_lifecycle (v : Binary64) : (emit v s).lifecycle = s.lifecycle := rfl
@[simp] theorem emit_faultCode (v : Binary64) : (emit v s).faultCode = s.faultCode := rfl
@[simp] theorem emit_variant (v : Binary64) : (emit v s).variant = s.variant := rfl
@[simp] theorem emit_datapathWritten (v : Binary64) : (emit v s).datapathWritten = s.datapathWritten := rfl
@[simp] theorem emit_sampleCount (v : Binary64) : (emit v s).sampleCount = s.sampleCount := rfl
@[simp] theorem emit_kickPhase (v : Binary64) : (emit v s).kickPhase = s.kickPhase := rfl
@[simp] theorem emit_bassPhase (v : Binary64) : (emit v s).bassPhase = s.bassPhase := rfl
@[simp] theorem emit_chordPhase (v : Binary64) : (emit v s).chordPhase = s.chordPhase := rfl
@[simp] theorem emit_chordGateEngaged (v : Binary64) : (emit v s).chordGateEngaged = s.chordGateEngaged := rfl
@[simp] theorem emit_delayWriteIndex (v : Binary64) : (emit v s).delayWriteIndex = s.delayWriteIndex := rfl
@[simp] theorem emit_dly (v : Binary64) : (emit v s).dly = s.dly := rfl
@[simp] theorem emit_pat (v : Binary64) : (emit v s).pat = s.pat := rfl
@[simp] theorem emit_hostIn (v : Binary64) : (emit v s).hostIn = s.hostIn := rfl
@[simp] theorem emit_sampleOut (v : Binary64) : (emit v s).sampleOut = s.sampleOut ++ [v] := rfl
@[simp] theorem emit_contOut (v : Binary64) : (emit v s).contOut = s.contOut := rfl

/-! ### `reportCont` -/

@[simp] theorem reportCont_lifecycle : (reportCont s).lifecycle = s.lifecycle := rfl
@[simp] theorem reportCont_faultCode : (reportCont s).faultCode = s.faultCode := rfl
@[simp] theorem reportCont_variant : (reportCont s).variant = s.variant := rfl
@[simp] theorem reportCont_datapathWritten : (reportCont s).datapathWritten = s.datapathWritten := rfl
@[simp] theorem reportCont_sampleCount : (reportCont s).sampleCount = s.sampleCount := rfl
@[simp] theorem reportCont_kickPhase : (reportCont s).kickPhase = s.kickPhase := rfl
@[simp] theorem reportCont_bassPhase : (reportCont s).bassPhase = s.bassPhase := rfl
@[simp] theorem reportCont_chordPhase : (reportCont s).chordPhase = s.chordPhase := rfl
@[simp] theorem reportCont_chordGateEngaged : (reportCont s).chordGateEngaged = s.chordGateEngaged := rfl
@[simp] theorem reportCont_delayWriteIndex : (reportCont s).delayWriteIndex = s.delayWriteIndex := rfl
@[simp] theorem reportCont_dly : (reportCont s).dly = s.dly := rfl
@[simp] theorem reportCont_pat : (reportCont s).pat = s.pat := rfl
@[simp] theorem reportCont_hostIn : (reportCont s).hostIn = s.hostIn := rfl
@[simp] theorem reportCont_sampleOut : (reportCont s).sampleOut = s.sampleOut := rfl
@[simp] theorem reportCont_contOut : (reportCont s).contOut = s.contOut ++ [1#1] := rfl

/-! ### `raiseFault` -/

@[simp] theorem raiseFault_lifecycle (c : FaultCode) : (raiseFault c s).lifecycle = .faulted := rfl
@[simp] theorem raiseFault_faultCode (c : FaultCode) : (raiseFault c s).faultCode = c := rfl
@[simp] theorem raiseFault_variant (c : FaultCode) : (raiseFault c s).variant = s.variant := rfl
@[simp] theorem raiseFault_datapathWritten (c : FaultCode) : (raiseFault c s).datapathWritten = s.datapathWritten := rfl
@[simp] theorem raiseFault_sampleCount (c : FaultCode) : (raiseFault c s).sampleCount = s.sampleCount := rfl
@[simp] theorem raiseFault_kickPhase (c : FaultCode) : (raiseFault c s).kickPhase = s.kickPhase := rfl
@[simp] theorem raiseFault_bassPhase (c : FaultCode) : (raiseFault c s).bassPhase = s.bassPhase := rfl
@[simp] theorem raiseFault_chordPhase (c : FaultCode) : (raiseFault c s).chordPhase = s.chordPhase := rfl
@[simp] theorem raiseFault_chordGateEngaged (c : FaultCode) : (raiseFault c s).chordGateEngaged = s.chordGateEngaged := rfl
@[simp] theorem raiseFault_delayWriteIndex (c : FaultCode) : (raiseFault c s).delayWriteIndex = s.delayWriteIndex := rfl
@[simp] theorem raiseFault_dly (c : FaultCode) : (raiseFault c s).dly = s.dly := rfl
@[simp] theorem raiseFault_pat (c : FaultCode) : (raiseFault c s).pat = s.pat := rfl
@[simp] theorem raiseFault_hostIn (c : FaultCode) : (raiseFault c s).hostIn = s.hostIn := rfl
@[simp] theorem raiseFault_sampleOut (c : FaultCode) : (raiseFault c s).sampleOut = s.sampleOut := rfl
@[simp] theorem raiseFault_contOut (c : FaultCode) : (raiseFault c s).contOut = s.contOut := rfl

/-! ### `construct` -/

@[simp] theorem construct_lifecycle (v : Variant) : (construct v s).lifecycle = .running := rfl
@[simp] theorem construct_faultCode (v : Variant) : (construct v s).faultCode = .none := rfl
@[simp] theorem construct_variant (v : Variant) : (construct v s).variant = v := rfl
@[simp] theorem construct_datapathWritten (v : Variant) : (construct v s).datapathWritten = true := rfl
@[simp] theorem construct_sampleCount (v : Variant) : (construct v s).sampleCount = 0#64 := rfl
@[simp] theorem construct_kickPhase (v : Variant) : (construct v s).kickPhase = Const.zero := rfl
@[simp] theorem construct_bassPhase (v : Variant) : (construct v s).bassPhase = Const.zero := rfl
@[simp] theorem construct_chordPhase (v : Variant) : (construct v s).chordPhase = #v[Const.zero, Const.zero, Const.zero] := rfl
@[simp] theorem construct_chordGateEngaged (v : Variant) : (construct v s).chordGateEngaged = false := rfl
@[simp] theorem construct_delayWriteIndex (v : Variant) : (construct v s).delayWriteIndex = 0#15 := rfl
@[simp] theorem construct_dly (v : Variant) : (construct v s).dly = [] := rfl
@[simp] theorem construct_pat (v : Variant) : (construct v s).pat = s.pat := rfl
@[simp] theorem construct_hostIn (v : Variant) : (construct v s).hostIn = s.hostIn := rfl
@[simp] theorem construct_sampleOut (v : Variant) : (construct v s).sampleOut = s.sampleOut := rfl
@[simp] theorem construct_contOut (v : Variant) : (construct v s).contOut = s.contOut := rfl

/-! ### `powerOnReset` -/

@[simp] theorem powerOnReset_lifecycle : (powerOnReset s).lifecycle = .unconstructed := rfl
@[simp] theorem powerOnReset_faultCode : (powerOnReset s).faultCode = .none := rfl
@[simp] theorem powerOnReset_variant : (powerOnReset s).variant = .basic := rfl
@[simp] theorem powerOnReset_datapathWritten : (powerOnReset s).datapathWritten = false := rfl
@[simp] theorem powerOnReset_sampleCount : (powerOnReset s).sampleCount = 0#64 := rfl
@[simp] theorem powerOnReset_kickPhase : (powerOnReset s).kickPhase = Const.zero := rfl
@[simp] theorem powerOnReset_bassPhase : (powerOnReset s).bassPhase = Const.zero := rfl
@[simp] theorem powerOnReset_chordPhase : (powerOnReset s).chordPhase = #v[Const.zero, Const.zero, Const.zero] := rfl
@[simp] theorem powerOnReset_chordGateEngaged : (powerOnReset s).chordGateEngaged = false := rfl
@[simp] theorem powerOnReset_delayWriteIndex : (powerOnReset s).delayWriteIndex = 0#15 := rfl
@[simp] theorem powerOnReset_dly : (powerOnReset s).dly = [] := rfl
@[simp] theorem powerOnReset_pat : (powerOnReset s).pat = s.pat := rfl
@[simp] theorem powerOnReset_hostIn : (powerOnReset s).hostIn = s.hostIn := rfl
@[simp] theorem powerOnReset_sampleOut : (powerOnReset s).sampleOut = [] := rfl
@[simp] theorem powerOnReset_contOut : (powerOnReset s).contOut = [] := rfl

end Sys2Proof.Machine
end

