-- ==== Sys2Proof/Laws/Step.lean ====
section
/-! SUPPORT. What each shared operation, each meaning and a step can do, said once: later proofs cite these instead of
unfolding the definitions. -/

namespace Sys2Proof.Machine

variable {F : NumericConfig} {s t : State} {v : Binary64}

/-! ### The delay line -/

/-- A delay call completes exactly at a cursor in range, with the effect of 45_delay.md R180. -/
theorem delayCall_eq_ok {feedback input : Binary64} {line line' : DelayLine} :
    delayCall feedback input line = .ok (v, line') ↔
      line.cursor.toNat < Const.delayLen ∧
      line' = { cursor := nextCursor line.cursor
                words := line.words.store line.cursor.toNat
                  (input.add ((line.words.load line.cursor.toNat).mul feedback)) } ∧
      v = line'.words.load (nextCursor line.cursor).toNat := by
  have hn : (nextCursor line.cursor).toNat < Const.delayLen := by
    simp only [nextCursor, BitVec.toNat_ofNat]
    exact lt_of_le_of_lt (Nat.mod_le _ _) (Nat.mod_lt _ (by decide))
  unfold delayCall memRead memWrite
  by_cases h : line.cursor.toNat < Const.delayLen
  · simp only [h, hn, if_true, true_and]
    constructor
    · intro e; cases e; exact ⟨rfl, rfl⟩
    · rintro ⟨rfl, rfl⟩; rfl
  · simp [h]

theorem delay_completes (input : Binary64) {line : DelayLine} (h : line.cursor.toNat < Const.delayLen) :
    ∃ y line', delay input line = .ok (y, line') := ⟨_, _, delayCall_eq_ok.2 ⟨h, rfl, rfl⟩⟩

/-- The cursor after a call, as a number (45_delay.md R181). -/
theorem nextCursor_toNat (c : BitVec 15) :
    (nextCursor c).toNat = (c.toNat + 1) % Const.delayLen := by
  have : (c.toNat + 1) % Const.delayLen < 2 ^ 15 := lt_trans (Nat.mod_lt _ (by decide)) (by decide)
  simp only [nextCursor, BitVec.toNat_ofNat]
  exact Nat.mod_eq_of_lt this

theorem nextCursor_lt (c : BitVec 15) : (nextCursor c).toNat < Const.delayLen := by
  simp only [nextCursor, BitVec.toNat_ofNat]
  exact lt_of_le_of_lt (Nat.mod_le _ _) (Nat.mod_lt _ (by decide))

/-! ### A tick -/

/-- The registers a tick commits, given what steps 6 and 7 returned (46_mixer.md R190). -/
def ticked (F : NumericConfig) (s : State) (r : ChordResult) : State :=
  { s with
    kickPhase := kickAdvance F (clock s.sampleCount.toNat).beatFraction s.kickPhase
    bassPhase := bassAdvance s.bassPhase
    chordGateEngaged := gateLatch s.chordGateEngaged (clock s.sampleCount.toNat).seconds
      (clock s.sampleCount.toNat).beatFraction
    chordPhase := r.chordPhase
    delayWriteIndex := r.line.cursor
    dly := r.line.words
    sampleCount := s.sampleCount + 1#64 }

/-- The flag after TICK step 5 of the tick at hand. -/
def gateAfter (s : State) : Bool :=
  gateLatch s.chordGateEngaged (clock s.sampleCount.toNat).seconds (clock s.sampleCount.toNat).beatFraction

/-- GATE_LATCH as one disjunction (44_voices.md R155). -/
theorem gateLatch_eq_or (engaged : Bool) (seconds beatFraction : Binary64) :
    gateLatch engaged seconds beatFraction =
      (engaged || (Const.three.lt seconds && beatFraction.ieeeEq Const.zero)) := by
  unfold gateLatch
  cases engaged <;> cases Const.three.lt seconds <;> cases beatFraction.ieeeEq Const.zero <;> rfl

/-- A tick below the index limit whose steps 6 and 7 return `r` produces its sample and the next state. -/
theorem tickStep_of_chordVoice {r : ChordResult} (hw : s.datapathWritten = true)
    (hn : s.sampleCount.toNat < Const.indexLimit)
    (hr : chordVoice F (clock s.sampleCount.toNat) (gateAfter s) s = .ok r) :
    let bf := (clock s.sampleCount.toNat).beatFraction
    tickStep F s =
      .produced (mix (kickOut F bf (kickAdvance F bf s.kickPhase)) (bassOut F bf (bassAdvance s.bassPhase)) r.chordOut)
        (ticked F s r) := by
  unfold gateAfter at hr
  unfold tickStep tickAt
  rw [if_neg (by simp [hw]), if_neg (by omega)]
  dsimp only
  rw [hr]
  rfl

/-- A tick that produces a sample: its conditions, and the whole next state. -/
theorem tickStep_produced (h : tickStep F s = .produced v t) :
    s.datapathWritten = true ∧ s.sampleCount.toNat < Const.indexLimit ∧
    ∃ r, chordVoice F (clock s.sampleCount.toNat) (gateAfter s) s = .ok r ∧ t = ticked F s r := by
  unfold tickStep at h
  by_cases hw : s.datapathWritten = false
  · rw [if_pos hw] at h; cases h
  · rw [if_neg hw] at h
    by_cases hc : Const.indexLimit ≤ s.sampleCount.toNat
    · rw [if_pos hc] at h; cases h
    · rw [if_neg hc] at h
      unfold tickAt at h
      dsimp only at h
      split at h
      · cases h
      · rename_i r hr
        cases h
        exact ⟨by simpa using hw, Nat.lt_of_not_le hc, r, hr, rfl⟩

/-- The two faults a tick raises: NotConstructed where the datapath holds no value, and CounterRange at an index past the
limit (10_state.md R20, R22). -/
theorem tickStep_raised {c : FaultCode} :
    tickStep F s = .raised c ↔
      (s.datapathWritten = false ∧ c = .notConstructed) ∨
      (s.datapathWritten = true ∧ Const.indexLimit ≤ s.sampleCount.toNat ∧ c = .counterRange) := by
  unfold tickStep
  cases hw : s.datapathWritten
  · simp [eq_comm]
  · by_cases hc : Const.indexLimit ≤ s.sampleCount.toNat
    · simp [hc, eq_comm]
    · simp only [hc, Bool.true_eq_false, if_false, false_and, and_false, or_false, iff_false]
      unfold tickAt
      dsimp only
      split <;> simp

theorem tickStep_raised_ne_none {c : FaultCode} (h : tickStep F s = .raised c) : c ≠ .none := by
  obtain ⟨-, rfl⟩ | ⟨-, -, rfl⟩ := tickStep_raised.1 h <;> decide

/-- Steps 6 and 7 while the gate is off: nothing changes, and the chord is absent (44_voices.md R160). -/
theorem chordVoice_off {T : MusicalTime} {r : ChordResult} (h : chordVoice F T false s = .ok r) :
    r = { chordOut := none, chordPhase := s.chordPhase, line := ⟨s.delayWriteIndex, s.dly⟩ } := by
  unfold chordVoice at h; simpa [eq_comm] using h

/-- Steps 6 and 7 while the gate is on: the partials advance, and the delay line is called once under WithDelay and not
at all under Basic (44_voices.md R163, R168). -/
theorem chordVoice_on {T : MusicalTime} {r : ChordResult} (h : chordVoice F T true s = .ok r) :
    r.chordPhase = chordPartials (chordFreq s.variant T.barMod4) s.chordPhase ∧
    ((s.variant = .basic ∧ r.line = ⟨s.delayWriteIndex, s.dly⟩ ∧
        r.chordOut = some (dryChordOf F T s.pat r.chordPhase)) ∨
     (s.variant = .withDelay ∧
        ∃ y, delay (dryChordOf F T s.pat r.chordPhase) ⟨s.delayWriteIndex, s.dly⟩ = .ok (y, r.line) ∧
          r.chordOut = some ((dryChordOf F T s.pat r.chordPhase).add (y.mul Const.delayWet)))) := by
  unfold chordVoice chordTap at h
  dsimp only at h
  cases hv : s.variant <;> rw [hv] at h <;> dsimp only at h
  · rw [if_pos rfl] at h
    cases h
    exact ⟨rfl, .inl ⟨rfl, rfl, rfl⟩⟩
  · rw [if_pos rfl] at h
    split at h
    · cases h
    · rename_i x l hd
      cases h
      split at hd
      · cases hd
      · rename_i y l' hy
        cases hd
        exact ⟨rfl, .inr ⟨rfl, y, hy, rfl⟩⟩

/-- Steps 6 and 7 with the gate on, under Basic (44_voices.md R168). -/
theorem chordVoice_basic {T : MusicalTime} (hv : s.variant = .basic) :
    chordVoice F T true s =
      .ok { chordOut := some (dryChordOf F T s.pat (chordPartials (chordFreq s.variant T.barMod4) s.chordPhase))
            chordPhase := chordPartials (chordFreq s.variant T.barMod4) s.chordPhase
            line := ⟨s.delayWriteIndex, s.dly⟩ } := by
  unfold chordVoice chordTap; dsimp only; rw [if_pos rfl, hv]

/-- Steps 6 and 7 with the gate on, under WithDelay (44_voices.md R168), given what the one DELAY call returns. -/
theorem chordVoice_withDelay {T : MusicalTime} {y : Binary64} {line : DelayLine} (hv : s.variant = .withDelay)
    (hd : delay (dryChordOf F T s.pat (chordPartials (chordFreq s.variant T.barMod4) s.chordPhase))
      ⟨s.delayWriteIndex, s.dly⟩ = .ok (y, line)) :
    chordVoice F T true s =
      .ok { chordOut := some ((dryChordOf F T s.pat
              (chordPartials (chordFreq s.variant T.barMod4) s.chordPhase)).add (y.mul Const.delayWet))
            chordPhase := chordPartials (chordFreq s.variant T.barMod4) s.chordPhase
            line := line } := by
  unfold chordVoice chordTap; dsimp only; rw [if_pos rfl, hd, hv]

/-! ### The meanings -/

/-- TICK of a Running block whose tick produces a sample emits it (40_commands.md R101). -/
theorem tickWith_of_produced (hl : s.lifecycle = .running) (h : tickStep F s = .produced v t) :
    tickWith F s = .next (emit v t) := by
  unfold tickWith; rw [hl]; dsimp only; rw [h]

/-- INIT has exactly four outcomes (40_commands.md R100, R103). -/
theorem execInit_cases {variant : Variant} {sr : Nat} (h : execInit variant sr s = .next t) :
    (s.lifecycle = .faulted ∧ t = s) ∨
    (s.lifecycle = .running ∧ t = raiseFault .alreadyConstructed s) ∨
    (s.lifecycle = .unconstructed ∧ sr = 48000 ∧ t = construct variant s) ∨
    (s.lifecycle = .unconstructed ∧ sr ≠ 48000 ∧ t = raiseFault .unsupportedSampleRate s) := by
  unfold execInit rateSupported at h
  split at h
  · cases h; exact .inl ⟨‹_›, rfl⟩
  · cases h; exact .inr (.inl ⟨‹_›, rfl⟩)
  · by_cases hs : sr = Const.sampleRate
    · simp only [hs, decide_true, if_true, Host.Outcome.next.injEq] at h
      exact .inr (.inr (.inl ⟨‹_›, hs, h.symm⟩))
    · simp only [hs, decide_false, Bool.false_eq_true, if_false, Host.Outcome.next.injEq] at h
      exact .inr (.inr (.inr ⟨‹_›, hs, h.symm⟩))

/-- TICK has exactly four outcomes (40_commands.md R101, R103). -/
theorem tickWith_cases (h : tickWith F s = .next t) :
    (s.lifecycle = .faulted ∧ t = s) ∨
    (s.lifecycle = .unconstructed ∧ t = raiseFault .notConstructed s) ∨
    (s.lifecycle = .running ∧ ∃ c, tickStep F s = .raised c ∧ t = raiseFault c s) ∨
    (s.lifecycle = .running ∧ ∃ v u, tickStep F s = .produced v u ∧ t = emit v u) := by
  unfold tickWith at h
  split at h
  · cases h; exact .inl ⟨‹_›, rfl⟩
  · cases h; exact .inr (.inl ⟨‹_›, rfl⟩)
  · split at h
    · cases h; exact .inr (.inr (.inr ⟨‹_›, _, _, ‹_›, rfl⟩))
    · cases h; exact .inr (.inr (.inl ⟨‹_›, _, ‹_›, rfl⟩))
    · cases h

/-- The ticks of a FILL keep whatever each of them keeps; then `CONT` is reported, or a tick has raised a fault. -/
theorem fillTicks_induct {P : State → Prop} {n : Nat}
    (tick : ∀ s v t, P s → tickStep F s = .produced v t → P (emit v t)) (hs : P s)
    (h : fillTicks F n s = .next t) :
    ∃ u, P u ∧ (t = reportCont u ∨ ∃ c, tickStep F u = .raised c ∧ t = raiseFault c u) := by
  induction n generalizing s with
  | zero => cases h; exact ⟨s, hs, .inl rfl⟩
  | succ n ih =>
    unfold fillTicks at h
    split at h
    · exact ih (tick _ _ _ hs ‹_›) h
    · cases h; exact ⟨s, hs, .inr ⟨_, ‹_›, rfl⟩⟩
    · cases h

/-- A tick leaves the lifecycle, the fault code, the variant, the ROM and the host's queue alone. -/
theorem tickStep_frame (h : tickStep F s = .produced v t) :
    t.lifecycle = s.lifecycle ∧ t.faultCode = s.faultCode ∧ t.variant = s.variant ∧
    t.datapathWritten = s.datapathWritten ∧ t.pat = s.pat ∧ t.hostIn = s.hostIn ∧
    t.sampleOut = s.sampleOut ∧ t.contOut = s.contOut ∧ t.sampleCount = s.sampleCount + 1#64 := by
  obtain ⟨-, -, r, -, rfl⟩ := tickStep_produced h
  exact ⟨rfl, rfl, rfl, rfl, rfl, rfl, rfl, rfl, rfl⟩

/-- A tick that meets a written datapath, an index below the limit and a cursor in range produces a sample, and the cursor
stays in range. -/
theorem tickStep_completes (hw : s.datapathWritten = true) (hn : s.sampleCount.toNat < Const.indexLimit)
    (hc : s.delayWriteIndex.toNat < Const.delayLen) :
    ∃ v t, tickStep F s = .produced v t ∧ t.delayWriteIndex.toNat < Const.delayLen := by
  unfold tickStep
  rw [if_neg (by simp [hw]), if_neg (by omega)]
  unfold tickAt
  dsimp only
  split
  · rename_i f hf
    unfold chordVoice chordTap at hf
    dsimp only at hf
    split at hf
    · split at hf
      · rename_i h2
        split at h2
        · cases h2
        · split at h2
          · rename_i h3
            unfold delay delayCall memRead memWrite at h3
            simp [hc, nextCursor_lt] at h3
          · cases h2
      · cases hf
    · cases hf
  · rename_i r hr
    refine ⟨_, _, rfl, ?_⟩
    dsimp only
    cases hg : gateLatch s.chordGateEngaged (clock s.sampleCount.toNat).seconds
        (clock s.sampleCount.toNat).beatFraction <;> rw [hg] at hr
    · rw [chordVoice_off hr]; exact hc
    · obtain ⟨-, ⟨-, h1, -⟩ | ⟨-, y, h1, -⟩⟩ := chordVoice_on hr
      · rw [h1]; exact hc
      · rw [(delayCall_eq_ok.1 h1).2.1]; exact nextCursor_lt _

/-- What a tick that produces a sample does to the index, the gate, the chord phases and the delay line. -/
theorem tickStep_line (h : tickStep F s = .produced v t) :
    t.sampleCount.toNat = s.sampleCount.toNat + 1 ∧ t.chordGateEngaged = gateAfter s ∧
    (gateAfter s = false → t.chordPhase = s.chordPhase) ∧
    (s.variant = .withDelay → gateAfter s = true → s.delayWriteIndex.toNat < Const.delayLen ∧
      t.delayWriteIndex.toNat = (s.delayWriteIndex.toNat + 1) % Const.delayLen ∧
      ∀ a, a ≠ s.delayWriteIndex.toNat → t.dly.load a = s.dly.load a) ∧
    (¬ (s.variant = .withDelay ∧ gateAfter s = true) →
      t.delayWriteIndex = s.delayWriteIndex ∧ t.dly = s.dly) := by
  obtain ⟨-, hlt, r, hr, rfl⟩ := tickStep_produced h
  have hcount : (s.sampleCount + 1#64).toNat = s.sampleCount.toNat + 1 := by
    rw [BitVec.toNat_add]; simp [Const.indexLimit] at *; omega
  refine ⟨hcount, rfl, ?_⟩
  cases hg : gateAfter s <;> rw [hg] at hr
  · rw [chordVoice_off hr]; simp [ticked]
  · obtain ⟨-, ⟨hv, h1, -⟩ | ⟨hv, y, h1, -⟩⟩ := chordVoice_on hr
    · simp [hv, ticked, h1]
    · obtain ⟨h2, h3, -⟩ := delayCall_eq_ok.1 h1
      simp only [hv, ticked, h3, nextCursor_toNat]
      exact ⟨by simp, fun _ _ => ⟨h2, trivial, fun a ha => load_store_other ha⟩, by simp⟩

/-! ### A step -/

/-- What a step can be: idle, power-on reset, an illegal word, or the decoded command (70_reset_and_hazards.md R239). -/
theorem step_cases (h : step s = .next t) :
    (s.hostIn = [] ∧ t = s) ∨
    (∃ rest, s.hostIn = .rst :: rest ∧ t = powerOnReset { s with hostIn := rest }) ∨
    (∃ w rest e, s.hostIn = .command w :: rest ∧ decode w = .error e ∧
      t = takeIllegalWord { s with hostIn := rest }) ∨
    (∃ w rest i, s.hostIn = .command w :: rest ∧ decode w = .ok i ∧ exec i { s with hostIn := rest } = .next t) := by
  unfold step takeMove at h
  cases hq : s.hostIn with
  | nil => rw [hq] at h; cases h; exact .inl ⟨rfl, rfl⟩
  | cons m rest =>
    rw [hq] at h
    cases m with
    | rst => cases h; exact .inr (.inl ⟨rest, rfl, rfl⟩)
    | command w =>
      dsimp only at h
      split at h
      · exact .inr (.inr (.inr ⟨w, rest, _, rfl, ‹_›, h⟩))
      · cases h; exact .inr (.inr (.inl ⟨w, rest, _, rfl, ‹_›, rfl⟩))

/-- An illegal word is ignored by a Faulted block and otherwise raises IllegalCommand. -/
theorem takeIllegalWord_cases (s : State) :
    (s.lifecycle = .faulted ∧ takeIllegalWord s = s) ∨
    (s.lifecycle ≠ .faulted ∧ takeIllegalWord s = raiseFault .illegalCommand s) := by
  unfold takeIllegalWord; split <;> simp_all

/-- An induction over what a step does: a property kept by taking a move, by power-on reset, by a fault, by construction,
by a tick of a Running block and by reporting `CONT` is kept by every step. -/
theorem step_induct {P : State → Prop}
    (take : ∀ s rest, P s → P { s with hostIn := rest })
    (reset : ∀ s, P s → P (powerOnReset s))
    (raise : ∀ s c, P s → c ≠ .none → P (raiseFault c s))
    (init : ∀ s v, P s → s.lifecycle = .unconstructed → P (construct v s))
    (tick : ∀ s v t, P s → s.lifecycle = .running → tickStep Config.numeric s = .produced v t → P (emit v t))
    (cont : ∀ s, P s → s.lifecycle = .running → P (reportCont s))
    (hs : P s) (h : step s = .next t) : P t := by
  obtain ⟨-, rfl⟩ | ⟨rest, -, rfl⟩ | ⟨w, rest, e, -, -, rfl⟩ | ⟨w, rest, i, -, -, he⟩ := step_cases h
  · exact hs
  · exact reset _ (take _ _ hs)
  · obtain ⟨-, h1⟩ | ⟨-, h1⟩ := takeIllegalWord_cases { s with hostIn := rest } <;> rw [h1]
    · exact take _ _ hs
    · exact raise _ _ (take _ _ hs) (by decide)
  · have hq := take _ rest hs
    cases i with
    | init v sr =>
      obtain ⟨-, rfl⟩ | ⟨-, rfl⟩ | ⟨hl, -, rfl⟩ | ⟨-, -, rfl⟩ := execInit_cases he
      · exact hq
      · exact raise _ _ hq (by decide)
      · exact init _ _ hq hl
      · exact raise _ _ hq (by decide)
    | tick =>
      obtain ⟨-, rfl⟩ | ⟨-, rfl⟩ | ⟨-, c, hc, rfl⟩ | ⟨hl, v, u, hu, rfl⟩ := tickWith_cases he
      · exact hq
      · exact raise _ _ hq (by decide)
      · exact raise _ _ hq (tickStep_raised_ne_none hc)
      · exact tick _ _ _ hq hl hu
    | fill n =>
      change fillWith Config.numeric n _ = _ at he
      unfold fillWith at he
      split at he
      · cases he; exact hq
      · cases he; exact raise _ _ hq (by decide)
      · obtain ⟨u, ⟨hu, hr⟩, rfl | ⟨c, hc, rfl⟩⟩ :=
          fillTicks_induct (P := fun u => P u ∧ u.lifecycle = .running)
            (fun a v b ⟨ha, hr⟩ hb => ⟨tick _ _ _ ha hr hb, (tickStep_frame hb).1.trans hr⟩) ⟨hq, ‹_›⟩ he
        · exact cont _ hu hr
        · exact raise _ _ hu (tickStep_raised_ne_none hc)

end Sys2Proof.Machine
end

