-- ==== Sys2Proof/Tests/Slice0.lean ====
section
/-! SUPPORT. The model's own tests. Expected results come from spec/ (95_test_vectors.md and the rules' examples); the values
of sin, tanh and pow in the table configurations are those of a C library, the spec's reference configuration. Part 2
holds, for each statement with hypotheses, a witness that meets them. -/

namespace Sys2Proof.Tests

-- Each kernel evaluation waits for the one before it; one thread at a time keeps the memory small.
set_option Elab.async false

open Sys2Proof.Machine

/-! ## Part 1. Tests -/

/-! ### Well-formedness: one ill-formed term for each check, and the largest well-formed ones -/

theorem test_wf_refuses_wide_rate : (Instr.init .basic (2 ^ 20)).wellFormed = false := by decide
theorem test_wf_refuses_wide_count : (Instr.fill (2 ^ 24)).wellFormed = false := by decide
theorem test_wf_accepts_largest :
    (Instr.init .withDelay (2 ^ 20 - 1)).wellFormed = true ∧ (Instr.fill fillMax).wellFormed = true := by decide

/-! ### Decoding: words written out from 30_encoding.md R71 -/

theorem test_decode_init_basic :
    decode 0b00000001000000001011101110000000#32 = .ok (.init .basic 48000) := by decide
theorem test_decode_init_withDelay :
    decode 0b00000001100000001011101110000000#32 = .ok (.init .withDelay 48000) := by decide
theorem test_decode_tick : decode 0b00000010000000000000000000000000#32 = .ok .tick := by decide
theorem test_decode_fill : decode 0b00000011000000101110111000000001#32 = .ok (.fill 192001) := by decide
theorem test_decode_illegal :
    decode 0x04000000#32 = .error .reservedOpcode ∧ decode 0xFF000000#32 = .error .reservedOpcode ∧
    decode 0x0110BB80#32 = .error .initReservedBits ∧ decode 0x02000001#32 = .error .tickReservedBits := by decide
theorem test_encode_examples :
    encode (.init .basic 48000) = 0x0100BB80#32 ∧ encode (.init .withDelay 48000) = 0x0180BB80#32 ∧
    encode .tick = 0x02000000#32 ∧ encode (.fill 168000) = 0x03029040#32 := by decide

/-! ### Arithmetic (00_scope.md R11; 42_oscillator_bank.md R130, V-PH-1 to V-PH-9) -/

theorem test_constants :
    Const.dt = .fin false 1007 0x5d867c3ece2a5#52 ∧ Const.twoThirds = .fin false 1022 0x5555555555555#52 ∧
    Const.sixFifths = .fin false 1023 0x3333333333333#52 ∧ Const.kickAmp = .fin false 1020 0x3333333333333#52 ∧
    Const.twoPi = .fin false 1025 0x921fb54442d18#52 := by decide +kernel
theorem test_advance_first_kick :
    advance Const.zero (Binary64.ofNat 950) = .fin false 1017 0x4444444444444#52 := by decide +kernel
theorem test_advance_wraps :
    advance (.fin false 1022 0xfae147ae147ae#52) (Binary64.ofNat 950) = .fin false 1016 0x40da740da7400#52 := by
  decide +kernel
theorem test_advance_to_one :
    advance (Binary64.ofRatio 3 4) (Binary64.ofNat 12000) = Binary64.zero false := by decide +kernel
theorem test_advance_truncates :
    advance (Binary64.ofRatio 1 4) (Binary64.ofNat 24000).neg = (Binary64.ofRatio 1 4).neg := by decide +kernel
theorem test_advance_largest_phase :
    advance (.fin false 1022 0xfffffffffffff#52) Const.fifty = .fin false 1013 0x1111111111000#52 := by decide +kernel
theorem test_shifted_frequencies :
    chordFreq .basic 2 = .fin false 1030 0x0aaaaaaaaaaaa#52 ∧
    chordFreq .withDelay 3 = .fin false 1030 0x4d55555555555#52 := by decide +kernel

/-! ### Clock (V-CLK-11, V-CLK-13) -/

theorem test_clock_200000 :
    clock 200000 =
      { seconds := .fin false 1025 0x0aaaaaaaaaaab#52, beats := .fin false 1026 0x0aaaaaaaaaaab#52,
        beatFraction := .fin false 1021 0x5555555555560#52, bar := Const.two,
        sixteenths := .fin false 1028 0x0aaaaaaaaaaab#52,
        sixteenthFraction := .fin false 1021 0x5555555555580#52, step := 1, barMod4 := 2 } := by decide +kernel
theorem test_clock_383999 :
    (clock 383999).step = 15 ∧ (clock 383999).barMod4 = 3 ∧
    (clock 383999).sixteenthFraction = .fin false 1022 0xffea27983c140#52 := by decide +kernel

/-! ### Voices, with tables of C-library values -/

/-- sin, tanh and pow at the arguments of the first two ticks (V-MIX-1, V-MIX-2); `Pow(1, e) = 1`. -/
def tableConfig : NumericConfig :=
  { sin := fun x =>
      if x = .fin false 1019 0xfd5b5d123280d#52 then .fin false 1019 0xfc0b8c88ea059#52
      else if x = .fin false 1020 0xfcdad0b0bc144#52 then .fin false 1020 0xf7a29eeae44ba#52
      else if x = .fin false 1016 0xacee9f37bebd5#52 then .fin false 1016 0xaceb7c72ca0a8#52
      else Const.zero
    tanh := fun x => if x = .fin false 1017 0x41b09d561787e#52 then .fin false 1017 0x41a6089dc6335#52 else Const.zero
    pow := fun b e =>
      if b = Const.one then Const.one
      else if e = Const.fifty then .fin false 1022 0xfeef363f48cad#52
      else if e = Const.three then .fin false 1022 0xffef9ddeea249#52
      else .fin false 1022 0xfffd44f12a47e#52 }

/-- sin of 1 to 6 (V-SAW-4). -/
def sawConfig : NumericConfig :=
  { tableConfig with
    sin := fun x =>
      if x = Binary64.ofNat 1 then .fin false 1022 0xaed548f090cee#52
      else if x = Binary64.ofNat 2 then .fin false 1022 0xd18f6ead1b446#52
      else if x = Binary64.ofNat 3 then .fin false 1020 0x210386db6d55b#52
      else if x = Binary64.ofNat 4 then .fin true 1022 0x837b9dddc1eae#52
      else if x = Binary64.ofNat 5 then .fin true 1022 0xeaf81f5e09933#52
      else .fin true 1021 0x1e1f18ab0a2c0#52 }

theorem test_saw6f_at_one : saw6f sawConfig Const.one = .fin false 1023 0x5634feebd8db0#52 := by decide +kernel

/-- The state an outcome goes on to. -/
def nextOf : Host.Outcome State Fault Refusal → Option State
  | .next s => some s
  | _ => none

theorem nextOf_eq_some {o : Host.Outcome State Fault Refusal} {t : State} : nextOf o = some t → o = .next t := by
  cases o <;> simp [nextOf]

theorem nextOf_isSome {o : Host.Outcome State Fault Refusal} (h : (nextOf o).isSome = true) : ∃ t, o = .next t := by
  cases o with
  | next t => exact ⟨t, rfl⟩
  | fault f => simp [nextOf] at h
  | refused r => simp [nextOf] at h

/-- A constructed block that has come to an index, with the gate as given. -/
def atIndex (v : Variant) (n : Nat) (gate : Bool) : State :=
  { construct v State.reset with sampleCount := BitVec.ofNat 64 n, chordGateEngaged := gate }

theorem test_first_two_samples :
    (nextOf (fillWith tableConfig 2 (atIndex .basic 0 false))).map (·.sampleOut) =
      some [.fin false 1017 0x30d3bab88c69c#52, .fin false 1018 0x2e24dfe6e6e3d#52] := by decide +kernel

/-! ### The latch and the delay line (V-VOX-6 to V-VOX-8b, V-DLY-4) -/

theorem test_no_latch_at_144000 :
    (nextOf (tickWith tableConfig (atIndex .basic 144000 false))).map (·.chordGateEngaged) = some false := by
  decide +kernel
theorem test_latch_at_168000_basic :
    (nextOf (tickWith tableConfig (atIndex .basic 168000 false))).map (fun s => (s.chordGateEngaged, s.chordPhase)) =
      some (true, #v[.fin false 1015 0x1111111111111#52, .fin false 1015 0x9999999999999#52,
        .fin false 1015 0x47ae147ae147b#52]) := by decide +kernel
theorem test_latch_at_168000_withDelay :
    (nextOf (tickWith tableConfig (atIndex .withDelay 168000 false))).map (fun s => (s.delayWriteIndex, s.chordPhase)) =
      some (1#15, #v[.fin false 1015 0x5555555555555#52, .fin false 1016 0#52,
        .fin false 1015 0x9999999999999#52]) := by decide +kernel
theorem test_first_delay_call :
    delay Const.kickAmp { cursor := 0#15, words := [] } =
      .ok (Const.zero, { cursor := 1#15, words := [(0, Const.kickAmp)] }) := by decide +kernel
theorem test_delay_wraps :
    delay Const.zero { cursor := 17999#15, words := [(0, Const.kickAmp), (17999, Const.one)] } =
      .ok (Const.kickAmp, { cursor := 0#15, words := [(0, Const.kickAmp), (17999, Const.half)] }) := by decide +kernel

/-! ### Commands and faults (V-CMD-1 to V-CMD-15), by the status word after a step -/

/-- The status word after the block has taken one word. -/
def statusAfter (s : State) (w : Nat) : Option Word := (nextOf (step (s.withFetchWord 32 w))).map State.statusWord

theorem test_init_status :
    statusAfter State.reset 0x0100BB80 = some 0x00000001#32 ∧
    statusAfter State.reset 0x0180BB80 = some 0x00000005#32 := by decide +kernel
theorem test_reset_faults :
    statusAfter State.reset 0x0100AC44 = some 0x00000042#32 ∧
    statusAfter State.reset 0x0110BB80 = some 0x00000012#32 ∧
    statusAfter State.reset 0x02000000 = some 0x00000022#32 ∧
    statusAfter State.reset 0x03000000 = some 0x00000022#32 := by decide +kernel
theorem test_running_faults :
    statusAfter (atIndex .basic 0 false) 0x0100AC44 = some 0x00000032#32 ∧
    statusAfter (atIndex .withDelay 0 false) 0x02000001 = some 0x00000016#32 ∧
    statusAfter (atIndex .basic 0 false) 0x00000000 = some 0x00000012#32 ∧
    statusAfter (atIndex .basic 0 false) 0x03000000 = some 0x00000001#32 := by decide +kernel
theorem test_faulted_ignores_init :
    statusAfter (raiseFault .notConstructed State.reset) 0x0100BB80 = some 0x00000022#32 := by decide +kernel
theorem test_counter_range :
    (nextOf (exec .tick (atIndex .basic (2 ^ 53) false))).map (fun s => (s.statusWord, s.sampleCount)) =
      some (0x00000052#32, BitVec.ofNat 64 (2 ^ 53)) := by decide +kernel
theorem test_fill_faults_part_way :
    (nextOf (fillWith tableConfig 5 (atIndex .basic (2 ^ 53 - 2) false))).map
      (fun s => (s.statusWord, s.sampleCount, s.sampleOut.length, s.contOut)) =
      some (0x00000052#32, BitVec.ofNat 64 (2 ^ 53), 2, []) := by decide +kernel
theorem test_reset_move :
    (nextOf (step { raiseFault .counterRange (atIndex .withDelay 5 true) with hostIn := [.rst] })) = some State.reset := by
  decide +kernel

/-! ### The assembler (30_encoding.md R78, R79) -/

theorem test_assemble :
    assemble ['I', 'N', 'I', 'T', ' ', 'B', 'A', 'S', 'I', 'C', ',', ' ', '4', '8', '0', '0', '0', ' ', ';', 'x', '\n',
      'R', 'U', 'N', ' ', '3', '.', '5', '\n', 'T', 'I', 'C', 'K', '\n',
      'F', 'I', 'L', 'L', ' ', '0', 'x', 'A'] =
      some [0x0100BB80#32, 0x03029040#32, 0x02000000#32, 0x0300000A#32] := by decide +kernel
theorem test_assemble_refuses :
    assemble ['F', 'I', 'L', 'L', ' ', '1', '6', '7', '7', '7', '2', '1', '6'] = none ∧
    assemble ['R', 'U', 'N', ' ', '1', '.', '0', '0', '0', '1'] = none := by decide +kernel
theorem test_run_in_blocks : runFills (2 * fillMax) = [.fill fillMax, .fill fillMax] := by decide +kernel

/-! ## Part 2. Witnesses: states and operands that meet the statements' hypotheses -/

/-- A configuration that meets every named assumption: `Pow(b, e) = b`, `Sin` and `Tanh` zero. -/
def plainConfig : NumericConfig := { sin := fun _ => Const.zero, tanh := fun _ => Const.zero, pow := fun b _ => b }

theorem plainConfig_pow (b e : Binary64) : plainConfig.pow b e = b := rfl
theorem plainConfig_sin (x : Binary64) : plainConfig.sin x = Const.zero := rfl
theorem plainConfig_tanh (x : Binary64) : plainConfig.tanh x = Const.zero := rfl
theorem zero_absLe_one : Const.zero.absLe Const.one = true := by decide +kernel

theorem witness_assumptions :
    PowOne plainConfig ∧ PowZero plainConfig ∧ PowUnit plainConfig ∧ PowMonotone plainConfig ∧
    SinBounded plainConfig ∧ TanhBounded plainConfig ∧ plainConfig.sin Const.zero = Const.zero := by
  refine ⟨fun e => plainConfig_pow _ e, fun e _ => plainConfig_pow _ e, fun b e hf h0 h1 _ => ?_,
    fun b c e _ h _ _ => ?_, fun x _ => ?_, fun x _ => ?_, plainConfig_sin _⟩
  · rw [plainConfig_pow]; exact ⟨hf, h0.le, h1⟩
  · rw [plainConfig_pow, plainConfig_pow]; exact h
  · rw [plainConfig_sin]; exact zero_absLe_one
  · rw [plainConfig_tanh]; exact zero_absLe_one

/-- A constructed block at an index is well-formed once as many samples have been emitted. -/
def grown (v : Variant) (n : Nat) (gate : Bool) (cursor : BitVec 15) : State :=
  { atIndex v n gate with sampleOut := List.replicate n Const.zero, delayWriteIndex := cursor }

theorem grown_wf {v : Variant} {n : Nat} {gate : Bool} {cursor : BitVec 15} (hn : n ≤ 2 ^ 53)
    (hc : cursor.toNat < 18000) : (grown v n gate cursor).Wf := by
  have h64 : (BitVec.ofNat 64 n).toNat = n := by
    rw [BitVec.toNat_ofNat]; exact Nat.mod_eq_of_lt (by omega)
  refine ⟨rfl, hc, ?_, rfl, fun _ => rfl, nofun, by simp [grown, atIndex], fun _ => ?_, nofun, nofun⟩
  · show (BitVec.ofNat 64 n).toNat ≤ Const.indexLimit
    rw [h64]; exact hn
  · show (List.replicate n Const.zero).length = (BitVec.ofNat 64 n).toNat
    rw [h64, List.length_replicate]

theorem witness_wf_before_latch : (grown .basic 167999 false 0#15).Wf := grown_wf (by decide) (by decide)
theorem witness_wf_after_latch : (grown .withDelay 168001 true 1#15).Wf := grown_wf (by decide) (by decide)
theorem witness_wf_at_limit : (grown .basic (2 ^ 53) true 0#15).Wf := grown_wf (by decide) (by decide)

theorem witness_on_grid_before : (grown .basic 167999 false 0#15).OnGrid :=
  ⟨fun _ => by decide +kernel, fun _ => by decide +kernel, fun _ _ => rfl, fun _ _ => rfl⟩
theorem witness_on_grid_after : (grown .withDelay 168001 true 1#15).OnGrid :=
  ⟨fun _ => by decide +kernel, fun _ => by decide +kernel, nofun, by rintro - (h | h) <;> cases h⟩

theorem witness_phases : (grown .withDelay 168001 true 1#15).PhasesInUnit ∧
    (grown .withDelay 168001 true 1#15).kickPhase.inUnit = true ∧ (grown .withDelay 168001 true 1#15).DlyBounded :=
  ⟨⟨by decide +kernel, by decide +kernel, by decide +kernel, by decide +kernel⟩, by decide +kernel,
    fun _ => (by decide +kernel : Const.zero.absLe outputBound = true)⟩

/-- `StepKeepsWf`, `StepKeepsTheGrid`, `GateNeverReverts`, `SamplesAreOnlyAppended`, `LifecycleTransitions`,
`OnlyInitWritesVariant`, `PhasesStayInUnit` and `NothingWritesThePattern`: a well-formed Running state with a TICK
presented steps to a next state, across the latch. -/
theorem witness_step_across_the_latch :
    ∃ t, step { grown .withDelay 168000 false 0#15 with hostIn := [.command 0x02000000#32] } = .next t ∧
      t.chordGateEngaged = true :=
  ⟨_, nextOf_eq_some (Option.some_get (by decide +kernel)).symm, by decide +kernel⟩

/-- The same on the gate's other side, where the step reads the delay line. -/
theorem witness_step_after_the_latch :
    ∃ t, step { grown .withDelay 168001 true 1#15 with hostIn := [.command 0x02000000#32] } = .next t ∧
      t.delayWriteIndex = 2#15 :=
  ⟨_, nextOf_eq_some (Option.some_get (by decide +kernel)).symm, by decide +kernel⟩

/-- A tick has produced a sample. -/
def produces : TickResult → Bool
  | .produced _ _ => true
  | _ => false

theorem exists_of_produces {r : TickResult} (h : produces r = true) : ∃ v t, r = .produced v t := by
  cases r with
  | produced v t => exact ⟨v, t, rfl⟩
  | raised c => cases h
  | stopped f => cases h

/-- `OutputIsBounded`, `PhasesStayInUnit`: a tick with the plain configuration produces a sample. -/
theorem witness_tick_produces :
    ∃ v t, tickStep plainConfig (grown .withDelay 168001 true 1#15) = .produced v t :=
  exists_of_produces (by decide +kernel)

/-- `TickComputesOneSample`, `FillCompletes`, `FillEqualsTicks`: the conditions of completion, before the latch, past it
under each variant, and at the last index below the limit. -/
theorem witness_tick_conditions :
    (∀ s ∈ [atIndex .basic 0 false, atIndex .basic 168000 false, atIndex .withDelay 168001 true, atIndex .basic (2 ^ 53 - 1) true],
      s.lifecycle = .running ∧ s.datapathWritten = true ∧ s.delayWriteIndex.toNat < 18000 ∧
      s.sampleCount.toNat < 2 ^ 53 ∧ s.sampleCount.toNat + 1 ≤ 2 ^ 53) ∧
    gateAfter (atIndex .basic 167999 false) = false ∧ gateAfter (atIndex .basic 168000 false) = true ∧
    gateAfter (atIndex .withDelay 168000 false) = true := by decide +kernel

/-- `FaultsArePrecise`, `FaultChecksInOrder`, `TickComputesOneSample` past the limit, `FaultEntryWritesTwoRegisters`. -/
theorem witness_counter_range :
    (atIndex .basic (2 ^ 53) true).lifecycle = .running ∧ (atIndex .basic (2 ^ 53) true).datapathWritten = true ∧
    2 ^ 53 ≤ (atIndex .basic (2 ^ 53) true).sampleCount.toNat ∧
    (atIndex .basic (2 ^ 53 - 2) false).sampleCount.toNat + 2 = 2 ^ 53 ∧
    ∃ t, exec .tick (atIndex .basic (2 ^ 53) true) = .next t ∧ t.lifecycle = .faulted :=
  ⟨rfl, rfl, by decide +kernel, by decide +kernel, _,
    nextOf_eq_some (Option.some_get (by decide +kernel)).symm, by decide +kernel⟩

/-- `FaultEntryWritesTwoRegisters`, the FILL clause: a FILL that faults part-way. -/
theorem witness_fill_faults :
    ∃ t, exec (.fill 5) (atIndex .basic (2 ^ 53 - 2) false) = .next t ∧ t.lifecycle = .faulted :=
  ⟨_, nextOf_eq_some (Option.some_get (by decide +kernel)).symm, by decide +kernel⟩

/-- `TickFrame`, `BasicIgnoresTheDelayLine`, `VariantsAgreeBeforeTheLatch`, `FillFrame` and `FillBoundariesAreInvisible`:
TICK and FILL from a Running block give a next state that is Running. -/
theorem witness_tick_and_fill_complete :
    (∃ t, exec .tick (atIndex .basic 0 false) = .next t ∧ t.lifecycle = .running) ∧
    (∃ t, exec (.fill 2) (atIndex .basic 167998 false) = .next t ∧ t.lifecycle = .running ∧
      t.sampleCount.toNat = 168000) ∧
    (∃ t, exec (.fill 2) (atIndex .withDelay 167999 false) = .next t ∧ t.lifecycle = .running ∧
      t.delayWriteIndex = 1#15) :=
  ⟨⟨_, nextOf_eq_some (Option.some_get (by decide +kernel)).symm, by decide +kernel⟩,
    ⟨_, nextOf_eq_some (Option.some_get (by decide +kernel)).symm, by decide +kernel, by decide +kernel⟩,
    ⟨_, nextOf_eq_some (Option.some_get (by decide +kernel)).symm, by decide +kernel, by decide +kernel⟩⟩

/-- `FillBoundariesAreInvisible`: two FILLs in a row, the second faulting. -/
theorem witness_two_fills :
    ∃ t u, exec (.fill 1) (atIndex .basic (2 ^ 53 - 2) false) = .next t ∧ t.lifecycle = .running ∧
      exec (.fill 3) t = .next u ∧ u.lifecycle = .faulted :=
  ⟨_, _, nextOf_eq_some (Option.some_get (by decide +kernel)).symm, by decide +kernel,
    nextOf_eq_some (Option.some_get (by decide +kernel)).symm, by decide +kernel⟩

/-- `InitConstructsTheEngine`: each of its clauses' lifecycles. -/
theorem witness_init_lifecycles :
    State.reset.lifecycle = .unconstructed ∧ (atIndex .basic 0 false).lifecycle = .running ∧
    (raiseFault .illegalCommand State.reset).lifecycle = .faulted ∧ (44100 : Nat) ≠ 48000 := by decide

/-- `UnreachableReadsFault`: a Running block without values, and a cursor at 18 000. -/
theorem witness_unreachable_states :
    ({ State.reset with lifecycle := .running } : State).lifecycle = .running ∧
    ({ State.reset with lifecycle := .running } : State).datapathWritten = false ∧
    ({ atIndex .withDelay 168001 true with delayWriteIndex := 18000#15 } : State).lifecycle = .running ∧
    18000 ≤ ({ atIndex .withDelay 168001 true with delayWriteIndex := 18000#15 } : State).delayWriteIndex.toNat := by
  decide

/-- The statements about a queue: a reset, a command, an illegal word and nothing presented. -/
theorem witness_queues :
    ({ State.reset with hostIn := [.rst] } : State).hostIn = .rst :: [] ∧
    (∃ i, decode 0x0180BB80#32 = .ok i) ∧ (∃ e, decode 0x04000000#32 = .error e) ∧
    State.reset.hostIn = [] ∧ decode (encode (.init .basic 44100)) = .ok (.init .basic 44100) :=
  ⟨rfl, ⟨_, rfl⟩, ⟨_, rfl⟩, rfl, by decide⟩

/-- `OpcodeMapByMasks`: a word for each of its four clauses. -/
theorem witness_opcode_map :
    0x0180BB80#32 &&& 0xFF700000#32 = 0x01000000#32 ∧ 0x03FFFFFF#32 &&& 0xFF000000#32 = 0x03000000#32 ∧
    (0x0110BB80#32 &&& 0xFF700000#32 ≠ 0x01000000#32 ∧ 0x0110BB80#32 ≠ 0x02000000#32 ∧
      0x0110BB80#32 &&& 0xFF000000#32 ≠ 0x03000000#32) := by decide

/-- The statements about well-formed commands, at the largest operands. -/
theorem witness_wellFormed :
    WellFormed (.init .withDelay (2 ^ 20 - 1)) ∧ WellFormed .tick ∧ WellFormed (.fill (2 ^ 24 - 1)) := by decide

/-- `DelayCallReadsWritesAdvances`: the last cursor in range, and one out of range. -/
theorem witness_delay :
    Memory.wf [(0, Const.one), (17999, Const.half)] = true ∧ (17999#15).toNat < 18000 ∧ 18000 ≤ (18000#15).toNat := by
  decide +kernel

/-- The statements about an index (`ClockFollowsItsFormulas` among them): at 0, at a beat, at the latch and at the last index below the limit. -/
theorem witness_indexes : ∀ n ∈ [0, 24000, 168000, 2 ^ 53 - 1], n < 2 ^ 53 := by decide

/-- The statements about finite data: least subnormal, one, largest, and both signs. -/
theorem witness_finite :
    ∀ x ∈ [Binary64.fin false 0 1#52, Const.one, .fin true 2046 0xfffffffffffff#52, Binary64.zero true],
      x.isFinite = true := by decide +kernel
theorem witness_nonzero_divisor : Const.two.value ≠ 0 := by
  have h : Const.two.units = 2 * (unitsPerOne : Int) := by decide +kernel
  have h0 : (unitsPerOne : ℚ) ≠ 0 := by exact_mod_cast (by decide +kernel : unitsPerOne ≠ 0)
  rw [Binary64.value, h]
  push_cast
  field_simp
  norm_num

/-- `AdvanceStaysInUnit`, `AdvanceCornerCases`, `EnvelopeDecays`: the largest phase below 1 and a positive frequency. -/
theorem witness_phase :
    (Binary64.fin false 1022 0xfffffffffffff#52).inUnit = true ∧ Const.fifty.isFinite = true ∧ 0 ≤ Const.fifty.units ∧
    Const.zero.lt Const.three = true ∧ Const.zero.inUnit = true ∧
    Const.zero.units ≤ (Binary64.fin false 1022 0xfffffffffffff#52).units := by decide +kernel

/-- `AdvanceCornerCases`: a sum of exactly 1.0, a sum in [1, 2) and a negative sum, by their units. -/
theorem witness_advance_corners :
    ((Binary64.ofRatio 3 4).add ((Binary64.ofNat 12000).mul Const.dt)).ieeeEq Const.one = true ∧
    (let x := Const.zero.add ((Binary64.ofNat 72000).mul Const.dt)
     x.isFinite = true ∧ (unitsPerOne : Int) ≤ x.units ∧ x.units < 2 * (unitsPerOne : Int)) ∧
    ((Binary64.ofRatio 1 4).add ((Binary64.ofNat 24000).neg.mul Const.dt)).units < 0 := by decide +kernel

/-- `GateZeroSilencesTheDryChord`: step 13 with the gate on, under each variant. -/
theorem witness_gate_zero :
    (∀ v ∈ [Variant.basic, .withDelay],
      (atIndex v 174000 true).pat[(clock 174000).step] = false ∧
      (match chordVoice plainConfig (clock 174000) true (atIndex v 174000 true) with
        | .ok r => ((chordTimbre plainConfig r.chordPhase).mul
            (env plainConfig (clock 174000).sixteenthFraction Const.chordEnvAmp Const.three)).isFinite
        | .error _ => false) = true) := by decide +kernel

/-- `FaultEntryWritesTwoRegisters`: an illegal word, and a command, that take a block into Faulted. -/
theorem witness_fault_entries :
    (∃ t, step { atIndex .basic 0 false with hostIn := [.command 0#32] } = .next t ∧ t.faultCode = .illegalCommand) ∧
    (∃ t, exec (.init .basic 48000) (atIndex .basic 0 false) = .next t ∧ t.lifecycle = .faulted ∧
      t.faultCode = .alreadyConstructed) :=
  ⟨⟨_, nextOf_eq_some (Option.some_get (by decide +kernel)).symm, by decide +kernel⟩,
    ⟨_, nextOf_eq_some (Option.some_get (by decide +kernel)).symm, by decide +kernel, by decide +kernel⟩⟩

/-- `AssembledWordsAreCommands`: a text the assembler accepts, and the largest accepted and the least refused operands. -/
theorem witness_assembled : assemble ['T', 'I', 'C', 'K'] = some [0x02000000#32] := by decide +kernel
theorem witness_assembler_bounds :
    (AsmLine.init .basic (2 ^ 20 - 1)).commands = some [.init .basic 1048575] ∧
    (AsmLine.init .withDelay (2 ^ 20)).commands = none ∧
    (AsmLine.fill (2 ^ 24 - 1)).commands = some [.fill 16777215] ∧ (AsmLine.fill (2 ^ 24)).commands = none ∧
    encode (.init .withDelay (2 ^ 20 - 1)) = 0x018FFFFF#32 ∧ encode (.fill (2 ^ 24 - 1)) = 0x03FFFFFF#32 := by decide

/-- `RunExpandsToItsSamples`: the largest count of one FILL, the least that needs two, and R79's two examples. -/
theorem witness_run_bounds :
    runFills (2 ^ 24 - 1) = [.fill 16777215] ∧ runFills (2 ^ 24) = [.fill 16777215, .fill 1] ∧
    (AsmLine.run 3500).commands = some [.fill 168000] ∧ (AsmLine.run 375).commands = some [.fill 18000] := by
  decide +kernel

/-- `AssemblerReadsItsText`: an integer in each base, at and past the bounds, and a RUN with three and with four fractional
digits. -/
theorem witness_assembler_text :
    readInteger ['1', '6', '7', '7', '7', '2', '1', '5'] = some (2 ^ 24 - 1) ∧
    readInteger ['0', 'x', '1', '0', '0', '0', '0', '0', '0'] = some (2 ^ 24) ∧
    assemble ['R', 'U', 'N', ' ', '0', '.', '3', '7', '5'] = some [0x03004650#32] ∧
    assemble ['R', 'U', 'N', ' ', '0', '.', '3', '7', '5', '0'] = none := by decide +kernel

/-- `EnvelopeIsPowerDecay`: 0.5, the least `t` at which `1.0 - t` is said not to round. -/
theorem witness_half : Const.half.isFinite = true ∧ Const.half.inUnit = true ∧ 1 / 2 ≤ Const.half.value ∧
    Const.half.value < 1 := by
  have h : 2 * Const.half.units = (unitsPerOne : Int) := by decide +kernel
  have h0 : (unitsPerOne : ℚ) ≠ 0 := by exact_mod_cast (by decide +kernel : unitsPerOne ≠ 0)
  have h1 : Const.half.value = 1 / 2 := by
    have hq : 2 * (Const.half.units : ℚ) = (unitsPerOne : ℚ) := by exact_mod_cast h
    rw [Binary64.value, div_eq_iff h0, ← hq]
    ring
  rw [h1]
  exact ⟨by decide +kernel, by decide +kernel, le_rfl, by norm_num⟩

end Sys2Proof.Tests
end

/-! SUPPORT. Rounding once: `Binary64.round` meets the specification `RoundedOnce` (00_scope.md R8). -/

namespace Sys2Proof

/-! ### Signs and values -/

/-- A rational with the sign of a sign bit. -/
def signed (neg : Bool) (q : ℚ) : ℚ := if neg then -q else q

@[simp] theorem signed_true (q : ℚ) : signed true q = -q := rfl
@[simp] theorem signed_false (q : ℚ) : signed false q = q := rfl

@[simp] theorem abs_signed (neg : Bool) (q : ℚ) : |signed neg q| = |q| := by cases neg <;> simp

theorem signed_mul_signed (m n : Bool) (p q : ℚ) : signed m p * signed n q = signed (m != n) (p * q) := by
  cases m <;> cases n <;> simp

theorem signed_div_signed (m n : Bool) (p q : ℚ) : signed m p / signed n q = signed (m != n) (p / q) := by
  cases m <;> cases n <;> simp [neg_div, div_neg]

theorem signed_div (neg : Bool) (p q : ℚ) : signed neg (p / q) = signed neg p / q := by
  cases neg <;> simp [neg_div]

theorem unitsPerOne_pos : 0 < unitsPerOne := by unfold unitsPerOne; positivity

theorem cast_unitsPerOne_pos : (0 : ℚ) < unitsPerOne := Nat.cast_pos.2 unitsPerOne_pos

namespace Binary64

variable {x y : Binary64}

theorem value_eq_signed (x : Binary64) : x.value = signed x.isNeg (x.magnitude / unitsPerOne) := by
  cases h : x.isNeg
  · rw [value, units, h, if_neg Bool.false_ne_true, Int.cast_natCast, signed_false]
  · rw [value, units, h, if_pos rfl, Int.cast_neg, Int.cast_natCast, neg_div, signed_true]

theorem abs_value (x : Binary64) : |x.value| = x.magnitude / unitsPerOne := by
  rw [value_eq_signed, abs_signed, abs_of_nonneg (div_nonneg (Nat.cast_nonneg _) cast_unitsPerOne_pos.le)]

theorem value_eq_zero_iff : x.value = 0 ↔ x.magnitude = 0 := by
  rw [← abs_eq_zero, abs_value, div_eq_zero_iff, or_iff_left cast_unitsPerOne_pos.ne', Nat.cast_eq_zero]

@[simp] theorem value_zero (neg : Bool) : (zero neg).value = 0 := value_eq_zero_iff.2 rfl

theorem value_le_value_iff : x.value ≤ y.value ↔ x.units ≤ y.units := by
  rw [value, value, div_le_div_iff_of_pos_right cast_unitsPerOne_pos, Int.cast_le]

theorem value_lt_value_iff : x.value < y.value ↔ x.units < y.units := by
  rw [value, value, div_lt_div_iff_of_pos_right cast_unitsPerOne_pos, Int.cast_lt]

theorem value_eq_value_iff : x.value = y.value ↔ x.units = y.units := by
  rw [value, value, div_left_inj' cast_unitsPerOne_pos.ne', Int.cast_inj]

end Binary64

/-! ### The overflow bound -/

theorem overflowBound_pos : 0 < overflowBound := sub_pos.2 (pow_lt_pow_right₀ one_lt_two (by decide))

/-- A ratio rounds to at most an odd code exactly below the middle to the next: a tie there goes up. -/
theorem roundCode_le_iff_of_odd {a b c : Nat} (hb : 0 < b) (hc : c % 2 = 1) :
    roundCode a b ≤ c ↔ 2 * a < (codeMag c + codeMag (c + 1)) * b := by
  constructor
  · intro hle
    obtain ⟨u1, u2⟩ := roundCode_mid_hi (a := a) hb
    have hsum := Nat.mul_le_mul_right b
      (Nat.add_le_add (codeMag_le_iff.2 hle) (codeMag_le_iff.2 (Nat.add_le_add_right hle 1)))
    refine lt_of_le_of_ne (u1.trans hsum) fun e => ?_
    have heven := u2 (le_antisymm u1 (hsum.trans e.ge))
    have hlt : roundCode a b < c := by omega
    have := Nat.mul_lt_mul_of_pos_right
      (Nat.add_lt_add (codeMag_lt_iff.2 hlt) (codeMag_lt_iff.2 (Nat.add_lt_add_right hlt 1))) hb
    omega
  · intro h
    by_contra hgt
    obtain ⟨l1, -⟩ := roundCode_mid_lo (a := a) hb (by omega)
    have := Nat.mul_le_mul_right b (Nat.add_le_add
      (codeMag_le_iff.2 (show c ≤ roundCode a b - 1 by omega))
      (codeMag_le_iff.2 (show c + 1 ≤ roundCode a b by omega)))
    omega

/-- The bound is the middle of the largest finite magnitude and the next code's. -/
theorem codeMag_add_codeMag_top {c : Nat} (hc : c = 2047 * 2 ^ 52 - 1) :
    ((codeMag c + codeMag (c + 1) : ℕ) : ℚ) = 2 * overflowBound * unitsPerOne := by
  have h1 : codeMag c = (2 ^ 53 - 1) * 2 ^ 2045 := by
    rw [show c = 2045 * 2 ^ 52 + (2 ^ 53 - 1) by omega, codeMag_scaled (by omega) (.inr (by omega))]
  have h2 : codeMag (c + 1) = 2 ^ 52 * 2 ^ 2046 := by
    rw [show c + 1 = 2046 * 2 ^ 52 + 2 ^ 52 by omega, codeMag_scaled (by omega) (.inr le_rfl)]
  have e1 : (2 : ℚ) ^ 2045 = 2 * (2 ^ 970 * 2 ^ 1074) := by rw [← pow_add, ← pow_succ']
  have e2 : (2 : ℚ) ^ 2046 = 2 * 2 ^ 2045 := pow_succ' 2 2045
  have e3 : (2 : ℚ) ^ 1024 = 2 ^ 54 * 2 ^ 970 := by rw [← pow_add]
  rw [h1, h2, overflowBound, unitsPerOne]
  simp only [Nat.cast_add, Nat.cast_mul, Nat.cast_pow, Nat.cast_ofNat]
  rw [e2, e1, e3]
  generalize (2 : ℚ) ^ 970 = p
  generalize (2 : ℚ) ^ 1074 = q
  norm_num
  ring

/-- A ratio rounds to a finite code exactly below the overflow bound. -/
theorem roundCode_lt_iff {a b : Nat} (hb : 0 < b) :
    roundCode a b < 2047 * 2 ^ 52 ↔ (a : ℚ) / (b * unitsPerOne) < overflowBound := by
  obtain ⟨c, hc⟩ : ∃ c, c = 2047 * 2 ^ 52 - 1 := ⟨_, rfl⟩
  have hbU : (0 : ℚ) < b * unitsPerOne := mul_pos (Nat.cast_pos.2 hb) cast_unitsPerOne_pos
  calc roundCode a b < 2047 * 2 ^ 52 ↔ roundCode a b ≤ c := by omega
    _ ↔ 2 * a < (codeMag c + codeMag (c + 1)) * b := roundCode_le_iff_of_odd hb (by omega)
    _ ↔ (2 * a : ℚ) < 2 * overflowBound * unitsPerOne * b := by
      rw [← codeMag_add_codeMag_top hc]; norm_cast
    _ ↔ (a : ℚ) / (b * unitsPerOne) < overflowBound := by
      rw [div_lt_iff₀ hbU]; constructor <;> intro h <;> linarith

/-! ### Rounded once -/

namespace Binary64

theorem isFinite_round_iff {neg : Bool} {a b : Nat} :
    (round neg a b).isFinite = true ↔ roundCode a b < 2047 * 2 ^ 52 := by
  refine ⟨fun h => ?_, fun h => (pack_of_lt h).1⟩
  by_contra hge
  rw [round, pack_of_le (by omega)] at h
  exact absurd h Bool.false_ne_true

theorem evenFraction_of_code {x : Binary64} (h : x.code % 2 = 0) : x.evenFraction = true := by
  cases x with
  | fin neg exp frac =>
    have hf : frac.toNat % 2 = 0 := by simp only [code] at h; omega
    simp [evenFraction, BitVec.getLsbD, hf]
  | inf neg => rfl
  | nan => rfl

/-- How far a finite datum's magnitude lies from a ratio, over the ratio's denominator. -/
theorem abs_abs_value_sub (x : Binary64) {a b : Nat} (hb : 0 < b) :
    |(|x.value|) - a / (b * unitsPerOne)| =
      ((|((codeMag x.code * b : ℕ) : ℤ) - a| : ℤ) : ℚ) / (b * unitsPerOne) := by
  have hU := cast_unitsPerOne_pos
  have hb' : (0 : ℚ) < b := Nat.cast_pos.2 hb
  have hbU : (0 : ℚ) < b * unitsPerOne := mul_pos hb' hU
  have h : ((x.magnitude : ℚ) / unitsPerOne - a / (b * unitsPerOne)) * (b * unitsPerOne) = x.magnitude * b - a := by
    generalize (unitsPerOne : ℚ) = U at *
    field_simp
  rw [abs_value, eq_div_iff hbU.ne', ← abs_of_pos hbU, ← abs_mul, abs_of_pos hbU, h, magnitude_eq_codeMag]
  push_cast
  rfl

/-- Of the data with finite codes, none has a magnitude nearer to a ratio than its rounding has, and where another is as
near the rounding is even. -/
theorem round_nearest_magnitude {neg : Bool} {a b : Nat} (hb : 0 < b) (hf : (round neg a b).isFinite = true)
    (z : Binary64) :
    |(|(round neg a b).value|) - a / (b * unitsPerOne)| ≤ |(|z.value|) - a / (b * unitsPerOne)| ∧
    (|(|(round neg a b).value|) - a / (b * unitsPerOne)| = |(|z.value|) - a / (b * unitsPerOne)| →
      |z.value| ≠ |(round neg a b).value| → (round neg a b).evenFraction = true) := by
  have hbU : (0 : ℚ) < b * unitsPerOne := mul_pos (Nat.cast_pos.2 hb) cast_unitsPerOne_pos
  have hcode : (round neg a b).code = roundCode a b := (pack_of_lt (isFinite_round_iff.1 hf)).2.1
  obtain ⟨hle, htie⟩ := roundCode_nearest (a := a) hb z.code
  rw [← hcode] at hle htie
  rw [abs_abs_value_sub _ hb, abs_abs_value_sub _ hb, div_le_div_iff_of_pos_right hbU, Int.cast_le,
    div_left_inj' hbU.ne', Int.cast_inj]
  refine ⟨hle, fun e hne => evenFraction_of_code (htie e fun hc => hne ?_)⟩
  rw [abs_value, abs_value, magnitude_eq_codeMag, magnitude_eq_codeMag, hc]

end Binary64

/-- A number `r` of the sign of `q` whose magnitude is nearest to that of `q` is nearest to `q`; whatever else is as
near has another magnitude, as near to that of `q`. -/
theorem abs_sub_nearest {r z q : ℚ} (hs : 0 ≤ r * q) (h0 : q = 0 → r = 0)
    (h : |(|r|) - (|q|)| ≤ |(|z|) - (|q|)|) :
    |r - q| ≤ |z - q| ∧
    (|z - q| = |r - q| → z ≠ r → |(|r|) - (|q|)| = |(|z|) - (|q|)| ∧ |z| ≠ |r|) := by
  have hr : |r - q| = |(|r|) - (|q|)| := by
    rcases mul_nonneg_iff.1 hs with ⟨h1, h2⟩ | ⟨h1, h2⟩
    · rw [abs_of_nonneg h1, abs_of_nonneg h2]
    · rw [abs_of_nonpos h1, abs_of_nonpos h2, neg_sub_neg, abs_sub_comm]
  have hz : |(|z|) - (|q|)| ≤ |z - q| := abs_abs_sub_abs_le_abs_sub z q
  refine ⟨hr ▸ h.trans hz, fun e hne => ⟨le_antisymm h (hz.trans (e.trans hr).le), fun habs => hne ?_⟩⟩
  rcases abs_eq_abs.1 habs with rfl | rfl
  · rfl
  · have hrq : r * q = 0 := by
      have := sq_eq_sq_iff_abs_eq_abs (-r - q) (r - q) |>.2 e
      linarith
    rcases mul_eq_zero.1 hrq with rfl | hq
    · exact neg_zero
    · rw [h0 hq, neg_zero]

section SignedRatio

variable (neg : Bool) {a b : Nat} (hb : 0 < b)
include hb

theorem ratio_nonneg : (0 : ℚ) ≤ a / (b * unitsPerOne) :=
  div_nonneg (Nat.cast_nonneg a) (mul_pos (Nat.cast_pos.2 hb) cast_unitsPerOne_pos).le

theorem abs_signed_ratio : |signed neg (a / (b * unitsPerOne))| = a / (b * unitsPerOne) := by
  rw [abs_signed, abs_of_nonneg (ratio_nonneg hb)]

/-- A rounded ratio keeps its sign. -/
theorem value_round_mul_nonneg (hf : (Binary64.round neg a b).isFinite = true) :
    0 ≤ (Binary64.round neg a b).value * signed neg (a / (b * unitsPerOne)) := by
  have hsign : (Binary64.round neg a b).isNeg = neg := (Binary64.pack_of_lt (Binary64.isFinite_round_iff.1 hf)).2.2
  rw [Binary64.value_eq_signed, hsign, signed_mul_signed, bne_self_eq_false, signed_false]
  exact mul_nonneg (div_nonneg (Nat.cast_nonneg _) cast_unitsPerOne_pos.le) (ratio_nonneg hb)

/-- From the overflow bound on, a ratio rounds to the infinity of its sign. -/
theorem round_eq_inf (h : overflowBound ≤ a / (b * unitsPerOne)) :
    Binary64.round neg a b = .inf (decide (signed neg (a / (b * unitsPerOne)) < 0)) := by
  have hcode : 2047 * 2 ^ 52 ≤ roundCode a b := by rwa [← not_lt, roundCode_lt_iff hb, not_lt]
  have hpos : (0 : ℚ) < a / (b * unitsPerOne) := overflowBound_pos.trans_le h
  rw [Binary64.round, Binary64.pack_of_le hcode]
  cases neg
  · rw [signed_false, decide_eq_false hpos.not_gt]
  · rw [signed_true, decide_eq_true (neg_lt_zero.2 hpos)]

/-- Rounding a ratio of units under a sign is rounding that signed number once. -/
theorem roundedOnce_round : RoundedOnce (signed neg (a / (b * unitsPerOne))) (Binary64.round neg a b) := by
  unfold RoundedOnce
  split
  · rename_i hlt
    rw [abs_signed_ratio neg hb, ← roundCode_lt_iff hb] at hlt
    have hf : (Binary64.round neg a b).isFinite = true := Binary64.isFinite_round_iff.2 hlt
    have hmag := Binary64.round_nearest_magnitude hb hf
    rw [← abs_signed_ratio neg hb] at hmag
    have h0 : signed neg (a / (b * unitsPerOne)) = 0 → (Binary64.round neg a b).value = 0 := fun hq0 => by
      have := (hmag (Binary64.zero false)).1
      rw [hq0] at this
      simpa [Binary64.value_zero] using this
    have hnear := fun z => abs_sub_nearest (value_round_mul_nonneg neg hb hf) h0 (hmag z).1
    refine ⟨hf, fun z _ => (hnear z).1, fun z _ e hne => ?_⟩
    obtain ⟨htie, habs⟩ := (hnear z).2 e hne
    exact (hmag z).2 htie habs
  · rename_i hge
    rw [abs_signed_ratio neg hb, not_lt] at hge
    exact round_eq_inf neg hb hge

end SignedRatio

end Sys2Proof

/-! CERTIFICATE O28. The four operations round once (00_scope.md R8). -/

namespace Sys2Proof

/-! ### Each operation rounds once -/

namespace Binary64

variable {x y : Binary64}

theorem isFinite_iff : x.isFinite = true ↔ ∃ neg exp frac, x = .fin neg exp frac := by
  cases x <;> simp [isFinite]

@[simp] theorem isFinite_neg (x : Binary64) : x.neg.isFinite = x.isFinite := by cases x <;> rfl

@[simp] theorem units_neg (x : Binary64) : x.neg.units = -x.units := by
  cases x with
  | fin neg exp frac =>
    cases neg
    · rfl
    · exact (neg_neg _).symm
  | inf neg => cases neg <;> rfl
  | nan => rfl

@[simp] theorem value_neg (x : Binary64) : x.neg.value = -x.value := by
  rw [value, value, units_neg, Int.cast_neg, neg_div]

theorem round_zero (neg : Bool) : round neg 0 1 = zero neg := by
  have h : roundCode 0 1 = 0 := by simpa [codeMag] using roundCode_exact (c := 0) one_pos
  rw [round, h]
  rfl

/-- Rounding an integer rounds its magnitude under its sign, an exact zero under the sign given for it. -/
theorem roundInt_eq_round (zeroNeg : Bool) (z : Int) :
    roundInt zeroNeg z = round (if z = 0 then zeroNeg else decide (z < 0)) z.natAbs 1 := by
  unfold roundInt
  split
  · subst_vars; exact (round_zero zeroNeg).symm
  · rfl

theorem signed_natAbs (zeroNeg : Bool) (z : Int) :
    signed (if z = 0 then zeroNeg else decide (z < 0)) z.natAbs = z := by
  rw [Nat.cast_natAbs]
  rcases lt_trichotomy z 0 with h | rfl | h
  · rw [if_neg h.ne, decide_eq_true h, signed_true, abs_of_neg h, Int.cast_neg, neg_neg]
  · cases zeroNeg <;> simp
  · rw [if_neg h.ne', decide_eq_false h.not_gt, signed_false, abs_of_pos h]

theorem roundedOnce_roundInt (zeroNeg : Bool) (z : Int) :
    RoundedOnce (z / unitsPerOne) (roundInt zeroNeg z) := by
  have h := roundedOnce_round (if z = 0 then zeroNeg else decide (z < 0)) (a := z.natAbs) one_pos
  rw [Nat.cast_one, one_mul, signed_div, signed_natAbs] at h
  rwa [roundInt_eq_round]

theorem roundedOnce_add (hx : x.isFinite = true) (hy : y.isFinite = true) :
    RoundedOnce (x.value + y.value) (x.add y) := by
  obtain ⟨a, e, f, rfl⟩ := isFinite_iff.1 hx
  obtain ⟨b, e', f', rfl⟩ := isFinite_iff.1 hy
  rw [value, value, ← add_div, ← Int.cast_add]
  exact roundedOnce_roundInt _ _

theorem roundedOnce_sub (hx : x.isFinite = true) (hy : y.isFinite = true) :
    RoundedOnce (x.value - y.value) (x.sub y) := by
  rw [sub_eq_add_neg, ← value_neg]
  exact roundedOnce_add hx (by rwa [isFinite_neg])

theorem roundedOnce_mul (hx : x.isFinite = true) (hy : y.isFinite = true) :
    RoundedOnce (x.value * y.value) (x.mul y) := by
  obtain ⟨a, e, f, rfl⟩ := isFinite_iff.1 hx
  obtain ⟨b, e', f', rfl⟩ := isFinite_iff.1 hy
  rw [value_eq_signed, value_eq_signed, signed_mul_signed, div_mul_div_comm, ← Nat.cast_mul]
  exact roundedOnce_round _ unitsPerOne_pos

theorem roundedOnce_div (hx : x.isFinite = true) (hy : y.isFinite = true) (h0 : y.value ≠ 0) :
    RoundedOnce (x.value / y.value) (x.div y) := by
  have hm : y.magnitude ≠ 0 := mt value_eq_zero_iff.2 h0
  obtain ⟨a, e, f, rfl⟩ := isFinite_iff.1 hx
  obtain ⟨b, e', f', rfl⟩ := isFinite_iff.1 hy
  have hdiv : (fin a e f).div (fin b e' f') =
    round (a != b) ((fin a e f).magnitude * unitsPerOne) (fin b e' f').magnitude := if_neg hm
  have h := roundedOnce_round (a != b) (a := (fin a e f).magnitude * unitsPerOne) (Nat.pos_of_ne_zero hm)
  rw [Nat.cast_mul, mul_div_mul_right _ _ cast_unitsPerOne_pos.ne'] at h
  rw [hdiv, value_eq_signed, value_eq_signed, signed_div_signed,
    div_div_div_cancel_right₀ cast_unitsPerOne_pos.ne']
  exact h

end Binary64

/-- Settles O28: each operation is one `round` of an exact ratio of units. -/
theorem eachOperationRoundsOnce : Obligations.EachOperationRoundsOnce := fun _ _ hx hy =>
  ⟨Binary64.roundedOnce_add hx hy, Binary64.roundedOnce_sub hx hy, Binary64.roundedOnce_mul hx hy,
    Binary64.roundedOnce_div hx hy⟩

end Sys2Proof

/-! SUPPORT and CERTIFICATE O32. What follows from being rounded once, and which numbers rounding leaves as they are: the
later proofs reason with values and cite these. -/

namespace Sys2Proof

/-! ### What is known of a number rounded once -/

/-- The value of some finite datum. -/
def Representable (q : ℚ) : Prop := ∃ z : Binary64, z.isFinite = true ∧ z.value = q

theorem Binary64.abs_value_lt_overflowBound {x : Binary64} (h : x.isFinite = true) : |x.value| < overflowBound := by
  have hc := (roundCode_lt_iff (a := x.magnitude) one_pos).1 (Binary64.isFinite_round_iff.1
    ((Binary64.round_magnitude h).symm ▸ h))
  rwa [Nat.cast_one, one_mul, ← Binary64.abs_value] at hc

namespace RoundedOnce

variable {q : ℚ} {r z : Binary64}

theorem isFinite (h : RoundedOnce q r) (hq : |q| < overflowBound) : r.isFinite = true := by
  rw [RoundedOnce, if_pos hq] at h
  exact h.1

theorem nearest (h : RoundedOnce q r) (hr : r.isFinite = true) (hz : z.isFinite = true) :
    |r.value - q| ≤ |z.value - q| := by
  by_cases hq : |q| < overflowBound
  · rw [RoundedOnce, if_pos hq] at h
    exact h.2.1 z hz
  · rw [RoundedOnce, if_neg hq] at h
    subst h
    exact absurd hr Bool.false_ne_true

/-- A finite lower bound of the exact number bounds the rounded one. -/
theorem le_value (h : RoundedOnce q r) (hr : r.isFinite = true) (hz : z.isFinite = true) (hzq : z.value ≤ q) :
    z.value ≤ r.value := by
  by_contra hlt
  have := h.nearest hr hz
  rw [abs_of_nonpos (by linarith), abs_of_nonpos (by linarith)] at this
  linarith

/-- A finite upper bound of the exact number bounds the rounded one. -/
theorem value_le (h : RoundedOnce q r) (hr : r.isFinite = true) (hz : z.isFinite = true) (hzq : q ≤ z.value) :
    r.value ≤ z.value := by
  by_contra hlt
  have := h.nearest hr hz
  rw [abs_of_nonneg (by linarith), abs_of_nonneg (by linarith)] at this
  linarith

/-- A representable number is not changed by rounding. -/
theorem exact_of_representable (h : RoundedOnce q r) (hq : Representable q) : r.isFinite = true ∧ r.value = q := by
  obtain ⟨z, hz, rfl⟩ := hq
  have hr := h.isFinite (Binary64.abs_value_lt_overflowBound hz)
  exact ⟨hr, le_antisymm (h.value_le hr hz le_rfl) (h.le_value hr hz le_rfl)⟩

/-- A number between two representable ones rounds to a finite datum between them. -/
theorem mem_Icc {lo hi : ℚ} (h : RoundedOnce q r) (hlo : Representable lo) (hhi : Representable hi)
    (hq : lo ≤ q ∧ q ≤ hi) : r.isFinite = true ∧ lo ≤ r.value ∧ r.value ≤ hi := by
  obtain ⟨x, hx, rfl⟩ := hlo
  obtain ⟨y, hy, rfl⟩ := hhi
  have hr := h.isFinite (abs_lt.2
    ⟨(abs_lt.1 (Binary64.abs_value_lt_overflowBound hx)).1.trans_le hq.1,
      hq.2.trans_lt (abs_lt.1 (Binary64.abs_value_lt_overflowBound hy)).2⟩)
  exact ⟨hr, h.le_value hr hx hq.1, h.value_le hr hy hq.2⟩

end RoundedOnce

/-! ### Which numbers are representable -/

/-- Every significand up to and including the carry has a code at every scale. -/
theorem exists_codeMag_eq {m : Nat} (hm : m ≤ 2 ^ 53) (k : Nat) :
    ∃ c, codeMag c = m * 2 ^ k ∧ c ≤ k * 2 ^ 52 + 2 ^ 53 := by
  induction k generalizing m with
  | zero => exact ⟨m, by simpa using codeMag_scaled (k := 0) hm (.inl rfl), by omega⟩
  | succ k ih =>
    by_cases h : 2 ^ 52 ≤ m
    · exact ⟨(k + 1) * 2 ^ 52 + m, codeMag_scaled (k := k + 1) hm (.inr h), by omega⟩
    · obtain ⟨c, hc, hle⟩ := ih (m := m * 2) (by omega)
      exact ⟨c, by rw [hc, pow_succ', mul_assoc], hle.trans (by gcongr; exact k.le_succ)⟩

/-- A number of units with at most 53 bits is representable. -/
theorem representable_of_natAbs {z : Int} {m k : Nat} (hz : z.natAbs = m * 2 ^ k) (hm : m ≤ 2 ^ 53)
    (hk : k ≤ 2044) : Representable (z / unitsPerOne) := by
  obtain ⟨c, hc, hle⟩ := exists_codeMag_eq hm k
  obtain ⟨hf, hcode, hneg⟩ := Binary64.pack_of_lt (neg := decide (z < 0)) (c := c) (by omega)
  have hu : (Binary64.pack (decide (z < 0)) c).units = z := by
    rw [Binary64.units, Binary64.magnitude_eq_codeMag, hcode, hneg, hc, ← hz]
    by_cases h : z < 0
    · rw [if_pos (decide_eq_true h)]; omega
    · rw [if_neg (by simpa using h)]; omega
  exact ⟨_, hf, by rw [Binary64.value, hu]⟩

/-- A dyadic of at most 53 bits, no finer than a unit, is representable. -/
theorem representable_dyadic {q : ℚ} {n : Int} {k : Nat} (hq : q = n / 2 ^ k) (hn : n.natAbs ≤ 2 ^ 53)
    (hk : k ≤ 1074) : Representable q := by
  have h := representable_of_natAbs (z := n * (2 ^ (1074 - k) : ℕ)) (by rw [Int.natAbs_mul, Int.natAbs_natCast]) hn
    (by omega)
  have hU : ((unitsPerOne : ℕ) : ℚ) = 2 ^ k * 2 ^ (1074 - k) := by
    rw [unitsPerOne, ← pow_add, Nat.add_sub_cancel' hk, Nat.cast_pow, Nat.cast_ofNat]
  rwa [hU, Int.cast_mul, Int.cast_natCast, Nat.cast_pow, Nat.cast_ofNat, mul_div_mul_right _ _ (by positivity),
    ← hq] at h

theorem representable_int {n : Int} (hn : n.natAbs ≤ 2 ^ 53) : Representable n :=
  representable_dyadic (k := 0) (by rw [pow_zero, div_one]) hn (Nat.zero_le 1074)

theorem representable_nat {n : Nat} (hn : n ≤ 2 ^ 53) : Representable n := representable_int (n := n) hn

/-! ### Literals and conversions -/

namespace Binary64

theorem roundedOnce_ofRatio (a : Nat) {b : Nat} (hb : 0 < b) : RoundedOnce (a / b) (ofRatio a b) := by
  have h := roundedOnce_round false (a := a * unitsPerOne) hb
  rwa [Nat.cast_mul, mul_div_mul_right _ _ cast_unitsPerOne_pos.ne', signed_false] at h

/-- A literal that equals a dyadic of at most 53 bits is exact. -/
theorem ofRatio_exact {a b m k : Nat} (hb : 0 < b) (h : a * 2 ^ k = m * b) (hm : m ≤ 2 ^ 53) (hk : k ≤ 1074) :
    (ofRatio a b).isFinite = true ∧ (ofRatio a b).value = a / b := by
  refine (roundedOnce_ofRatio a hb).exact_of_representable ?_
  have hab : (a : ℚ) / b = ((m : ℤ) : ℚ) / 2 ^ k := by
    rw [div_eq_div_iff (Nat.cast_pos.2 hb).ne' (by positivity)]
    exact_mod_cast h
  exact representable_dyadic hab hm hk

theorem ofNat_exact {n : Nat} (hn : n ≤ 2 ^ 53) : (ofNat n).isFinite = true ∧ (ofNat n).value = n := by
  have h := ofRatio_exact (a := n) (k := 0) one_pos (by rw [pow_zero]) hn (Nat.zero_le _)
  rwa [Nat.cast_one, div_one] at h

/-- The integer part of a finite datum's units is the floor of its value. -/
theorem units_ediv_unitsPerOne (x : Binary64) : x.units / (unitsPerOne : ℤ) = ⌊x.value⌋ :=
  (Rat.floor_intCast_div_natCast _ _).symm

theorem toNat_eq_toNat_floor (x : Binary64) : x.toNat = ⌊x.value⌋.toNat := by
  rw [toNat, units_ediv_unitsPerOne]

theorem toNat_ofNat {n : Nat} (hn : n ≤ 2 ^ 53) : (ofNat n).toNat = n := by
  rw [toNat_eq_toNat_floor, (ofNat_exact hn).2, Int.floor_natCast, Int.toNat_natCast]

end Binary64

/-- Settles O32: both conversions rest on `ofNat` being exact. -/
theorem conversionsAreExact : Obligations.ConversionsAreExact := fun _ hn =>
  ⟨(Binary64.ofNat_exact hn.le).1, (Binary64.ofNat_exact hn.le).2, Binary64.toNat_ofNat hn.le⟩

end Sys2Proof

/-! CERTIFICATES O29 and O31. Rounding to an integer (00_scope.md R9) and comparisons (R12), by values. -/

namespace Sys2Proof

/-! ### Rounding to an integer -/

namespace Binary64

variable {x : Binary64}

theorem natAbs_units (x : Binary64) : x.units.natAbs = x.magnitude := by
  unfold units; split <;> omega

/-- Every finite magnitude is a significand of 53 bits at a scale. -/
theorem exists_magnitude_eq (x : Binary64) : ∃ m k, x.magnitude = m * 2 ^ k ∧ m < 2 ^ 53 := by
  obtain ⟨k, m, hc, hm, hk⟩ := code_scaled x.code
  exact ⟨m, k, by rw [magnitude_eq_codeMag, hc, codeMag_scaled hm.le hk], hm⟩

theorem unitsPerOne_dvd_two_pow {k : Nat} (hk : 1074 ≤ k) : unitsPerOne ∣ 2 ^ k := by
  unfold unitsPerOne; exact pow_dvd_pow 2 hk

theorem two_pow_dvd_unitsPerOne {k : Nat} (hk : k ≤ 1074) : 2 ^ k ∣ unitsPerOne := by
  unfold unitsPerOne; exact pow_dvd_pow 2 hk

/-- From 2^53 on every datum is an integer. -/
theorem unitsPerOne_dvd_magnitude (h : 2 ^ 53 * unitsPerOne ≤ x.magnitude) : unitsPerOne ∣ x.magnitude := by
  obtain ⟨m, k, hx, hm⟩ := x.exists_magnitude_eq
  rw [hx] at h ⊢
  by_cases hk : 1074 ≤ k
  · exact (unitsPerOne_dvd_two_pow hk).mul_left m
  · rw [not_le] at hk
    have : m * 2 ^ k < 2 ^ 53 * unitsPerOne :=
      Nat.mul_lt_mul_of_lt_of_le hm (Nat.le_of_dvd unitsPerOne_pos (two_pow_dvd_unitsPerOne hk.le)) unitsPerOne_pos
    omega

/-- An integer next to a finite datum is representable: below 2^53 every integer is, and from there on the datum is the
integer itself. -/
theorem representable_of_abs_sub_lt_one {n : Int} (hx : x.isFinite = true) (h : |x.value - n| < 1) :
    Representable n := by
  by_cases hbig : x.magnitude < 2 ^ 53 * unitsPerOne
  case neg =>
    obtain ⟨j, hj⟩ : (unitsPerOne : ℤ) ∣ x.units := by
      rw [← Int.natAbs_dvd_natAbs, Int.natAbs_natCast, natAbs_units]
      exact unitsPerOne_dvd_magnitude (not_lt.1 hbig)
    refine ⟨x, hx, ?_⟩
    have hv : x.value = j := by
      rw [value, hj, Int.cast_mul, Int.cast_natCast, mul_div_cancel_left₀ _ cast_unitsPerOne_pos.ne']
    rw [hv] at h ⊢
    have : |j - n| < 1 := by exact_mod_cast h
    rw [sub_eq_zero.1 (Int.abs_lt_one_iff.1 this)]
  case pos =>
    have hlt : |x.value| < 2 ^ 53 := by
      rw [abs_value, div_lt_iff₀ cast_unitsPerOne_pos]
      exact_mod_cast hbig
    have hn : |(n : ℚ)| < 2 ^ 53 + 1 := by
      have := abs_sub_abs_le_abs_sub (n : ℚ) x.value
      rw [abs_sub_comm] at this
      linarith
    have : |n| < 2 ^ 53 + 1 := by exact_mod_cast hn
    exact representable_int (by rw [Int.abs_eq_natAbs] at this; omega)

/-- The whole ones in a magnitude. -/
def whole (x : Binary64) : Nat := x.magnitude / unitsPerOne

/-- What is left of a magnitude above its whole ones. -/
def left (x : Binary64) : ℚ := (x.magnitude % unitsPerOne : ℕ) / unitsPerOne

theorem left_nonneg (x : Binary64) : 0 ≤ x.left := div_nonneg (Nat.cast_nonneg _) (Nat.cast_nonneg _)

theorem left_lt_one (x : Binary64) : x.left < 1 := by
  rw [left, div_lt_one cast_unitsPerOne_pos, Nat.cast_lt]
  exact Nat.mod_lt _ unitsPerOne_pos

/-- A value is its whole ones and what is left, both under its sign. -/
theorem value_eq_whole_add_left (x : Binary64) : x.value = signed x.isNeg x.whole + signed x.isNeg x.left := by
  have h : (x.magnitude / unitsPerOne : ℚ) = x.whole + x.left := by
    rw [left, eq_comm, ← eq_sub_iff_add_eq', div_eq_iff cast_unitsPerOne_pos.ne', sub_mul,
      div_mul_cancel₀ _ cast_unitsPerOne_pos.ne', eq_sub_iff_add_eq]
    exact_mod_cast Nat.mod_add_div' x.magnitude unitsPerOne
  rw [value_eq_signed, h]
  cases x.isNeg
  · rfl
  · exact neg_add _ _

/-- The whole ones under the sign are the value rounded towards zero. -/
theorem signed_whole (x : Binary64) :
    signed x.isNeg x.whole = if 0 ≤ x.value then (⌊x.value⌋ : ℚ) else (⌈x.value⌉ : ℚ) := by
  have hv := x.value_eq_whole_add_left
  have h0 := x.left_nonneg
  have h1 := x.left_lt_one
  have hn : (0 : ℚ) ≤ x.whole := Nat.cast_nonneg _
  cases hs : x.isNeg <;> rw [hs] at hv
  · rw [signed_false, signed_false] at hv
    have hfloor : ⌊x.value⌋ = (x.whole : ℤ) :=
      Int.floor_eq_iff.2 ⟨by push_cast; linarith, by push_cast; linarith⟩
    rw [signed_false, if_pos (by linarith), hfloor, Int.cast_natCast]
  · rw [signed_true, signed_true] at hv
    rw [signed_true]
    split
    · have hfloor : ⌊x.value⌋ = -(x.whole : ℤ) :=
        Int.floor_eq_iff.2 ⟨by push_cast; linarith, by push_cast; linarith⟩
      rw [hfloor, Int.cast_neg, Int.cast_natCast]
    · have hceil : ⌈x.value⌉ = -(x.whole : ℤ) :=
        Int.ceil_eq_iff.2 ⟨by push_cast; linarith, by push_cast; linarith⟩
      rw [hceil, Int.cast_neg, Int.cast_natCast]

/-- What is left of a value has the value's sign. -/
theorem signed_left_mem (x : Binary64) :
    (0 ≤ x.value → 0 ≤ signed x.isNeg x.left ∧ signed x.isNeg x.left < 1) ∧
    (x.value < 0 → -1 < signed x.isNeg x.left ∧ signed x.isNeg x.left ≤ 0) := by
  have hv := x.value_eq_whole_add_left
  have h0 := x.left_nonneg
  have h1 := x.left_lt_one
  have hn : (0 : ℚ) ≤ x.whole := Nat.cast_nonneg _
  cases hs : x.isNeg <;> rw [hs] at hv
  · rw [signed_false, signed_false] at *
    exact ⟨fun _ => ⟨h0, h1⟩, fun hx => by linarith⟩
  · rw [signed_true, signed_true] at *
    exact ⟨fun hx => ⟨by linarith, by linarith⟩, fun _ => ⟨by linarith, by linarith⟩⟩

/-- `trunc` is exact. -/
theorem trunc_exact (hx : x.isFinite = true) : x.trunc.isFinite = true ∧ x.trunc.value = signed x.isNeg x.whole := by
  obtain ⟨t, ht⟩ : ∃ t : ℤ, (t : ℚ) = signed x.isNeg x.whole := by
    rw [signed_whole]; split <;> exact ⟨_, rfl⟩
  have hnear : |x.value - t| < 1 := by
    rw [ht, value_eq_whole_add_left, add_sub_cancel_left, abs_signed, abs_of_nonneg x.left_nonneg]
    exact x.left_lt_one
  have hrep := representable_of_abs_sub_lt_one hx hnear
  rw [ht] at hrep
  obtain ⟨neg, e, f, rfl⟩ := isFinite_iff.1 hx
  have h : RoundedOnce _ (fin neg e f).trunc := roundedOnce_round neg one_pos
  rw [Nat.cast_one, one_mul, Nat.cast_mul, mul_div_cancel_right₀ _ cast_unitsPerOne_pos.ne'] at h
  exact h.exact_of_representable hrep

/-- `floor` is exact. -/
theorem floor_exact (hx : x.isFinite = true) : x.floor.isFinite = true ∧ x.floor.value = ⌊x.value⌋ := by
  have hnear : |x.value - ⌊x.value⌋| < 1 := by
    rw [Int.self_sub_floor, abs_of_nonneg (Int.fract_nonneg _)]
    exact Int.fract_lt_one _
  have hrep := representable_of_abs_sub_lt_one hx hnear
  obtain ⟨neg, e, f, rfl⟩ := isFinite_iff.1 hx
  have h : RoundedOnce _ (fin neg e f).floor := roundedOnce_roundInt neg _
  rw [units_ediv_unitsPerOne, Int.cast_mul, Int.cast_natCast, mul_div_cancel_right₀ _ cast_unitsPerOne_pos.ne'] at h
  exact h.exact_of_representable hrep

/-- What is left of a magnitude is a multiple of the datum's own last place. -/
theorem representable_left (x : Binary64) : Representable x.left := by
  obtain ⟨m, k, hx, hm⟩ := x.exists_magnitude_eq
  by_cases hk : k ≤ 1074
  · obtain ⟨j, hj⟩ : 2 ^ k ∣ x.magnitude % unitsPerOne :=
      (Nat.dvd_mod_iff (two_pow_dvd_unitsPerOne hk)).2 (hx ▸ Nat.dvd_mul_left _ _)
    have hjm : j ≤ m := by
      have hle := Nat.mod_le x.magnitude unitsPerOne
      rw [hj, hx, mul_comm] at hle
      exact Nat.le_of_mul_le_mul_right hle (by positivity)
    exact representable_of_natAbs (z := (x.magnitude % unitsPerOne : ℕ)) (m := j) (k := k)
      (by rw [Int.natAbs_natCast, hj, mul_comm]) (by omega) (by omega)
  · have hdvd : unitsPerOne ∣ x.magnitude := hx ▸ (unitsPerOne_dvd_two_pow (le_of_not_ge hk)).mul_left m
    rw [left, Nat.mod_eq_zero_of_dvd hdvd, Nat.cast_zero, zero_div]
    exact representable_nat (Nat.zero_le _)

theorem representable_signed (neg : Bool) {q : ℚ} (h : Representable q) : Representable (signed neg q) := by
  cases neg
  · exact h
  · obtain ⟨z, hz, rfl⟩ := h
    exact ⟨z.neg, by rwa [isFinite_neg], value_neg z⟩

/-- The subtraction in `frac` does not round. -/
theorem frac_exact (hx : x.isFinite = true) : x.frac.isFinite = true ∧ x.frac.value = signed x.isNeg x.left := by
  obtain ⟨ht, htv⟩ := trunc_exact hx
  have h : RoundedOnce _ x.frac := roundedOnce_sub hx ht
  rw [htv, value_eq_whole_add_left, add_sub_cancel_left] at h
  exact h.exact_of_representable (representable_signed _ x.representable_left)

end Binary64

/-- Settles O29: in a datum's sign and magnitude, `trunc` is the whole ones and `frac` what is left. -/
theorem truncFloorFracAreExact : Obligations.TruncFloorFracAreExact := by
  intro x hx
  obtain ⟨ht, htv⟩ := Binary64.trunc_exact hx
  obtain ⟨hfl, hflv⟩ := Binary64.floor_exact hx
  obtain ⟨hfr, hfrv⟩ := Binary64.frac_exact hx
  obtain ⟨hnonneg, hneg⟩ := x.signed_left_mem
  rw [← hfrv] at hnonneg hneg
  refine ⟨ht, hfl, hfr, htv.trans x.signed_whole, hflv, ?_, hnonneg, hneg⟩
  rw [hfrv, htv, x.value_eq_whole_add_left, add_sub_cancel_left]

/-! ### Comparisons -/

namespace Binary64

theorem lt_iff_value_lt {x y : Binary64} (hx : x.isFinite = true) (hy : y.isFinite = true) :
    x.lt y = true ↔ x.value < y.value := by
  obtain ⟨a, e, f, rfl⟩ := isFinite_iff.1 hx
  obtain ⟨b, e', f', rfl⟩ := isFinite_iff.1 hy
  rw [value_lt_value_iff]
  exact decide_eq_true_iff

theorem ieeeEq_iff_value_eq {x y : Binary64} (hx : x.isFinite = true) (hy : y.isFinite = true) :
    x.ieeeEq y = true ↔ x.value = y.value := by
  obtain ⟨a, e, f, rfl⟩ := isFinite_iff.1 hx
  obtain ⟨b, e', f', rfl⟩ := isFinite_iff.1 hy
  rw [value_eq_value_iff]
  exact decide_eq_true_iff

end Binary64

/-- Settles O31, by the operands' constructors. -/
theorem comparisonsAreIeee : Obligations.ComparisonsAreIeee := by
  refine ⟨fun x y hx hy => ⟨Binary64.lt_iff_value_lt hx hy, Binary64.ieeeEq_iff_value_eq hx hy⟩,
    fun x => ?_, fun x hx => ?_, rfl, by decide⟩
  · cases x <;> exact ⟨rfl, rfl, rfl, rfl⟩
  · obtain ⟨a, e, f, rfl⟩ := Binary64.isFinite_iff.1 hx
    exact ⟨rfl, rfl, rfl, rfl⟩

end Sys2Proof

/-! CERTIFICATE O30. The literals (00_scope.md R11). -/

namespace Sys2Proof

/-! ### The literals -/

namespace Machine.Const

theorem half_exact : half.isFinite = true ∧ half.value = 1 / 2 := by
  exact_mod_cast Binary64.ofRatio_exact (a := 1) (b := 2) (m := 1) (k := 1)
    (by omega) (by omega) (by omega) (by omega)

theorem two_exact : two.isFinite = true ∧ two.value = 2 := Binary64.ofNat_exact (n := 2) (by omega)

theorem three_exact : three.isFinite = true ∧ three.value = 3 := Binary64.ofNat_exact (n := 3) (by omega)

theorem delaySeconds_value : delaySeconds.value = 375 / 1000 := by
  exact_mod_cast (Binary64.ofRatio_exact (a := 375) (b := 1000) (m := 3) (k := 3)
    (by omega) (by omega) (by omega) (by omega)).2

theorem oneAndHalf_value : oneAndHalf.value = 3 / 2 := by
  exact_mod_cast (Binary64.ofRatio_exact (a := 3) (b := 2) (m := 3) (k := 1)
    (by omega) (by omega) (by omega) (by omega)).2

theorem quarter_value : (Binary64.ofRatio 1 4).value = 1 / 4 := by
  exact_mod_cast (Binary64.ofRatio_exact (a := 1) (b := 4) (m := 1) (k := 2)
    (by omega) (by omega) (by omega) (by omega)).2

/-- The quotient of two integers up to 2^53 is the rational rounded once. -/
theorem roundedOnce_ofNat_div {a b : Nat} (ha : a ≤ 2 ^ 53) (hb : b ≤ 2 ^ 53) (h0 : 0 < b) :
    RoundedOnce (a / b) ((Binary64.ofNat a).div (Binary64.ofNat b)) := by
  obtain ⟨hfa, hva⟩ := Binary64.ofNat_exact ha
  obtain ⟨hfb, hvb⟩ := Binary64.ofNat_exact hb
  rw [← hva, ← hvb]
  exact Binary64.roundedOnce_div hfa hfb (by rw [hvb]; exact (Nat.cast_pos.2 h0).ne')

theorem roundedOnce_twoThirds : RoundedOnce (2 / 3) twoThirds := by
  exact_mod_cast roundedOnce_ofNat_div (a := 2) (b := 3) (by omega) (by omega) (by omega)

theorem roundedOnce_sixFifths : RoundedOnce (6 / 5) sixFifths := by
  exact_mod_cast roundedOnce_ofNat_div (a := 6) (b := 5) (by omega) (by omega) (by omega)

theorem roundedOnce_dt : RoundedOnce (1 / 48000) dt := by
  exact_mod_cast roundedOnce_ofNat_div (a := 1) (b := 48000) (by omega) (by omega) (by omega)

/-- The bias list of the statement has 0.25 in lowest terms. -/
theorem ofRatio_quarter : Binary64.ofRatio 25 100 = Binary64.ofRatio 1 4 := by decide +kernel

/-- The two constants that R11 gives by their bits. -/
theorem pi_twoPi_bits :
    pi = .fin false 1024 0x921fb54442d18#52 ∧ twoPi = .fin false 1025 0x921fb54442d18#52 := by decide +kernel

end Machine.Const

open Machine.Const in
/-- Settles O30: every literal is a decimal, an integer or a quotient of integers, rounded once. -/
theorem literalsAreRoundedOnce : Obligations.LiteralsAreRoundedOnce := by
  have decimal (a : Nat) {b : Nat} (hb : 0 < b) := Binary64.roundedOnce_ofRatio a hb
  have integer {n : Nat} (hn : n ≤ 2 ^ 53) : (Binary64.ofNat n).value = n := (Binary64.ofNat_exact hn).2
  have hbias : sawBias =
      [zero, half, Binary64.ofRatio 33 100, Binary64.ofRatio 1 4, pointTwo, Binary64.ofRatio 16 100] := by
    rw [sawBias, ofRatio_quarter]
  exact ⟨by exact_mod_cast decimal 15 (b := 100) (by omega), by exact_mod_cast decimal 2 (b := 10) (by omega),
    by exact_mod_cast decimal 1 (b := 10) (by omega), by exact_mod_cast decimal 4 (b := 10) (by omega),
    ⟨_, _, hbias, by exact_mod_cast decimal 33 (b := 100) (by omega),
      by exact_mod_cast decimal 16 (b := 100) (by omega)⟩,
    half_exact.2, delaySeconds_value, oneAndHalf_value, rfl,
    by exact_mod_cast integer (n := 1) (by omega), two_exact.2, three_exact.2,
    integer (n := 4) (by omega), integer (n := 4) (by omega), integer (n := 5) (by omega),
    integer (n := 50) (by omega), integer (n := 900) (by omega), quarter_value,
    roundedOnce_twoThirds, roundedOnce_sixFifths, roundedOnce_dt, pi_twoPi_bits⟩

end Sys2Proof

/-! CERTIFICATE O52. FILL before the latch under either variant (00_scope.md R2). -/

namespace Sys2Proof

namespace Machine

variable {F : NumericConfig} {s t : State}

/-! ### The gate before index 168 000 -/

theorem roundedOnce_clockSeconds {n : Nat} (hn : n ≤ 2 ^ 53) : RoundedOnce (n / 48000) (clockSeconds n) := by
  exact_mod_cast Const.roundedOnce_ofNat_div hn (b := 48000) (by omega) (by omega)

/-- Up to index 144 000 the time is at most 3 s. -/
theorem three_lt_clockSeconds_of_le {n : Nat} (hn : n ≤ 144000) : Const.three.lt (clockSeconds n) = false := by
  have hq : (n : ℚ) / 48000 ≤ (3 : ℕ) := by
    rw [div_le_iff₀ (by norm_num)]
    exact_mod_cast hn
  have h0 : ((0 : ℕ) : ℚ) ≤ n / 48000 := by positivity
  obtain ⟨hf, -, hle⟩ := (roundedOnce_clockSeconds (n := n) (by omega)).mem_Icc
    (representable_nat (by omega)) (representable_nat (by omega)) ⟨h0, hq⟩
  rw [← Bool.not_eq_true, Binary64.lt_iff_value_lt Const.three_exact.1 hf, Const.three_exact.2, not_lt]
  exact hle

/-- Between indexes 144 000 and 168 000 the time lies strictly between 3 s and 3.5 s: one sample is more than
2^-16 s. -/
theorem clockSeconds_mem {n : Nat} (hlo : 144000 < n) (hhi : n < 168000) :
    (clockSeconds n).isFinite = true ∧
    3 + 1 / 2 ^ 16 ≤ (clockSeconds n).value ∧ (clockSeconds n).value ≤ 7 / 2 - 1 / 2 ^ 16 := by
  have h1 : (144001 : ℚ) ≤ n := by exact_mod_cast hlo
  have h2 : (n : ℚ) ≤ 167999 := by exact_mod_cast Nat.le_sub_one_of_lt hhi
  refine (roundedOnce_clockSeconds (n := n) (by omega)).mem_Icc
    (representable_dyadic (n := 3 * 2 ^ 16 + 1) (k := 16) (by norm_num) (by omega) (by omega))
    (representable_dyadic (n := 7 * 2 ^ 15 - 1) (k := 16) (by norm_num) (by omega) (by omega)) ⟨?_, ?_⟩
  · norm_num; linarith
  · norm_num; linarith

/-- There the time lies strictly between beats 6 and 7. -/
theorem clockBeats_mem {n : Nat} (hlo : 144000 < n) (hhi : n < 168000) :
    (clockBeats n).isFinite = true ∧
    6 + 1 / 2 ^ 15 ≤ (clockBeats n).value ∧ (clockBeats n).value ≤ 7 - 1 / 2 ^ 15 := by
  obtain ⟨hs, h1, h2⟩ := clockSeconds_mem hlo hhi
  have h : RoundedOnce _ (clockBeats n) := Binary64.roundedOnce_mul hs Const.two_exact.1
  rw [Const.two_exact.2] at h
  refine h.mem_Icc
    (representable_dyadic (n := 6 * 2 ^ 15 + 1) (k := 15) (by norm_num) (by omega) (by omega))
    (representable_dyadic (n := 7 * 2 ^ 15 - 1) (k := 15) (by norm_num) (by omega) (by omega)) ⟨?_, ?_⟩
  · norm_num at h1 ⊢; linarith
  · norm_num at h2 ⊢; linarith

/-- There the beat fraction, over the whole 6 beats, is not zero. -/
theorem beatFraction_ne_zero {n : Nat} (hlo : 144000 < n) (hhi : n < 168000) :
    (clock n).beatFraction.ieeeEq Const.zero = false := by
  obtain ⟨hf, h1, h2⟩ := clockBeats_mem hlo hhi
  obtain ⟨hff, hfv⟩ := Binary64.floor_exact hf
  have hfloor : ⌊(clockBeats n).value⌋ = 6 := by
    rw [Int.floor_eq_iff]
    norm_num at *
    constructor <;> linarith
  have h : RoundedOnce _ (clock n).beatFraction := Binary64.roundedOnce_sub hf hff
  rw [hfv, hfloor] at h
  have hq : 1 / 2 ^ 15 ≤ (clockBeats n).value - (6 : ℤ) ∧ (clockBeats n).value - (6 : ℤ) ≤ (1 : ℤ) := by
    constructor <;> push_cast <;> linarith
  obtain ⟨hbf, hpos, -⟩ := h.mem_Icc
    (representable_dyadic (n := 1) (k := 15) (by norm_num) (by omega) (by omega)) (representable_int (by omega)) hq
  rw [← Bool.not_eq_true, Binary64.ieeeEq_iff_value_eq hbf rfl, Const.zero, Binary64.value_zero]
  exact (lt_of_lt_of_le (by norm_num) hpos).ne'

/-- Before index 168 000 the latch does not set (44_voices.md R155, R156). -/
theorem gateAfter_eq_false (hg : s.chordGateEngaged = false) (hn : s.sampleCount.toNat < 168000) :
    gateAfter s = false := by
  rw [gateAfter, gateLatch_eq_or, hg, Bool.false_or, Bool.and_eq_false_iff]
  rcases le_or_gt s.sampleCount.toNat 144000 with hle | hgt
  · exact .inl (three_lt_clockSeconds_of_le hle)
  · exact .inr (beatFraction_ne_zero hgt hn)

/-! ### Ticks with the gate off -/

/-- A tick that leaves the gate off neither advances the chord nor calls the delay line (44_voices.md R160), so the
variant has no part in it. -/
theorem tickStep_gate_off (hw : s.datapathWritten = true) (hn : s.sampleCount.toNat < Const.indexLimit)
    (hg : gateAfter s = false) :
    let bf := (clock s.sampleCount.toNat).beatFraction
    tickStep F s =
      .produced ((kickOut F bf (kickAdvance F bf s.kickPhase)).add (bassOut F bf (bassAdvance s.bassPhase)))
        (ticked F s { chordOut := none, chordPhase := s.chordPhase, line := ⟨s.delayWriteIndex, s.dly⟩ }) :=
  tickStep_of_chordVoice hw hn (by rw [hg]; rfl)

theorem tickStep_produced_variant (v : Variant) {x : Binary64} (hg : gateAfter s = false)
    (h : tickStep F s = .produced x t) :
    tickStep F { s with variant := v } = .produced x { t with variant := v } := by
  obtain ⟨hw, hn, -⟩ := tickStep_produced h
  rw [tickStep_gate_off hw hn hg] at h
  cases h
  exact tickStep_gate_off (s := { s with variant := v }) hw hn hg

theorem tickStep_raised_variant (v : Variant) {c : FaultCode} (h : tickStep F s = .raised c) :
    tickStep F { s with variant := v } = .raised c := by
  rw [tickStep_raised] at h ⊢
  exact h

theorem fillTicks_of_produced {x : Binary64} {n : Nat} (h : tickStep F s = .produced x t) :
    fillTicks F (n + 1) s = fillTicks F n (emit x t) := by
  rw [fillTicks, h]

theorem fillTicks_of_raised {c : FaultCode} {n : Nat} (h : tickStep F s = .raised c) :
    fillTicks F (n + 1) s = .next (raiseFault c s) := by
  rw [fillTicks, h]

theorem fillTicks_of_stopped {f : Fault} {n : Nat} (h : tickStep F s = .stopped f) :
    fillTicks F (n + 1) s = .fault f := by
  rw [fillTicks, h]

/-- The ticks of a FILL that ends before the latch are the same ticks under another variant. -/
theorem fillTicks_variant (v : Variant) {n : Nat} (hg : s.chordGateEngaged = false)
    (hn : s.sampleCount.toNat + n ≤ 168000) (h : fillTicks F n s = .next t) :
    fillTicks F n { s with variant := v } = .next { t with variant := v } := by
  induction n generalizing s with
  | zero => cases h; rfl
  | succ n ih =>
    cases htick : tickStep F s with
    | produced x u =>
      have hoff : gateAfter s = false := gateAfter_eq_false hg (by omega)
      obtain ⟨hcount, hgate, -⟩ := tickStep_line htick
      rw [fillTicks_of_produced htick] at h
      rw [fillTicks_of_produced (tickStep_produced_variant v hoff htick)]
      exact ih (s := emit x u) (hgate.trans hoff) (by rw [emit_sampleCount, hcount]; omega) h
    | raised c =>
      rw [fillTicks_of_raised htick] at h
      rw [fillTicks_of_raised (tickStep_raised_variant v htick)]
      cases h
      rfl
    | stopped f =>
      rw [fillTicks_of_stopped htick] at h
      cases h

/-- FILL by the lifecycle (40_commands.md R102, R103). -/
theorem fillWith_cases {n : Nat} (h : fillWith F n s = .next t) :
    (s.lifecycle = .faulted ∧ t = s) ∨
    (s.lifecycle = .unconstructed ∧ t = raiseFault .notConstructed s) ∨
    (s.lifecycle = .running ∧ fillTicks F n s = .next t) := by
  unfold fillWith at h
  split at h
  · cases h; exact .inl ⟨‹_›, rfl⟩
  · cases h; exact .inr (.inl ⟨‹_›, rfl⟩)
  · exact .inr (.inr ⟨‹_›, h⟩)

theorem exec_fill_of_faulted (n : Nat) (hl : s.lifecycle = .faulted) : exec (.fill n) s = .next s := by
  rw [exec, execFill, fillWith, hl]

theorem exec_fill_of_unconstructed (n : Nat) (hl : s.lifecycle = .unconstructed) :
    exec (.fill n) s = .next (raiseFault .notConstructed s) := by
  rw [exec, execFill, fillWith, hl]

theorem exec_fill_of_running (n : Nat) (hl : s.lifecycle = .running) :
    exec (.fill n) s = fillTicks Config.numeric n s := by
  rw [exec, execFill, fillWith, hl]

end Machine

open Machine in
/-- Settles O52: a Running block's ticks leave the gate off; in the other lifecycles FILL does not read the variant. -/
theorem variantsAgreeBeforeTheLatch : Obligations.VariantsAgreeBeforeTheLatch := by
  intro s t v n hg hn h
  obtain ⟨hl, rfl⟩ | ⟨hl, rfl⟩ | ⟨hl, hticks⟩ := fillWith_cases h
  · exact exec_fill_of_faulted n hl
  · exact exec_fill_of_unconstructed n hl
  · rw [exec_fill_of_running (s := { s with variant := v }) n hl]
    exact fillTicks_variant v hg hn hticks

end Sys2Proof

/-! CERTIFICATE O41. Every step keeps the state well-formed (10_state.md R22, R28, R30, R34). -/

namespace Sys2Proof

namespace Machine

variable {F : NumericConfig} {s t : State} {v : Binary64}

/-! ### The delay line over a tick -/

/-- Steps 6 and 7 leave the delay line alone or call it once. -/
theorem chordVoice_line {T : MusicalTime} {engaged : Bool} {r : ChordResult} (h : chordVoice F T engaged s = .ok r) :
    r.line = ⟨s.delayWriteIndex, s.dly⟩ ∨ ∃ x y, delay x ⟨s.delayWriteIndex, s.dly⟩ = .ok (y, r.line) := by
  cases engaged with
  | false => rw [chordVoice_off h]; exact .inl rfl
  | true =>
    obtain ⟨-, ⟨-, hline, -⟩ | ⟨-, y, hcall, -⟩⟩ := chordVoice_on h
    · exact .inl hline
    · exact .inr ⟨_, y, hcall⟩

/-- A delay call keeps `DLY` canonical and leaves the cursor in range. -/
theorem delay_keeps_wf {x y : Binary64} {line line' : DelayLine} (hw : line.words.wf = true)
    (h : delay x line = .ok (y, line')) : line'.words.wf = true ∧ line'.cursor.toNat < Const.delayLen := by
  obtain ⟨hc, rfl, -⟩ := delayCall_eq_ok.1 h
  exact ⟨store_wf hw hc, nextCursor_lt _⟩

/-- So does a tick. -/
theorem tickStep_keeps_line_wf (hw : s.dly.wf = true) (hc : s.delayWriteIndex.toNat < Const.delayLen)
    (h : tickStep F s = .produced v t) : t.dly.wf = true ∧ t.delayWriteIndex.toNat < Const.delayLen := by
  obtain ⟨-, -, r, hr, rfl⟩ := tickStep_produced h
  change r.line.words.wf = true ∧ r.line.cursor.toNat < Const.delayLen
  obtain hline | ⟨x, y, hcall⟩ := chordVoice_line hr
  · rw [hline]; exact ⟨hw, hc⟩
  · exact delay_keeps_wf hw hcall

/-! ### What a step is made of keeps the state well-formed -/

theorem wf_takeMove (h : s.Wf) (rest : List HostMove) : State.Wf { s with hostIn := rest } := by
  obtain ⟨hdly, hcursor, hcount, hpat, hrun, hun, hfault, hsamples, hinit, hcont⟩ := h
  exact ⟨hdly, hcursor, hcount, hpat, hrun, hun, hfault, hsamples, hinit, hcont⟩

theorem wf_powerOnReset (h : s.Wf) : (powerOnReset s).Wf where
  dlyCanonical := rfl
  cursorInRange := (by decide : (0#15).toNat < Const.delayLen)
  countInRange := Nat.zero_le _
  patFixed := h.patFixed
  runningWritten := nofun
  unconstructedUnwritten _ := rfl
  faultedCode := by simp
  countsSamples := nofun
  nothingBeforeInit _ := ⟨rfl, rfl, rfl⟩
  contIsOne := nofun

theorem wf_raiseFault {c : FaultCode} (h : s.Wf) (hc : c ≠ .none) : (raiseFault c s).Wf where
  dlyCanonical := h.dlyCanonical
  cursorInRange := h.cursorInRange
  countInRange := h.countInRange
  patFixed := h.patFixed
  runningWritten := nofun
  unconstructedUnwritten := nofun
  faultedCode := by simp [hc]
  countsSamples := h.countsSamples
  nothingBeforeInit := h.nothingBeforeInit
  contIsOne := h.contIsOne

/-- Construction starts the index at 0, and an Unconstructed block has emitted nothing. -/
theorem wf_construct (h : s.Wf) (hl : s.lifecycle = .unconstructed) (v : Variant) : (construct v s).Wf where
  dlyCanonical := rfl
  cursorInRange := (by decide : (0#15).toNat < Const.delayLen)
  countInRange := Nat.zero_le _
  patFixed := h.patFixed
  runningWritten _ := rfl
  unconstructedUnwritten := nofun
  faultedCode := by simp
  countsSamples _ := by
    obtain ⟨hout, -, -⟩ := h.nothingBeforeInit (h.unconstructedUnwritten hl)
    rw [construct_sampleOut, hout]
    rfl
  nothingBeforeInit := nofun
  contIsOne := h.contIsOne

/-- A tick emits the one sample of the index it moves past; it has checked that the index is below the limit. -/
theorem wf_tick (h : s.Wf) (htick : tickStep F s = .produced v t) : (emit v t).Wf := by
  obtain ⟨hlife, hcode, -, hwrit, hpat, -, hout, hcont, -⟩ := tickStep_frame htick
  obtain ⟨hcount, -⟩ := tickStep_line htick
  obtain ⟨hw, hlt, -⟩ := tickStep_produced htick
  obtain ⟨hdly, hcursor⟩ := tickStep_keeps_line_wf h.dlyCanonical h.cursorInRange htick
  exact
    { dlyCanonical := hdly
      cursorInRange := hcursor
      countInRange := hcount.trans_le hlt
      patFixed := hpat.trans h.patFixed
      runningWritten := fun _ => hwrit.trans hw
      unconstructedUnwritten := fun hl => hwrit.trans (h.unconstructedUnwritten (hlife.symm.trans hl))
      faultedCode := by rw [emit_lifecycle, emit_faultCode, hlife, hcode]; exact h.faultedCode
      countsSamples := fun _ => by
        rw [emit_sampleOut, emit_sampleCount, List.length_append, hout, h.countsSamples hw, hcount,
          List.length_singleton]
      nothingBeforeInit := fun hunwrit => by rw [emit_datapathWritten, hwrit, hw] at hunwrit; cases hunwrit
      contIsOne := by rw [emit_contOut, hcont]; exact h.contIsOne }

theorem wf_reportCont (h : s.Wf) (hl : s.lifecycle = .running) : (reportCont s).Wf where
  dlyCanonical := h.dlyCanonical
  cursorInRange := h.cursorInRange
  countInRange := h.countInRange
  patFixed := h.patFixed
  runningWritten := h.runningWritten
  unconstructedUnwritten := h.unconstructedUnwritten
  faultedCode := h.faultedCode
  countsSamples := h.countsSamples
  nothingBeforeInit hunwrit := absurd (h.runningWritten hl) (by rw [← reportCont_datapathWritten, hunwrit]; decide)
  contIsOne := by simpa [or_imp, forall_and] using h.contIsOne

end Machine

open Machine in
/-- Settles O41: every part of a step keeps the state well-formed. -/
theorem stepKeepsWf : Obligations.StepKeepsWf := fun _ _ =>
  step_induct (fun _ rest h => wf_takeMove h rest) (fun _ => wf_powerOnReset) (fun _ _ => wf_raiseFault)
    (fun _ v h hl => wf_construct h hl v) (fun _ _ _ h _ htick => wf_tick h htick) (fun _ => wf_reportCont)

end Sys2Proof

/-! CERTIFICATE O44. The phase registers stay in [0, 1) (10_state.md R26; 42_oscillator_bank.md R132). -/

namespace Sys2Proof

/-! ### Bounds on values -/

namespace Binary64

variable {x y : Binary64} {m n : Nat}

theorem value_nonneg_iff : 0 ≤ x.value ↔ 0 ≤ x.units := by
  rw [← value_zero false]; exact value_le_value_iff

theorem value_pos_iff : 0 < x.value ↔ 0 < x.units := by
  rw [← value_zero false]; exact value_lt_value_iff

theorem value_lt_one_iff : x.value < 1 ↔ x.units < (unitsPerOne : ℤ) := by
  rw [value, div_lt_one cast_unitsPerOne_pos]; exact_mod_cast Iff.rfl

theorem value_le_one_iff : x.value ≤ 1 ↔ x.units ≤ (unitsPerOne : ℤ) := by
  rw [value, div_le_one cast_unitsPerOne_pos]; exact_mod_cast Iff.rfl

/-- A phase's range, by value. -/
theorem inUnit_iff : x.inUnit = true ↔ x.isFinite = true ∧ 0 ≤ x.value ∧ x.value < 1 := by
  rw [value_nonneg_iff, value_lt_one_iff, inUnit, Bool.and_eq_true, Bool.and_eq_true, decide_eq_true_iff,
    decide_eq_true_iff, and_assoc]

/-- A finite datum between 0 and a whole number. -/
def AtMost (x : Binary64) (n : Nat) : Prop := x.isFinite = true ∧ 0 ≤ x.value ∧ x.value ≤ n

theorem AtMost.mono (h : x.AtMost m) (hmn : m ≤ n) : x.AtMost n := by
  obtain ⟨hf, h0, hm⟩ := h
  exact ⟨hf, h0, hm.trans (Nat.cast_le.2 hmn)⟩

/-- Rounding keeps a number between 0 and a whole number there. -/
theorem atMost_of_roundedOnce {q : ℚ} (h : RoundedOnce q x) (h0 : 0 ≤ q) (hq : q ≤ n) (hn : n ≤ 2 ^ 53) :
    x.AtMost n := by
  obtain ⟨hf, hlo, hhi⟩ := h.mem_Icc (representable_nat (Nat.zero_le _)) (representable_nat hn)
    ⟨by exact_mod_cast h0, hq⟩
  exact ⟨hf, by exact_mod_cast hlo, hhi⟩

theorem atMost_ofNat (hn : n ≤ 2 ^ 53) : (ofNat n).AtMost n := by
  obtain ⟨hf, hv⟩ := ofNat_exact hn
  exact ⟨hf, hv ▸ Nat.cast_nonneg n, hv.le⟩

theorem AtMost.add (hx : x.AtMost m) (hy : y.AtMost n) (hmn : m + n ≤ 2 ^ 53) : (x.add y).AtMost (m + n) := by
  obtain ⟨hxf, hx0, hxm⟩ := hx
  obtain ⟨hyf, hy0, hyn⟩ := hy
  exact atMost_of_roundedOnce (roundedOnce_add hxf hyf) (add_nonneg hx0 hy0)
    (by rw [Nat.cast_add]; exact add_le_add hxm hyn) hmn

theorem AtMost.mul (hx : x.AtMost m) (hy : y.AtMost n) (hmn : m * n ≤ 2 ^ 53) : (x.mul y).AtMost (m * n) := by
  obtain ⟨hxf, hx0, hxm⟩ := hx
  obtain ⟨hyf, hy0, hyn⟩ := hy
  exact atMost_of_roundedOnce (roundedOnce_mul hxf hyf) (mul_nonneg hx0 hy0)
    (by rw [Nat.cast_mul]; exact mul_le_mul hxm hyn hy0 (Nat.cast_nonneg m)) hmn

/-! ### Fractions -/

theorem frac_inUnit (hx : x.isFinite = true) (h0 : 0 ≤ x.value) : x.frac.inUnit = true := by
  obtain ⟨hf, hv⟩ := frac_exact hx
  exact inUnit_iff.2 ⟨hf, hv ▸ x.signed_left_mem.1 h0⟩

/-- Above its floor a non-negative datum has its fraction: there `floor` is `trunc`. -/
theorem sub_floor_value (hx : x.isFinite = true) (h0 : 0 ≤ x.value) :
    (x.sub x.floor).isFinite = true ∧ (x.sub x.floor).value = x.frac.value := by
  obtain ⟨-, hlf, hff, htv, hlv, hfv, -⟩ := truncFloorFracAreExact x hx
  have h : RoundedOnce _ (x.sub x.floor) := roundedOnce_sub hx hlf
  rw [hlv, ← if_pos h0 (t := (⌊x.value⌋ : ℚ)) (e := (⌈x.value⌉ : ℚ)), ← htv, ← hfv] at h
  exact h.exact_of_representable ⟨_, hff, rfl⟩

theorem sub_floor_inUnit (hx : x.isFinite = true) (h0 : 0 ≤ x.value) : (x.sub x.floor).inUnit = true := by
  obtain ⟨hf, hv⟩ := sub_floor_value hx h0
  obtain ⟨-, hfrac⟩ := inUnit_iff.1 (frac_inUnit hx h0)
  exact inUnit_iff.2 ⟨hf, hv ▸ hfrac⟩

end Binary64

namespace Machine

open Binary64

variable {F : NumericConfig} {s t : State} {v x phase f : Binary64}

theorem Const.one_exact : Const.one.isFinite = true ∧ Const.one.value = 1 := by
  exact_mod_cast ofNat_exact (n := 1) (by omega)

/-- Below 1.0 a fraction leaves at least one unit. -/
theorem one_sub_mem (hx : x.inUnit = true) :
    (Const.one.sub x).isFinite = true ∧ 0 < (Const.one.sub x).value ∧ (Const.one.sub x).value ≤ 1 := by
  obtain ⟨hf, h0, h1⟩ := inUnit_iff.1 hx
  have h : RoundedOnce _ (Const.one.sub x) := roundedOnce_sub Const.one_exact.1 hf
  rw [Const.one_exact.2] at h
  have hunit : (1 : ℚ) / unitsPerOne ≤ 1 - x.value := by
    rw [value, one_sub_div cast_unitsPerOne_pos.ne', div_le_div_iff_of_pos_right cast_unitsPerOne_pos]
    have := value_lt_one_iff.1 h1
    exact_mod_cast (by omega : (1 : ℤ) ≤ unitsPerOne - x.units)
  have hrep : Representable ((1 : ℚ) / unitsPerOne) :=
    representable_dyadic (n := 1) (by rw [unitsPerOne, Nat.cast_pow, Nat.cast_ofNat, Int.cast_one]) (by decide) le_rfl
  obtain ⟨hsf, hlo, hhi⟩ := h.mem_Icc hrep (representable_nat (n := 1) (by omega))
    ⟨hunit, by rw [Nat.cast_one]; linarith⟩
  exact ⟨hsf, (div_pos one_pos cast_unitsPerOne_pos).trans_le hlo, by exact_mod_cast hhi⟩

/-! ### ADVANCE -/

theorem Const.dt_mem : Const.dt.isFinite = true ∧ 0 ≤ Const.dt.value ∧ Const.dt.value ≤ 1 / 4 := by
  exact_mod_cast Const.roundedOnce_dt.mem_Icc (representable_nat (n := 0) (by omega))
    (representable_dyadic (q := 1 / 4) (n := 1) (k := 2) (by norm_num) (by decide) (by omega))
    ⟨by norm_num, by norm_num⟩

/-- A power of two below the overflow bound is representable. -/
theorem representable_two_pow {k : Nat} (hk : k ≤ 1023) : Representable (2 ^ k) := by
  have h := representable_of_natAbs (z := (2 ^ 53 * 2 ^ (k + 1021) : ℕ)) (Int.natAbs_natCast _) le_rfl (by omega)
  have hq : (((2 ^ 53 * 2 ^ (k + 1021) : ℕ) : ℤ) : ℚ) / unitsPerOne = 2 ^ k := by
    rw [div_eq_iff cast_unitsPerOne_pos.ne', unitsPerOne, Int.cast_natCast, Nat.cast_mul, Nat.cast_pow, Nat.cast_pow,
      Nat.cast_pow, Nat.cast_ofNat, ← pow_add, ← pow_add, show 53 + (k + 1021) = k + 1074 by omega]
  rwa [hq] at h

/-- A finite non-negative frequency times `DT` leaves room for a phase: it is at most 2^1022. -/
theorem mul_dt_mem (hf : f.isFinite = true) (h0 : 0 ≤ f.value) :
    (f.mul Const.dt).isFinite = true ∧ 0 ≤ (f.mul Const.dt).value ∧ (f.mul Const.dt).value ≤ 2 ^ 1022 := by
  obtain ⟨hdf, hd0, hd1⟩ := Const.dt_mem
  have hmax : f.value ≤ 2 ^ 1022 * 2 * 2 :=
    calc f.value ≤ overflowBound := (le_abs_self _).trans (abs_value_lt_overflowBound hf).le
      _ ≤ 2 ^ 1024 := sub_le_self _ (by positivity)
      _ = 2 ^ 1022 * 2 * 2 := by rw [show 1024 = 1022 + 1 + 1 from rfl, pow_succ, pow_succ]
  have hhi : f.value * Const.dt.value ≤ 2 ^ 1022 :=
    calc f.value * Const.dt.value ≤ 2 ^ 1022 * 2 * 2 * (1 / 4) := mul_le_mul hmax hd1 hd0 (by positivity)
      _ = 2 ^ 1022 := by rw [mul_assoc, mul_assoc, (by norm_num : (2 : ℚ) * (2 * (1 / 4)) = 1), mul_one]
  exact_mod_cast (roundedOnce_mul hf hdf).mem_Icc (representable_nat (n := 0) (by omega))
    (representable_two_pow (k := 1022) (by omega)) ⟨by exact_mod_cast mul_nonneg h0 hd0, hhi⟩

/-- So the sum that ADVANCE takes the fraction of is finite and not negative. -/
theorem phase_add_nonneg (hp : phase.inUnit = true) (hf : f.isFinite = true) (h0 : 0 ≤ f.value) :
    (phase.add (f.mul Const.dt)).isFinite = true ∧ 0 ≤ (phase.add (f.mul Const.dt)).value := by
  obtain ⟨hpf, hp0, hp1⟩ := inUnit_iff.1 hp
  obtain ⟨hmf, hm0, hm1⟩ := mul_dt_mem hf h0
  have hhi : phase.value + (f.mul Const.dt).value ≤ 2 ^ (1022 + 1) := by
    rw [pow_succ, mul_two]
    exact add_le_add (hp1.le.trans (one_le_pow₀ one_le_two)) hm1
  obtain ⟨hsf, hs0, -⟩ := (roundedOnce_add hpf hmf).mem_Icc (representable_nat (n := 0) (by omega))
    (representable_two_pow (k := 1022 + 1) (by omega)) ⟨by exact_mod_cast add_nonneg hp0 hm0, hhi⟩
  exact ⟨hsf, by exact_mod_cast hs0⟩

/-- A phase advanced at a finite non-negative frequency stays in [0, 1). -/
theorem advance_inUnit (hp : phase.inUnit = true) (hf : f.isFinite = true) (h0 : 0 ≤ f.value) :
    (advance phase f).inUnit = true := by
  obtain ⟨hsf, hs0⟩ := phase_add_nonneg hp hf h0
  exact frac_inUnit hsf hs0

theorem advance_inUnit_of_atMost {n : Nat} (hp : phase.inUnit = true) (hf : f.AtMost n) :
    (advance phase f).inUnit = true := by
  obtain ⟨hff, hf0, -⟩ := hf
  exact advance_inUnit hp hff hf0

/-! ### The bass and the chord -/

theorem Const.fifty_atMost : Const.fifty.AtMost 50 := atMost_ofNat (by omega)

theorem Const.oneAndHalf_atMost : Const.oneAndHalf.AtMost 2 :=
  atMost_of_roundedOnce (roundedOnce_ofRatio 3 (b := 2) (by omega)) (by norm_num) (by norm_num) (by omega)

theorem Const.twoThirds_atMost : Const.twoThirds.AtMost 1 :=
  atMost_of_roundedOnce Const.roundedOnce_twoThirds (by norm_num) (by norm_num) (by omega)

theorem Const.sixFifths_atMost : Const.sixFifths.AtMost 2 :=
  atMost_of_roundedOnce Const.roundedOnce_sixFifths (by norm_num) (by norm_num) (by omega)

theorem Const.chordMul_atMost (v : Variant) : (Const.chordMul v).AtMost 5 := by
  cases v with
  | basic => exact (atMost_ofNat (n := 4) (by omega)).mono (by omega)
  | withDelay => exact atMost_ofNat (by omega)

/-- The chord's frequency is at most 250 Hz, shifted or not. -/
theorem chordFreq_atMost (v : Variant) (bar : Nat) : (chordFreq v bar).AtMost 250 := by
  have hbase : (chordBase v).AtMost 250 := Const.fifty_atMost.mul (Const.chordMul_atMost v) (by omega)
  unfold chordFreq
  split
  · exact hbase.mul Const.twoThirds_atMost (by omega)
  · exact hbase

/-- Each of the three partials stays in [0, 1). -/
theorem chordPartials_inUnit {n : Nat} {phases : Vector Binary64 3} (hf : f.AtMost n) (hn : n * 2 ≤ 2 ^ 53)
    (h0 : phases[0].inUnit = true) (h1 : phases[1].inUnit = true) (h2 : phases[2].inUnit = true) :
    (chordPartials f phases)[0].inUnit = true ∧ (chordPartials f phases)[1].inUnit = true ∧
      (chordPartials f phases)[2].inUnit = true :=
  ⟨advance_inUnit_of_atMost h0 hf, advance_inUnit_of_atMost h1 (hf.mul Const.oneAndHalf_atMost hn),
    advance_inUnit_of_atMost h2 (hf.mul Const.sixFifths_atMost hn)⟩

/-- Steps 6 and 7 leave the chord phases alone or advance them at the chord's frequency. -/
theorem chordVoice_phases {T : MusicalTime} {engaged : Bool} {r : ChordResult} (h : chordVoice F T engaged s = .ok r) :
    r.chordPhase = s.chordPhase ∨ r.chordPhase = chordPartials (chordFreq s.variant T.barMod4) s.chordPhase := by
  cases engaged with
  | false => rw [chordVoice_off h]; exact .inl rfl
  | true => exact .inr (chordVoice_on h).1

/-- A tick keeps the bass and chord phases in [0, 1) under every configuration. -/
theorem phasesInUnit_tick (h : s.PhasesInUnit) (htick : tickStep F s = .produced v t) : (emit v t).PhasesInUnit := by
  obtain ⟨hbass, h0, h1, h2⟩ := h
  obtain ⟨-, -, r, hr, rfl⟩ := tickStep_produced htick
  have hbass' : (bassAdvance s.bassPhase).inUnit = true := advance_inUnit_of_atMost hbass Const.fifty_atMost
  have hchord : r.chordPhase[0].inUnit = true ∧ r.chordPhase[1].inUnit = true ∧ r.chordPhase[2].inUnit = true := by
    obtain hsame | hadvanced := chordVoice_phases hr
    · rw [hsame]; exact ⟨h0, h1, h2⟩
    · rw [hadvanced]; exact chordPartials_inUnit (chordFreq_atMost _ _) (by omega) h0 h1 h2
  obtain ⟨h0', h1', h2'⟩ := hchord
  exact ⟨hbass', h0', h1', h2'⟩

theorem zero_inUnit : Const.zero.inUnit = true :=
  inUnit_iff.2 ⟨rfl, (value_zero false).ge, (value_zero false).trans_lt one_pos⟩

theorem step_keeps_phasesInUnit (hs : s.PhasesInUnit) (h : step s = .next t) : t.PhasesInUnit :=
  step_induct (fun _ _ ⟨hb, h0, h1, h2⟩ => ⟨hb, h0, h1, h2⟩)
    (fun _ _ => ⟨zero_inUnit, zero_inUnit, zero_inUnit, zero_inUnit⟩)
    (fun _ _ ⟨hb, h0, h1, h2⟩ _ => ⟨hb, h0, h1, h2⟩)
    (fun _ _ _ _ => ⟨zero_inUnit, zero_inUnit, zero_inUnit, zero_inUnit⟩)
    (fun _ _ _ hp _ htick => phasesInUnit_tick hp htick)
    (fun _ ⟨hb, h0, h1, h2⟩ _ => ⟨hb, h0, h1, h2⟩) hs h

/-! ### The kick -/

theorem clockBeats_atMost {n : Nat} (hn : n < 2 ^ 53) : (clockBeats n).AtMost (2 ^ 53) := by
  have hq : (n : ℚ) / 48000 ≤ (2 ^ 52 : ℕ) := by
    rw [div_le_iff₀ (by norm_num)]
    exact_mod_cast (by omega : n ≤ 2 ^ 52 * 48000)
  have hs : (clockSeconds n).AtMost (2 ^ 52) :=
    atMost_of_roundedOnce (roundedOnce_clockSeconds hn.le) (by positivity) hq (by omega)
  exact hs.mul (atMost_ofNat (n := 2) (by omega)) (by omega)

theorem beatFraction_inUnit {n : Nat} (hn : n < 2 ^ 53) : (clock n).beatFraction.inUnit = true := by
  obtain ⟨hf, h0, -⟩ := clockBeats_atMost hn
  exact sub_floor_inUnit hf h0

/-- A decaying envelope lies between 0 and its amplitude. -/
theorem env_atMost {A E : Binary64} {n : Nat} (hF : PowUnit F) (hx : x.inUnit = true) (hA : A.AtMost n)
    (hn : n ≤ 2 ^ 53) (hE : Const.zero.lt E = true) : (env F x A E).AtMost n := by
  obtain ⟨hbf, hb0, hb1⟩ := one_sub_mem hx
  obtain ⟨hpf, hp0, hp1⟩ := hF (Const.one.sub x) E hbf (value_pos_iff.1 hb0) (value_le_one_iff.1 hb1) hE
  have hpow : (F.pow (Const.one.sub x) E).AtMost 1 :=
    ⟨hpf, value_nonneg_iff.2 hp0, by rw [Nat.cast_one]; exact value_le_one_iff.2 hp1⟩
  exact (hA.mul hpow (by omega)).mono (mul_one n).le

theorem Const.zero_lt_ofNat {n : Nat} (h0 : 0 < n) (hn : n ≤ 2 ^ 53) : Const.zero.lt (Binary64.ofNat n) = true := by
  obtain ⟨hf, hv⟩ := Binary64.ofNat_exact hn
  rw [lt_iff_value_lt rfl hf, Const.zero, value_zero, hv]
  exact Nat.cast_pos.2 h0

/-- The kick's frequency sweeps from at most 950 Hz. -/
theorem kickFreq_atMost (hF : PowUnit F) (hx : x.inUnit = true) : (kickFreq F x).AtMost 950 :=
  Const.fifty_atMost.add (env_atMost (n := 900) hF hx (atMost_ofNat (by omega)) (by omega)
    (Const.zero_lt_ofNat (n := 50) (by omega) (by omega))) (by omega)

theorem tickStep_keeps_kickPhase_inUnit (hF : PowUnit F) (hk : s.kickPhase.inUnit = true)
    (h : tickStep F s = .produced v t) : t.kickPhase.inUnit = true := by
  obtain ⟨-, hlt, r, -, rfl⟩ := tickStep_produced h
  exact advance_inUnit_of_atMost hk (kickFreq_atMost hF (beatFraction_inUnit hlt))

end Machine

open Machine in
/-- Settles O44: every frequency is finite and not negative, the kick's where `Pow` lies in [0, 1]. -/
theorem phasesStayInUnit : Obligations.PhasesStayInUnit :=
  ⟨fun _ _ => step_keeps_phasesInUnit, fun _ _ _ _ hF hk h => tickStep_keeps_kickPhase_inUnit hF hk h⟩

end Sys2Proof

/-! CERTIFICATES O12, O46 and O48. What a step may do to the registers that few commands write: the lifecycle and its
fault code (10_state.md R34), the gate flag (R27) and the variant (R31). -/

namespace Sys2Proof

namespace Machine

variable {s t : State}

/-! ### The ticks of a command -/

/-- One tick of the block that produces a sample, committed and emitted. -/
def TicksTo (s t : State) : Prop := ∃ v u, tickStep Config.numeric s = .produced v u ∧ t = emit v u

open Relation (ReflTransGen)

/-- Ticks leave the lifecycle, its fault code, the variant and construction alone. -/
theorem ticks_frame (h : ReflTransGen TicksTo s t) :
    t.lifecycle = s.lifecycle ∧ t.faultCode = s.faultCode ∧ t.variant = s.variant ∧
      t.datapathWritten = s.datapathWritten := by
  induction h with
  | refl => exact ⟨rfl, rfl, rfl, rfl⟩
  | tail _ htick ih =>
    obtain ⟨v, u, hu, rfl⟩ := htick
    obtain ⟨hlife, hcode, hvar, hwrit, -⟩ := tickStep_frame hu
    obtain ⟨hlife', hcode', hvar', hwrit'⟩ := ih
    exact ⟨hlife.trans hlife', hcode.trans hcode', hvar.trans hvar', hwrit.trans hwrit'⟩

/-- A gate that is on stays on in the next tick (44_voices.md R155). -/
theorem gateAfter_of_engaged (hg : s.chordGateEngaged = true) : gateAfter s = true := by
  rw [gateAfter, gateLatch_eq_or, hg, Bool.true_or]

/-- Ticks never disengage the gate. -/
theorem ticks_keep_gate (h : ReflTransGen TicksTo s t) (hg : s.chordGateEngaged = true) :
    t.chordGateEngaged = true := by
  induction h with
  | refl => exact hg
  | tail _ htick ih =>
    obtain ⟨v, u, hu, rfl⟩ := htick
    obtain ⟨-, hgate, -⟩ := tickStep_line hu
    exact hgate.trans (gateAfter_of_engaged ih)

/-! ### What a step does, with the word that makes it -/

/-- The kinds of step, each with what the host presented. -/
inductive Stepped (s : State) : State → Prop where
  /-- Nothing presented (60_exceptions.md R215). -/
  | idle (hq : s.hostIn = []) : Stepped s s
  /-- A word a Faulted block ignores (40_commands.md R103). -/
  | ignored {w rest} (hq : s.hostIn = .command w :: rest) (hl : s.lifecycle = .faulted) :
      Stepped s { s with hostIn := rest }
  /-- Power-on reset (70_reset_and_hazards.md R230). -/
  | reset {rest} (hq : s.hostIn = .rst :: rest) : Stepped s (powerOnReset { s with hostIn := rest })
  /-- A word that is no command, or a command its lifecycle or operand forbids (60_exceptions.md R201). -/
  | refused {w rest c} (hq : s.hostIn = .command w :: rest) (hl : s.lifecycle ≠ .faulted) (hc : c ≠ .none) :
      Stepped s (raiseFault c { s with hostIn := rest })
  /-- A successful INIT (40_commands.md R100). -/
  | constructed {w rest v} (hq : s.hostIn = .command w :: rest) (hd : decode w = .ok (.init v 48000))
      (hl : s.lifecycle = .unconstructed) : Stepped s (construct v { s with hostIn := rest })
  /-- TICK or FILL of a Running block, to its end or to the tick that faults (40_commands.md R101, R102). -/
  | ran {w rest u t} (hq : s.hostIn = .command w :: rest) (hd : decode w = .ok .tick ∨ ∃ n, decode w = .ok (.fill n))
      (hl : s.lifecycle = .running) (hu : ReflTransGen TicksTo { s with hostIn := rest } u)
      (ht : t = u ∨ t = reportCont u ∨ ∃ c, c ≠ .none ∧ t = raiseFault c u) : Stepped s t

theorem stepped_of_step (h : step s = .next t) : Stepped s t := by
  obtain ⟨hq, rfl⟩ | ⟨rest, hq, rfl⟩ | ⟨w, rest, e, hq, -, rfl⟩ | ⟨w, rest, i, hq, hd, he⟩ := step_cases h
  · exact .idle hq
  · exact .reset hq
  · obtain ⟨hl, hi⟩ | ⟨hl, hi⟩ := takeIllegalWord_cases { s with hostIn := rest } <;> rw [hi]
    · exact .ignored hq hl
    · exact .refused hq hl (by decide)
  · cases i with
    | init v sr =>
      obtain ⟨hl, rfl⟩ | ⟨hl, rfl⟩ | ⟨hl, rfl, rfl⟩ | ⟨hl, -, rfl⟩ := execInit_cases he
      · exact .ignored hq hl
      · exact .refused hq (nomatch hl.symm.trans ·) (by decide)
      · exact .constructed hq hd hl
      · exact .refused hq (nomatch hl.symm.trans ·) (by decide)
    | tick =>
      obtain ⟨hl, rfl⟩ | ⟨hl, rfl⟩ | ⟨hl, c, hc, rfl⟩ | ⟨hl, v, u, hu, rfl⟩ := tickWith_cases he
      · exact .ignored hq hl
      · exact .refused hq (nomatch hl.symm.trans ·) (by decide)
      · exact .ran hq (.inl hd) hl .refl (.inr (.inr ⟨c, tickStep_raised_ne_none hc, rfl⟩))
      · exact .ran hq (.inl hd) hl (.single ⟨v, u, hu, rfl⟩) (.inl rfl)
    | fill n =>
      obtain ⟨hl, rfl⟩ | ⟨hl, rfl⟩ | ⟨hl, hticks⟩ := fillWith_cases he
      · exact .ignored hq hl
      · exact .refused hq (nomatch hl.symm.trans ·) (by decide)
      · obtain ⟨u, hu, ht⟩ := fillTicks_induct (P := ReflTransGen TicksTo { s with hostIn := rest })
          (fun _ v _ hrun htick => hrun.tail ⟨v, _, htick, rfl⟩) .refl hticks
        exact .ran hq (.inr ⟨n, hd⟩) hl hu
          (.inr (ht.imp id fun ⟨c, hc, ht⟩ => ⟨c, tickStep_raised_ne_none hc, ht⟩))

/-- An INIT word names the variant in bit 23 (30_encoding.md R72). -/
theorem variant_of_decode_init {w : Word} {v : Variant} {sr : Nat} (h : decode w = .ok (.init v sr)) :
    v = if w.getLsbD 23 then .withDelay else .basic := by
  have hbit : vField w = BitVec.ofBool (w.getLsbD 23) := by
    refine BitVec.eq_of_getLsbD_eq fun i hi => ?_
    obtain rfl : i = 0 := by omega
    simp [vField]
  unfold decode at h
  split_ifs at h <;> cases h
  rw [Variant.ofBit, hbit]
  cases w.getLsbD 23 <;> rfl

end Machine

open Machine

/-- Settles O12, by the kinds of step. -/
theorem lifecycleTransitions : Obligations.LifecycleTransitions := by
  intro s t h
  cases stepped_of_step h with
  | idle | ignored => exact .inl ⟨rfl, rfl⟩
  | reset hq => exact .inr (.inr (.inr ⟨by rw [hq]; rfl, rfl⟩))
  | @refused w _ _ hq hl hc => exact .inr (.inr (.inl ⟨hl, rfl, hc, w, by rw [hq]; rfl⟩))
  | @constructed w _ v hq hd hl => exact .inr (.inl ⟨hl, rfl, rfl, w, v, by rw [hq]; rfl, hd⟩)
  | @ran w _ u _ hq _ hl hu ht =>
    obtain ⟨hlife, hcode, -⟩ := ticks_frame hu
    obtain rfl | rfl | ⟨c, hc, rfl⟩ := ht
    · exact .inl ⟨hlife, hcode⟩
    · exact .inl ⟨hlife, hcode⟩
    · exact .inr (.inr (.inl ⟨(nomatch hl.symm.trans ·), rfl, hc, w, by rw [hq]; rfl⟩))

/-- Settles O46: only construction and ticks write the flag of a block that is not reset. -/
theorem gateNeverReverts : Obligations.GateNeverReverts := by
  intro s t hs h
  cases stepped_of_step h with
  | idle | ignored | refused =>
    exact ⟨fun _ _ hg => hg, fun h0 h1 => absurd h1 (by simp [h0]), fun _ _ hne => absurd rfl hne⟩
  | reset hq => exact ⟨nofun, nofun, nofun⟩
  | constructed hq hd hl =>
    have hunwritten := hs.unconstructedUnwritten hl
    exact ⟨fun h1 => absurd h1 (by simp [hunwritten]), fun _ _ => rfl, fun h1 => absurd h1 (by simp [hunwritten])⟩
  | @ran w _ u _ hq hd hl hu ht =>
    obtain ⟨-, -, -, hwrit⟩ := ticks_frame hu
    have hsame : t.datapathWritten = u.datapathWritten ∧ t.chordGateEngaged = u.chordGateEngaged := by
      obtain rfl | rfl | ⟨c, -, rfl⟩ := ht <;> exact ⟨rfl, rfl⟩
    rw [hsame.1, hsame.2, hwrit]
    exact ⟨fun _ _ hg => ticks_keep_gate hu hg, fun h0 h1 => absurd h1 (by simp [h0]),
      fun _ _ _ => ⟨w, by rw [hq]; rfl, hd⟩⟩

/-- Settles O48: only power-on reset and construction write the variant. -/
theorem onlyInitWritesVariant : Obligations.OnlyInitWritesVariant := by
  intro s t h
  cases stepped_of_step h with
  | idle | ignored | refused => exact .inl rfl
  | reset hq => exact .inr (.inl ⟨by rw [hq]; rfl, rfl⟩)
  | @constructed w _ v hq hd hl =>
    exact .inr (.inr ⟨hl, rfl, w, by rw [hq]; rfl, ⟨v, hd⟩, variant_of_decode_init hd⟩)
  | ran _ _ _ hu ht =>
    obtain ⟨-, -, hvar, -⟩ := ticks_frame hu
    obtain rfl | rfl | ⟨c, -, rfl⟩ := ht <;> exact .inl hvar

end Sys2Proof

/-! CERTIFICATE O18. Reads that no run reaches (10_state.md R20; 20_memory.md R51). -/

namespace Sys2Proof

namespace Machine

variable {F : NumericConfig} {s : State}

/-- A delay call at a cursor out of range stops at its first read. -/
theorem delay_out_of_range (input : Binary64) {line : DelayLine} (h : Const.delayLen ≤ line.cursor.toNat) :
    delay input line = .error .dlyAddressOutOfRange := by
  rw [delay, delayCall, memRead, if_neg h.not_gt]

/-- Under WithDelay with the gate on, a tick that would use such a cursor stops. -/
theorem tickStep_out_of_range (hw : s.datapathWritten = true) (hn : s.sampleCount.toNat < Const.indexLimit)
    (hv : s.variant = .withDelay) (hg : gateAfter s = true) (hc : Const.delayLen ≤ s.delayWriteIndex.toNat) :
    tickStep F s = .stopped .dlyAddressOutOfRange := by
  have hchord : chordVoice F (clock s.sampleCount.toNat) (gateAfter s) s = .error .dlyAddressOutOfRange := by
    unfold chordVoice chordTap
    dsimp only
    rw [hg, if_pos rfl, delay_out_of_range _ hc, hv]
  rw [gateAfter] at hchord
  rw [tickStep, if_neg (by simp [hw]), if_neg hn.not_ge, tickAt, hchord]

theorem exec_tick_of_raised {c : FaultCode} (hl : s.lifecycle = .running)
    (h : tickStep Config.numeric s = .raised c) : exec .tick s = .next (raiseFault c s) := by
  rw [exec, execTick, tickWith, hl]
  dsimp only
  rw [h]

theorem exec_tick_of_stopped {f : Fault} (hl : s.lifecycle = .running)
    (h : tickStep Config.numeric s = .stopped f) : exec .tick s = .fault f := by
  rw [exec, execTick, tickWith, hl]
  dsimp only
  rw [h]

end Machine

open Machine in
/-- Settles O18: TICK and a FILL's first tick end as their TickStep does. -/
theorem unreachableReadsFault : Obligations.UnreachableReadsFault := by
  intro s hl
  refine ⟨fun hw => ?_, fun hw hn hv hg hc => ?_⟩
  · have htick : tickStep Config.numeric s = .raised .notConstructed := tickStep_raised.2 (.inl ⟨hw, rfl⟩)
    exact ⟨exec_tick_of_raised hl htick, fun n => (exec_fill_of_running _ hl).trans (fillTicks_of_raised htick)⟩
  · have htick : tickStep Config.numeric s = .stopped .dlyAddressOutOfRange :=
      tickStep_out_of_range hw hn hv (gateAfter_of_engaged hg) hc
    exact ⟨exec_tick_of_stopped hl htick, fun n => (exec_fill_of_running _ hl).trans (fillTicks_of_stopped htick)⟩

end Sys2Proof

/-! CERTIFICATE O50. The status word's fields (10_state.md R33). -/

namespace Sys2Proof

namespace Machine

/-- Three fields side by side add up. -/
theorem toNat_or_fields (l : BitVec 2) (v : BitVec 1) (c : BitVec 4) :
    (l.setWidth 32 ||| (v.setWidth 32 <<< 2) ||| (c.setWidth 32 <<< 4)).toNat = l.toNat + 4 * v.toNat + 16 * c.toNat := by
  revert l v c
  decide

theorem statusWord_toNat (s : State) :
    s.statusWord.toNat = s.lifecycle.bits.toNat + 4 * s.variant.bit.toNat + 16 * s.faultCode.bits.toNat :=
  toNat_or_fields _ _ _

end Machine

/-- Settles O50: the fields do not overlap, so each is read back by its place. -/
theorem statusWordLayout : Obligations.StatusWordLayout := by
  intro s
  have hl := s.lifecycle.bits.isLt
  have hv := s.variant.bit.isLt
  have hc := s.faultCode.bits.isLt
  have hsum := Machine.statusWord_toNat s
  refine ⟨?_, ?_, by omega, ?_, by omega⟩
  · rw [show s.statusWord.toNat % 4 = s.lifecycle.bits.toNat by omega]
    cases s.lifecycle <;> rfl
  · rw [show s.statusWord.toNat / 4 % 2 = s.variant.bit.toNat by omega]
    cases s.variant <;> rfl
  · rw [show s.statusWord.toNat / 16 % 16 = s.faultCode.bits.toNat by omega]
    cases s.faultCode <;> rfl

end Sys2Proof

/-! CERTIFICATE O49. The pattern ROM (10_state.md R30; 20_memory.md R52). -/

namespace Sys2Proof

namespace Machine

variable {s t : State}

/-- The hits of the pattern, step by step (10_state.md R30). -/
theorem romRead_pattern : ∀ i : Fin 16, romRead Const.pattern i = decide (i.val ∈ [0, 3, 5, 10, 12]) := by decide

/-- No part of a step writes `PAT`, power-on reset included. -/
theorem step_keeps_pat (h : step s = .next t) : t.pat = s.pat :=
  step_induct (P := fun u => u.pat = s.pat)
    (fun _ _ hpat => hpat) (fun _ hpat => hpat) (fun _ _ hpat _ => hpat) (fun _ _ hpat _ => hpat)
    (fun _ _ _ hpat _ htick => by
      obtain ⟨-, -, -, -, hsame, -⟩ := tickStep_frame htick
      exact hsame.trans hpat)
    (fun _ hpat _ => hpat) rfl h

end Machine

open Machine in
/-- Settles O49: every part of a step keeps `PAT`, and a well-formed state holds the fixed pattern. -/
theorem nothingWritesThePattern : Obligations.NothingWritesThePattern :=
  ⟨fun _ _ => step_keeps_pat, fun _ n hs => by rw [hs.patFixed]; exact romRead_pattern (clock n).step⟩

end Sys2Proof

/-! CERTIFICATE O51. Under Basic the delay line is never accessed (20_memory.md R53). -/

namespace Sys2Proof

namespace Machine

variable {F : NumericConfig} {s t : State} (m : Memory) (c : BitVec 15)

/-! ### A tick under Basic -/

/-- Steps 6 and 7 under Basic pass any delay line through, and nothing else they return depends on it
(44_voices.md R168). -/
theorem chordVoice_basic_line {T : MusicalTime} {engaged : Bool} {r : ChordResult} (hv : s.variant = .basic)
    (h : chordVoice F T engaged s = .ok r) :
    chordVoice F T engaged { s with dly := m, delayWriteIndex := c } = .ok { r with line := ⟨c, m⟩ } := by
  cases engaged with
  | false => rw [chordVoice_off h]; rfl
  | true =>
    rw [chordVoice_basic hv] at h
    cases h
    exact chordVoice_basic (s := { s with dly := m, delayWriteIndex := c }) hv

theorem tickStep_produced_line {x : Binary64} (hv : s.variant = .basic) (h : tickStep F s = .produced x t) :
    tickStep F { s with dly := m, delayWriteIndex := c } =
      .produced x { t with dly := m, delayWriteIndex := c } := by
  obtain ⟨hw, hn, r, hr, -⟩ := tickStep_produced h
  rw [tickStep_of_chordVoice hw hn hr] at h
  cases h
  exact tickStep_of_chordVoice (s := { s with dly := m, delayWriteIndex := c }) hw hn
    (chordVoice_basic_line m c hv hr)

/-- The faults of a tick do not read the delay line (10_state.md R20, R22). -/
theorem tickStep_raised_line {e : FaultCode} (h : tickStep F s = .raised e) :
    tickStep F { s with dly := m, delayWriteIndex := c } = .raised e := by
  rw [tickStep_raised] at h ⊢
  exact h

/-! ### TICK and FILL under Basic -/

theorem exec_tick_of_faulted (hl : s.lifecycle = .faulted) : exec .tick s = .next s := by
  rw [exec, execTick, tickWith, hl]

theorem exec_tick_of_unconstructed (hl : s.lifecycle = .unconstructed) :
    exec .tick s = .next (raiseFault .notConstructed s) := by
  rw [exec, execTick, tickWith, hl]

theorem exec_tick_line (hv : s.variant = .basic) (h : exec .tick s = .next t) :
    exec .tick { s with dly := m, delayWriteIndex := c } = .next { t with dly := m, delayWriteIndex := c } := by
  obtain ⟨hl, rfl⟩ | ⟨hl, rfl⟩ | ⟨hl, e, htick, rfl⟩ | ⟨hl, x, u, htick, rfl⟩ := tickWith_cases h
  · exact exec_tick_of_faulted hl
  · exact exec_tick_of_unconstructed hl
  · exact exec_tick_of_raised hl (tickStep_raised_line m c htick)
  · exact tickWith_of_produced (s := { s with dly := m, delayWriteIndex := c }) hl
      (tickStep_produced_line m c hv htick)

/-- The ticks of a FILL: each keeps the variant, so the next one is under Basic too. -/
theorem fillTicks_line {n : Nat} (hv : s.variant = .basic) (h : fillTicks F n s = .next t) :
    fillTicks F n { s with dly := m, delayWriteIndex := c } = .next { t with dly := m, delayWriteIndex := c } := by
  induction n generalizing s with
  | zero => cases h; rfl
  | succ n ih =>
    cases htick : tickStep F s with
    | produced x u =>
      obtain ⟨-, -, hvar, -⟩ := tickStep_frame htick
      rw [fillTicks_of_produced htick] at h
      rw [fillTicks_of_produced (tickStep_produced_line m c hv htick)]
      exact ih (s := emit x u) (hvar.trans hv) h
    | raised e =>
      rw [fillTicks_of_raised htick] at h
      rw [fillTicks_of_raised (tickStep_raised_line m c htick)]
      cases h
      rfl
    | stopped f =>
      rw [fillTicks_of_stopped htick] at h
      cases h

theorem exec_fill_line {n : Nat} (hv : s.variant = .basic) (h : exec (.fill n) s = .next t) :
    exec (.fill n) { s with dly := m, delayWriteIndex := c } = .next { t with dly := m, delayWriteIndex := c } := by
  obtain ⟨hl, rfl⟩ | ⟨hl, rfl⟩ | ⟨hl, hticks⟩ := fillWith_cases h
  · exact exec_fill_of_faulted n hl
  · exact exec_fill_of_unconstructed n hl
  · rw [exec_fill_of_running (s := { s with dly := m, delayWriteIndex := c }) n hl]
    exact fillTicks_line m c hv hticks

end Machine

open Machine in
/-- Settles O51, by the command: each is made of ticks, and a tick under Basic passes the delay line through. -/
theorem basicIgnoresTheDelayLine : Obligations.BasicIgnoresTheDelayLine := by
  rintro s t m c i (rfl | ⟨n, rfl⟩) hv h
  · exact exec_tick_line m c hv h
  · exact exec_fill_line m c hv h

end Sys2Proof

/-! CERTIFICATES O1, O2 and O3. A command word and its fields as numbers, and the decoder and the encoder as inverses of
each other (30_encoding.md R71 to R75). -/

namespace Sys2Proof

variable {w : Word} {v : Variant} {sr n : Nat} {i : Instr}

/-! ### The fields of a word as parts of its number (R71) -/

theorem opField_toNat (w : Word) : (opField w).toNat = w.toNat / 2 ^ 24 := by
  rw [opField, BitVec.extractLsb'_toNat, Nat.shiftRight_eq_div_pow]
  exact Nat.mod_eq_of_lt (Nat.div_lt_of_lt_mul w.isLt)

theorem vField_toNat (w : Word) : (vField w).toNat = w.toNat / 2 ^ 23 % 2 := by
  rw [vField, BitVec.extractLsb'_toNat, Nat.shiftRight_eq_div_pow, pow_one]

theorem res3Field_toNat (w : Word) : (res3Field w).toNat = w.toNat / 2 ^ 20 % 8 := by
  rw [res3Field, BitVec.extractLsb'_toNat, Nat.shiftRight_eq_div_pow]

theorem srField_toNat (w : Word) : (srField w).toNat = w.toNat % 2 ^ 20 := by
  rw [srField, BitVec.extractLsb'_toNat, Nat.shiftRight_zero]

theorem low24Field_toNat (w : Word) : (low24Field w).toNat = w.toNat % 2 ^ 24 := by
  rw [low24Field, BitVec.extractLsb'_toNat, Nat.shiftRight_zero]

theorem variant_ofBit_eq_iff {b : BitVec 1} : Variant.ofBit b = v ↔ b = v.bit := by
  revert b
  cases v <;> decide

/-! ### The number of a command's word (R78) -/

theorem encode_init_toNat (v : Variant) (sr : Nat) :
    (encode (.init v sr)).toNat = 2 ^ 24 + v.bit.toNat * 2 ^ 23 + sr % 2 ^ 20 := by
  have hsr : sr % 2 ^ 20 < 2 ^ 23 := (Nat.mod_lt sr (Nat.two_pow_pos 20)).trans (by decide)
  cases v <;> rw [encode, BitVec.toNat_or, BitVec.toNat_setWidth_of_le (by decide), BitVec.toNat_ofNat]
  · exact (Nat.two_pow_add_eq_or_of_lt hsr 2).symm
  · exact (Nat.two_pow_add_eq_or_of_lt hsr 3).symm

theorem encode_tick_toNat : (encode .tick).toNat = 2 * 2 ^ 24 := rfl

theorem encode_fill_toNat (n : Nat) : (encode (.fill n)).toNat = 3 * 2 ^ 24 + n % 2 ^ 24 := by
  rw [encode, BitVec.toNat_or, BitVec.toNat_setWidth_of_le (by decide), BitVec.toNat_ofNat]
  exact (Nat.two_pow_add_eq_or_of_lt (Nat.mod_lt n (Nat.two_pow_pos 24)) 3).symm

/-! ### What the decoder answers, by the fields (R75, R76) -/

theorem decode_eq_init_iff : decode w = .ok (.init v sr) ↔
    opField w = 1#8 ∧ res3Field w = 0#3 ∧ vField w = v.bit ∧ (srField w).toNat = sr := by
  unfold decode
  rw [BitVec.toNat_setWidth_of_le (by decide), BitVec.toNat_setWidth_of_le (by decide)]
  split_ifs <;> simp_all [variant_ofBit_eq_iff]

theorem decode_eq_tick_iff : decode w = .ok .tick ↔ opField w = 2#8 ∧ low24Field w = 0#24 := by
  unfold decode
  split_ifs <;> simp_all

theorem decode_eq_fill_iff : decode w = .ok (.fill n) ↔ opField w = 3#8 ∧ (low24Field w).toNat = n := by
  unfold decode
  rw [BitVec.toNat_setWidth_of_le (by decide), BitVec.toNat_setWidth_of_le (by decide)]
  split_ifs <;> simp_all

/-- The illegal words of R76: a reserved opcode, an INIT with `RES3` not 0, a TICK with `RES24` not 0. -/
theorem decode_eq_error_iff : (∃ e, decode w = .error e) ↔
    (opField w ≠ 1#8 ∧ opField w ≠ 2#8 ∧ opField w ≠ 3#8) ∨ (opField w = 1#8 ∧ res3Field w ≠ 0#3) ∨
      (opField w = 2#8 ∧ low24Field w ≠ 0#24) := by
  unfold decode
  split_ifs <;> simp_all

/-! ### Well-formed commands (R72, R74) -/

theorem wellFormed_init_iff : WellFormed (.init v sr) ↔ sr < 2 ^ 20 := decide_eq_true_iff

theorem wellFormed_tick : WellFormed .tick := rfl

theorem wellFormed_fill_iff : WellFormed (.fill n) ↔ n < 2 ^ 24 :=
  decide_eq_true_iff.trans (Nat.le_sub_one_iff_lt (by decide))

/-! ### Decoder and encoder -/

/-- A word decodes to a command exactly when the command is well-formed and the word is its word. -/
theorem decode_eq_ok_iff : decode w = .ok i ↔ encode i = w ∧ WellFormed i := by
  rw [← BitVec.toNat_inj]
  cases i with
  | init v sr =>
    have hbit := v.bit.isLt
    simp only [decode_eq_init_iff, wellFormed_init_iff, encode_init_toNat, ← BitVec.toNat_inj, opField_toNat,
      res3Field_toNat, vField_toNat, srField_toNat, BitVec.toNat_ofNat]
    omega
  | tick =>
    simp only [and_iff_left wellFormed_tick, decode_eq_tick_iff, encode_tick_toNat, ← BitVec.toNat_inj, opField_toNat,
      low24Field_toNat, BitVec.toNat_ofNat]
    omega
  | fill n =>
    simp only [decode_eq_fill_iff, wellFormed_fill_iff, encode_fill_toNat, ← BitVec.toNat_inj, opField_toNat,
      low24Field_toNat, BitVec.toNat_ofNat]
    omega

theorem decode_encode (h : WellFormed i) : decode (encode i) = .ok i := decode_eq_ok_iff.2 ⟨rfl, h⟩

/-- Settles O2: a well-formed command and its word are the two sides of `decode_eq_ok_iff`. -/
theorem decodeInvertsEncode : Obligations.DecodeInvertsEncode := fun _ => decode_encode

/-- Settles O3, by the same equivalence read from the word. -/
theorem encodeInvertsDecode : Obligations.EncodeInvertsDecode := fun _ _ => decode_eq_ok_iff.1

/-- Settles O1: nine fixed words, each decoded by evaluation. -/
theorem writtenWordsDecode : Obligations.WrittenWordsDecode := by
  refine ⟨?_, ?_, ?_, ?_, ?_, ?_, ?_, ?_, ?_⟩ <;> decide

end Sys2Proof

/-! CERTIFICATE O4. The opcode map by its masks (30_encoding.md R75). -/

namespace Sys2Proof

variable {w : Word}

/-- The mask of an INIT row covers `OP` and `RES3` (R75). -/
theorem fields_of_init_mask (h : w &&& 0xFF700000#32 = 0x01000000#32) : opField w = 1#8 ∧ res3Field w = 0#3 := by
  have hop : opField w &&& BitVec.allOnes 8 = 1#8 := BitVec.extractLsb'_and.symm.trans (congrArg opField h)
  have hres : res3Field w &&& BitVec.allOnes 3 = 0#3 := BitVec.extractLsb'_and.symm.trans (congrArg res3Field h)
  exact ⟨BitVec.and_allOnes.symm.trans hop, BitVec.and_allOnes.symm.trans hres⟩

/-- The mask of a FILL row covers `OP` (R75). -/
theorem opField_of_fill_mask (h : w &&& 0xFF000000#32 = 0x03000000#32) : opField w = 3#8 := by
  have hop : opField w &&& BitVec.allOnes 8 = 3#8 := BitVec.extractLsb'_and.symm.trans (congrArg opField h)
  exact BitVec.and_allOnes.symm.trans hop

theorem decode_of_init_mask (h : w &&& 0xFF700000#32 = 0x01000000#32) :
    decode w = .ok (.init (if w.getLsbD 23 then .withDelay else .basic) (w.toNat % 2 ^ 20)) := by
  obtain ⟨hop, hres⟩ := fields_of_init_mask h
  have hdecode : decode w = .ok (.init (Variant.ofBit (vField w)) (w.toNat % 2 ^ 20)) :=
    decode_eq_init_iff.2 ⟨hop, hres, variant_ofBit_eq_iff.1 rfl, srField_toNat w⟩
  rwa [Machine.variant_of_decode_init hdecode] at hdecode

theorem decode_of_fill_mask (h : w &&& 0xFF000000#32 = 0x03000000#32) : decode w = .ok (.fill (w.toNat % 2 ^ 24)) :=
  decode_eq_fill_iff.2 ⟨opField_of_fill_mask h, low24Field_toNat w⟩

open Laws in
/-- A word that decodes matches the row of its command (R75). -/
theorem rowMatch_of_decode {i : Instr} (h : decode w = .ok i) : w &&& rowMask i = rowMatch i := by
  obtain ⟨rfl, -⟩ := decode_eq_ok_iff.1 h
  cases i with
  | init v sr => exact OpcodeRow.init v sr
  | tick => exact OpcodeRow.tick
  | fill n => exact OpcodeRow.fill n

/-- Settles O4: a word that matches a row has its fields, and a word that decodes matches the row of its command. -/
theorem opcodeMapByMasks : Obligations.OpcodeMapByMasks := by
  refine fun w => ⟨decode_of_init_mask, fun h => decode_eq_ok_iff.2 ⟨h.symm, wellFormed_tick⟩, decode_of_fill_mask,
    fun hinit htick hfill => ?_⟩
  cases hd : decode w with
  | error e => exact ⟨e, rfl⟩
  | ok i =>
    have hrow := rowMatch_of_decode hd
    cases i with
    | init => exact absurd hrow hinit
    | tick => exact absurd (decode_eq_ok_iff.1 hd).1.symm htick
    | fill => exact absurd hrow hfill

end Sys2Proof

/-! CERTIFICATES O5 and O6. A step on the word it takes (30_encoding.md R70, R76). -/

namespace Sys2Proof

namespace Machine

variable {s : State} {w : Word} {rest : List HostMove}

/-- The block takes the oldest word and runs the command it decodes to (R70). -/
theorem step_of_decode_ok {i : Instr} (hq : s.hostIn = .command w :: rest) (hd : decode w = .ok i) :
    step s = exec i { s with hostIn := rest } := by
  rw [step, takeMove, hq]
  dsimp only
  rw [hd]

/-- The block takes the oldest word and answers it as an illegal one (R76). -/
theorem step_of_decode_error {e : IllegalWord} (hq : s.hostIn = .command w :: rest) (hd : decode w = .error e) :
    step s = .next (takeIllegalWord { s with hostIn := rest }) := by
  rw [step, takeMove, hq]
  dsimp only
  rw [hd]

theorem takeIllegalWord_of_not_faulted (hl : s.lifecycle ≠ .faulted) :
    takeIllegalWord s = raiseFault .illegalCommand s := by
  obtain ⟨h, -⟩ | ⟨-, h⟩ := takeIllegalWord_cases s
  · exact absurd h hl
  · exact h

theorem exec_init_of_unsupported (v : Variant) {sr : Nat} (hl : s.lifecycle = .unconstructed) (hsr : sr ≠ 48000) :
    exec (.init v sr) s = .next (raiseFault .unsupportedSampleRate s) := by
  have hrate : rateSupported sr = false := decide_eq_false hsr
  rw [exec, execInit, hl]
  dsimp only
  rw [hrate, if_neg Bool.false_ne_true]

end Machine

open Machine

/-- The illegal words of R76 by their numbers. -/
theorem decode_eq_error_iff_toNat {w : Word} : (∃ e, decode w = .error e) ↔
    (w.toNat / 2 ^ 24 ≠ 1 ∧ w.toNat / 2 ^ 24 ≠ 2 ∧ w.toNat / 2 ^ 24 ≠ 3) ∨
    (w.toNat / 2 ^ 24 = 1 ∧ w.toNat / 2 ^ 20 % 8 ≠ 0) ∨ (w.toNat / 2 ^ 24 = 2 ∧ w.toNat % 2 ^ 24 ≠ 0) := by
  simp only [decode_eq_error_iff, ne_eq, ← BitVec.toNat_inj, opField_toNat, res3Field_toNat, low24Field_toNat]
  rfl

/-- Settles O5, by the fields of the word, what a step does with an illegal one, and INIT's check of its rate. -/
theorem illegalWordsFault : Obligations.IllegalWordsFault := by
  refine ⟨fun _ => decode_eq_error_iff_toNat, fun s w rest e hq hd hl => ?_, fun s v sr rest hq hsr hne hl => ?_⟩
  · have hword := takeIllegalWord_of_not_faulted (s := { s with hostIn := rest }) hl
    exact (step_of_decode_error hq hd).trans (congrArg Host.Outcome.next hword)
  · have hinit := exec_init_of_unsupported (s := { s with hostIn := rest }) v hl hne
    exact (step_of_decode_ok hq (decode_encode (wellFormed_init_iff.2 hsr))).trans hinit

/-- Settles O6: it is what a step does with a word that decodes. -/
theorem stepRunsTheDecodedCommand : Obligations.StepRunsTheDecodedCommand := fun _ _ _ _ => step_of_decode_ok

end Sys2Proof

/-! CERTIFICATES O53 and O54. What a line of a program stands for, and the words of a text (30_encoding.md R78, R79). -/

namespace Sys2Proof

namespace Machine

/-! ### RUN's FILLs (R79) -/

variable {k : Nat}

theorem runFills_of_lt (h : k < 2 ^ 24) : runFills k = [.fill k] := if_pos h

theorem runFills_of_le (h : 2 ^ 24 ≤ k) : runFills k =
    List.replicate (k / fillMax) (.fill fillMax) ++ if k % fillMax = 0 then [] else [.fill (k % fillMax)] :=
  if_neg h.not_gt

/-- RUN expands to FILLs that fit their words. -/
theorem runFills_wellFormed : ∀ i ∈ runFills k, WellFormed i := by
  have hmax : fillMax < 2 ^ 24 := by decide
  rcases lt_or_ge k (2 ^ 24) with h | h
  · rw [runFills_of_lt h]
    exact List.forall_mem_singleton.2 (wellFormed_fill_iff.2 h)
  · rw [runFills_of_le h]
    refine List.forall_mem_append.2 ⟨fun i hi => ?_, ?_⟩
    · rw [List.eq_of_mem_replicate hi]
      exact wellFormed_fill_iff.2 hmax
    · split_ifs
      · exact List.forall_mem_nil _
      · have hrem : k % fillMax < fillMax := Nat.mod_lt _ (by decide)
        exact List.forall_mem_singleton.2 (wellFormed_fill_iff.2 (hrem.trans hmax))

/-- Equal FILLs count as often as they stand, for a total that adds each FILL's count. -/
theorem foldl_replicate_fill {total : Nat → Instr → Nat} (ht : ∀ t n, total t (.fill n) = t + n) (m n t : Nat) :
    (List.replicate m (.fill n)).foldl total t = t + m * n := by
  induction m generalizing t with
  | zero => simp
  | succ m ih => rw [List.replicate_succ, List.foldl_cons, ht, ih]; ring

theorem foldl_runFills {total : Nat → Instr → Nat} (ht : ∀ t n, total t (.fill n) = t + n) (k : Nat) :
    (runFills k).foldl total 0 = k := by
  rcases lt_or_ge k (2 ^ 24) with h | h
  · rw [runFills_of_lt h, List.foldl_cons, ht, List.foldl_nil, zero_add]
  · have hdiv := Nat.div_add_mod' k fillMax
    rw [runFills_of_le h, List.foldl_append, foldl_replicate_fill ht, zero_add]
    split_ifs with hrem
    · rw [hrem, add_zero] at hdiv
      exact hdiv
    · rw [List.foldl_cons, ht]
      exact hdiv

theorem run_commands (t : Nat) : (AsmLine.run t).commands = some (runFills (48 * t)) :=
  congrArg (fun k => some (runFills k)) (Nat.mul_comm t 48)

/-! ### The commands of an accepted text -/

/-- The assembler accepts well-formed commands only. -/
theorem commands_wellFormed {line : AsmLine} {is : List Instr} (h : line.commands = some is) :
    ∀ i ∈ is, WellFormed i := by
  cases line with
  | blank => cases h; exact List.forall_mem_nil _
  | init v sr =>
    obtain ⟨hsr, ⟨⟩⟩ := Option.ite_none_right_eq_some.1 h
    exact List.forall_mem_singleton.2 (wellFormed_init_iff.2 hsr)
  | tick => cases h; exact List.forall_mem_singleton.2 wellFormed_tick
  | fill n =>
    obtain ⟨hn, ⟨⟩⟩ := Option.ite_none_right_eq_some.1 h
    exact List.forall_mem_singleton.2 (wellFormed_fill_iff.2 hn)
  | run t => cases h; exact runFills_wellFormed

/-- The first line's commands come first. -/
theorem assembleLines_cons (l : List Char) (ls : List (List Char)) :
    assembleLines (l :: ls) =
      ((parseLine l).bind AsmLine.commands).bind fun is => (assembleLines ls).map (is ++ ·) := by
  rw [assembleLines]
  cases (parseLine l).bind AsmLine.commands with
  | none => rfl
  | some is => cases assembleLines ls <;> rfl

theorem assembleLines_wellFormed {ls : List (List Char)} {is : List Instr} (h : assembleLines ls = some is) :
    ∀ i ∈ is, WellFormed i := by
  induction ls generalizing is with
  | nil => cases h; exact List.forall_mem_nil _
  | cons l ls ih =>
    rw [assembleLines_cons] at h
    obtain ⟨first, hfirst, h⟩ := Option.bind_eq_some_iff.1 h
    obtain ⟨rest, hrest, rfl⟩ := Option.map_eq_some_iff.1 h
    obtain ⟨line, -, hline⟩ := Option.bind_eq_some_iff.1 hfirst
    exact List.forall_mem_append.2 ⟨commands_wellFormed hline, ih hrest⟩

/-! ### The words of R78 -/

theorem encode_init_basic {sr : Nat} (h : sr < 2 ^ 20) :
    encode (.init .basic sr) = 0x01000000#32 ||| BitVec.ofNat 32 sr := by
  rw [encode, BitVec.setWidth_ofNat_of_le_of_lt (by decide) h]

theorem encode_init_withDelay {sr : Nat} (h : sr < 2 ^ 20) :
    encode (.init .withDelay sr) = 0x01800000#32 ||| BitVec.ofNat 32 sr := by
  rw [encode, BitVec.setWidth_ofNat_of_le_of_lt (by decide) h]

theorem encode_fill {n : Nat} (h : n < 2 ^ 24) : encode (.fill n) = 0x03000000#32 ||| BitVec.ofNat 32 n := by
  rw [encode, BitVec.setWidth_ofNat_of_le_of_lt (by decide) h]

end Machine

open Machine

/-- Settles O53: the words of a text are those of its commands, which are well-formed, so each decodes to its own. -/
theorem assembledWordsAreCommands : Obligations.AssembledWordsAreCommands := by
  refine ⟨fun _ _ => rfl, rfl, fun _ => rfl, rfl, fun _ h => ⟨encode_init_basic h, encode_init_withDelay h⟩, rfl,
    fun _ => encode_fill, fun text words h => ?_⟩
  obtain ⟨is, his, rfl⟩ := Option.map_eq_some_iff.1 h
  refine ⟨is, his, rfl, ?_⟩
  rw [List.map_map]
  exact List.map_congr_left fun i hi => decode_encode (assembleLines_wellFormed his i hi)

/-- Settles O54: `k` is its full blocks and their remainder. -/
theorem runExpandsToItsSamples : Obligations.RunExpandsToItsSamples :=
  ⟨run_commands, fun k => ⟨runFills_of_lt, fun h => ⟨k / fillMax, runFills_of_le h, Nat.div_add_mod' k fillMax⟩,
    foldl_runFills (fun _ _ => rfl) k, fun _ => runFills_wellFormed _⟩⟩

end Sys2Proof

/-! CERTIFICATE O55. From a program's text to its words (30_encoding.md R78, R79). -/

namespace Sys2Proof

namespace Machine

/-! ### Numbers -/

/-- The decimal text of some digits. -/
def decimalText (ds : List (Fin 10)) : List Char := ds.map fun d => Nat.digitChar d.val

theorem decimalText_plain (ds : List (Fin 10)) : ∀ c ∈ decimalText ds, isPlain c = true :=
  List.forall_mem_map.2 fun d _ => (digitChar_plain d).1

theorem point_notMem_decimalText (ds : List (Fin 10)) : '.' ∉ decimalText ds := fun h => by
  obtain ⟨d, -, hd⟩ := List.mem_map.1 h
  exact (digitChar_plain d).2 hd

theorem decimalText_ne_nil {ds : List (Fin 10)} (h : ds ≠ []) : decimalText ds ≠ [] := mt List.map_eq_nil_iff.1 h

theorem readDigits_decimalText (ds : List (Fin 10)) :
    readDigits decimalDigit 10 0 (decimalText ds) = some (digitsValue 10 (ds.map Fin.val)) :=
  readDigits_map decimalDigit_digitChar ds 0

/-- A text without an `x` is read in decimal. -/
theorem readInteger_decimal {text : List Char} (hne : text ≠ []) (hx : 'x' ∉ text) :
    readInteger text = readDigits decimalDigit 10 0 text := by
  unfold readInteger
  split
  · exact absurd rfl hne
  · exact absurd (by decide) hx
  · simp at hx
  · rfl

/-- What follows `0x` is read in hexadecimal. -/
theorem readInteger_hexadecimal {text : List Char} (hne : text ≠ []) :
    readInteger ('0' :: 'x' :: text) = readDigits hexDigit 16 0 text := by
  cases text with
  | nil => exact absurd rfl hne
  | cons c cs => rfl

theorem readInteger_decimalText {ds : List (Fin 10)} (h : ds ≠ []) :
    readInteger (decimalText ds) = some (digitsValue 10 (ds.map Fin.val)) := by
  have hx : 'x' ∉ decimalText ds := fun hmem => by
    obtain ⟨d, -, hd⟩ := List.mem_map.1 hmem
    revert d
    decide
  rw [readInteger_decimal (decimalText_ne_nil h) hx, readDigits_decimalText]

/-- A number without a point is read in whole seconds. -/
theorem readThousandths_whole {whole : List Char} (hne : whole ≠ []) (hpoint : '.' ∉ whole) :
    readThousandths whole = (readDigits decimalDigit 10 0 whole).map (· * 1000) := by
  have hall : ∀ c ∈ whole, decide (c ≠ '.') = true := fun c hc => decide_eq_true (ne_of_mem_of_not_mem hc hpoint)
  unfold readThousandths
  rw [List.takeWhile_eq_self_iff.2 hall, List.dropWhile_eq_nil_iff.2 hall]
  exact if_neg hne

/-- A number with a point has one to three fractional digits. -/
theorem readThousandths_point {whole : List Char} (fraction : List Char) (hne : whole ≠ []) (hpoint : '.' ∉ whole) :
    readThousandths (whole ++ '.' :: fraction) =
      if fraction = [] ∨ 3 < fraction.length then none
      else (readDigits decimalDigit 10 0 (whole ++ fraction)).map (· * 10 ^ (3 - fraction.length)) := by
  have hall : ∀ c ∈ whole, decide (c ≠ '.') = true := fun c hc => decide_eq_true (ne_of_mem_of_not_mem hc hpoint)
  unfold readThousandths
  rw [List.takeWhile_append_of_pos hall, List.dropWhile_append_of_pos hall, List.takeWhile_cons_of_neg (by simp),
    List.dropWhile_cons_of_neg (by simp), List.append_nil]
  exact if_neg hne

/-! ### Lines and texts -/

theorem parseLine_of_notMem {line : List Char} (h : ';' ∉ line) : parseLine line = parseTokens (tokensFrom [] line) := by
  rw [parseLine, List.takeWhile_eq_self_iff.2 fun c hc => decide_eq_true (ne_of_mem_of_not_mem hc h)]

theorem takeWhile_append_comment (line comment : List Char) :
    (line ++ ';' :: comment).takeWhile (· ≠ ';') = line.takeWhile (· ≠ ';') := by
  induction line with
  | nil => rfl
  | cons c cs ih => rw [List.cons_append, List.takeWhile_cons, List.takeWhile_cons, ih]

/-- Lines one after another are assembled one after another. -/
theorem assembleLines_append (ls ms : List (List Char)) :
    assembleLines (ls ++ ms) = (assembleLines ls).bind fun is => (assembleLines ms).map (is ++ ·) := by
  induction ls with
  | nil => simp [assembleLines]
  | cons l ls ih =>
    rw [List.cons_append, assembleLines_cons, assembleLines_cons, ih]
    simp only [Option.map_bind, Option.bind_assoc, Option.bind_map, Option.map_map, Function.comp_def,
      List.append_assoc]

theorem assemble_append_line (first rest : List Char) :
    assemble (first ++ '\n' :: rest) = (assemble first).bind fun a => (assemble rest).map (a ++ ·) := by
  unfold assemble
  rw [linesFrom_append, assembleLines_append]
  simp only [Option.map_bind, Option.bind_map, Option.map_map, Function.comp_def, List.map_append]

/-- The words of a text of one line without a comment. -/
theorem assemble_line {line : List Char} (hend : '\n' ∉ line) (hcomment : ';' ∉ line) :
    assemble line = ((parseTokens (tokensFrom [] line)).bind AsmLine.commands).map (·.map encode) := by
  rw [assemble, linesFrom_of_notMem hend, List.nil_append, assembleLines_cons, parseLine_of_notMem hcomment]
  simp [assembleLines]

/-! ### The lines with an operand -/

variable {operand : List Char} {n : Nat}

/-- A plain operand is the last token of its line. -/
theorem tokensFrom_operand (hne : operand ≠ []) (hplain : ∀ c ∈ operand, isPlain c = true) :
    tokensFrom [] operand = [operand] := (tokensFrom_plain hplain []).trans (if_neg hne)

/-- A plain operand adds no line end and no comment sign to its line. -/
theorem notMem_of_plain {c : Char} (hc : isPlain c = false) {head : List Char} (hhead : c ∉ head)
    (hplain : ∀ c ∈ operand, isPlain c = true) : c ∉ head ++ operand := by
  refine List.mem_append.not.2 (not_or.2 ⟨hhead, fun hmem => ?_⟩)
  exact absurd (hplain c hmem) (ne_true_of_eq_false hc)

/-- The words of a line, from its words before a plain operand. -/
theorem assemble_head_operand {head : List Char} (hend : '\n' ∉ head) (hcomment : ';' ∉ head)
    (hplain : ∀ c ∈ operand, isPlain c = true) :
    assemble (head ++ operand) =
      ((parseTokens (tokensFrom [] (head ++ operand))).bind AsmLine.commands).map (·.map encode) :=
  assemble_line (notMem_of_plain (by decide) hend hplain) (notMem_of_plain (by decide) hcomment hplain)

/-- The name of a variant in the assembler's text (R78). -/
def variantName : Variant → List Char
  | .basic     => ['B', 'A', 'S', 'I', 'C']
  | .withDelay => ['W', 'I', 'T', 'H', 'D', 'E', 'L', 'A', 'Y']

theorem readVariant_variantName (v : Variant) : readVariant (variantName v) = some v := by cases v <;> rfl

/-- An INIT line up to its rate. -/
def initHead (v : Variant) : List Char := ['I', 'N', 'I', 'T', ' '] ++ variantName v ++ [',', ' ']

theorem tokensFrom_initHead (v : Variant) (operand : List Char) :
    tokensFrom [] (initHead v ++ operand) = ['I', 'N', 'I', 'T'] :: variantName v :: [','] :: tokensFrom [] operand := by
  cases v <;> rfl

theorem parseTokens_init (v : Variant) (h : readInteger operand = some n) :
    parseTokens [['I', 'N', 'I', 'T'], variantName v, [','], operand] = some (.init v n) := by
  rw [parseTokens, if_pos ⟨rfl, rfl⟩, readVariant_variantName, h]

theorem assemble_init (v : Variant) (h : readInteger operand = some n) :
    assemble (initHead v ++ operand) = if n < 2 ^ 20 then some [encode (.init v n)] else none := by
  obtain ⟨hne, hplain⟩ := readInteger_plain h
  have hend : '\n' ∉ initHead v ∧ ';' ∉ initHead v := by cases v <;> decide
  rw [assemble_head_operand hend.1 hend.2 hplain, tokensFrom_initHead, tokensFrom_operand hne hplain,
    parseTokens_init v h, Option.bind_some, AsmLine.commands, apply_ite (Option.map _)]
  rfl

theorem assemble_fill (h : readInteger operand = some n) :
    assemble (['F', 'I', 'L', 'L', ' '] ++ operand) = if n < 2 ^ 24 then some [encode (.fill n)] else none := by
  obtain ⟨hne, hplain⟩ := readInteger_plain h
  have htokens : tokensFrom [] (['F', 'I', 'L', 'L', ' '] ++ operand) =
      ['F', 'I', 'L', 'L'] :: tokensFrom [] operand := rfl
  rw [assemble_head_operand (by decide) (by decide) hplain, htokens, tokensFrom_operand hne hplain, parseTokens,
    if_pos rfl, h, Option.map_some, Option.bind_some, AsmLine.commands, apply_ite (Option.map _)]
  rfl

theorem assemble_run (hne : operand ≠ []) (hplain : ∀ c ∈ operand, isPlain c = true) :
    assemble (['R', 'U', 'N', ' '] ++ operand) =
      (readThousandths operand).map fun t => (runFills (48 * t)).map encode := by
  have htokens : tokensFrom [] (['R', 'U', 'N', ' '] ++ operand) = ['R', 'U', 'N'] :: tokensFrom [] operand := rfl
  rw [assemble_head_operand (by decide) (by decide) hplain, htokens, tokensFrom_operand hne hplain, parseTokens,
    if_neg (by decide), if_pos rfl]
  cases readThousandths operand with
  | none => rfl
  | some t => exact congrArg (Option.map (·.map encode)) (run_commands t)

/-! ### RUN's decimals (R79) -/

variable {ds : List (Fin 10)}

theorem assemble_run_whole (h : ds ≠ []) :
    assemble (['R', 'U', 'N', ' '] ++ decimalText ds) =
      some ((runFills (48000 * digitsValue 10 (ds.map Fin.val))).map encode) := by
  have hsamples (s : Nat) : 48 * (s * 1000) = 48000 * s := by ring
  rw [assemble_run (decimalText_ne_nil h) (decimalText_plain ds),
    readThousandths_whole (decimalText_ne_nil h) (point_notMem_decimalText ds), readDigits_decimalText,
    Option.map_some, Option.map_some, hsamples]

theorem assemble_run_point (h : ds ≠ []) (fs : List (Fin 10)) :
    assemble (['R', 'U', 'N', ' '] ++ decimalText ds ++ '.' :: decimalText fs) =
      if fs = [] ∨ 3 < fs.length then none
      else some ((runFills (48 * (digitsValue 10 ((ds ++ fs).map Fin.val) * 10 ^ (3 - fs.length)))).map encode) := by
  have hplain : ∀ c ∈ decimalText ds ++ '.' :: decimalText fs, isPlain c = true :=
    List.forall_mem_append.2 ⟨decimalText_plain ds, List.forall_mem_cons.2 ⟨by decide, decimalText_plain fs⟩⟩
  have hdigits : decimalText ds ++ decimalText fs = decimalText (ds ++ fs) := List.map_append.symm
  have hlength : (decimalText fs).length = fs.length := List.length_map _
  have hempty : decimalText fs = [] ↔ fs = [] := List.map_eq_nil_iff
  rw [List.append_assoc, assemble_run (List.append_ne_nil_of_left_ne_nil (decimalText_ne_nil h) _) hplain,
    readThousandths_point _ (decimalText_ne_nil h) (point_notMem_decimalText ds), hdigits, readDigits_decimalText,
    hlength, apply_ite (Option.map _)]
  simp only [hempty, Option.map_some, Option.map_none]

end Machine

open Machine

/-- Settles O55, a lemma for each kind of line. -/
theorem assemblerReadsItsText : Obligations.AssemblerReadsItsText := by
  refine ⟨fun ds => readInteger_decimalText, fun ds h => ⟨?_, ?_⟩, fun text n h => ⟨?_, ?_, ?_⟩, by decide,
    fun ds fs h => ⟨assemble_run_whole h, fun hne hle => ?_, fun hlong => ?_⟩, fun line comment => ?_,
    assemble_append_line⟩
  · rw [readInteger_hexadecimal (mt List.map_eq_nil_iff.1 h)]
    exact readDigits_map hexDigit_digitChar ds 0
  · rw [readInteger_hexadecimal (mt List.map_eq_nil_iff.1 h)]
    exact readDigits_map hexDigit_toUpper ds 0
  · exact (assemble_init .basic h).trans
      (ite_congr rfl (fun hn => congrArg (some [·]) (encode_init_basic hn)) fun _ => rfl)
  · exact (assemble_init .withDelay h).trans
      (ite_congr rfl (fun hn => congrArg (some [·]) (encode_init_withDelay hn)) fun _ => rfl)
  · exact (assemble_fill h).trans (ite_congr rfl (fun hn => congrArg (some [·]) (encode_fill hn)) fun _ => rfl)
  · exact (assemble_run_point h fs).trans (if_neg (not_or.2 ⟨hne, hle.not_gt⟩))
  · exact (assemble_run_point h fs).trans (if_pos (.inr hlong))
  · exact congrArg (fun l => parseTokens (tokensFrom [] l)) (takeWhile_append_comment line comment)

end Sys2Proof

/-! CERTIFICATES O10 and O15. Commands to a Faulted block (40_commands.md R103), and INIT (R100). -/

namespace Sys2Proof

namespace Machine

variable {s : State}

theorem exec_init_of_faulted (v : Variant) (sr : Nat) (hl : s.lifecycle = .faulted) :
    exec (.init v sr) s = .next s := by
  rw [exec, execInit, hl]

theorem exec_init_of_running (v : Variant) (sr : Nat) (hl : s.lifecycle = .running) :
    exec (.init v sr) s = .next (raiseFault .alreadyConstructed s) := by
  rw [exec, execInit, hl]

theorem exec_init_of_supported (v : Variant) (hl : s.lifecycle = .unconstructed) :
    exec (.init v 48000) s = .next (construct v s) := by
  have hrate : rateSupported 48000 = true := rfl
  rw [exec, execInit, hl]
  dsimp only
  rw [hrate, if_pos rfl]

/-- A Faulted block ignores every command (R103). -/
theorem exec_of_faulted (i : Instr) (hl : s.lifecycle = .faulted) : exec i s = .next s := by
  cases i with
  | init v sr => exact exec_init_of_faulted v sr hl
  | tick => exact exec_tick_of_faulted hl
  | fill n => exact exec_fill_of_faulted n hl

theorem takeIllegalWord_of_faulted (hl : s.lifecycle = .faulted) : takeIllegalWord s = s := by
  obtain ⟨-, h⟩ | ⟨hne, -⟩ := takeIllegalWord_cases s
  · exact h
  · exact absurd hl hne

/-- The status after construction: Running, the variant, no fault (10_state.md R33). -/
theorem construct_statusWord (v : Variant) (s : State) :
    (construct v s).statusWord = if v = .withDelay then 0x00000005#32 else 0x00000001#32 := by
  rw [State.statusWord, construct_lifecycle, construct_variant, construct_faultCode]
  cases v <;> decide

end Machine

open Machine

/-- Settles O10: a Faulted block ignores the command the word decodes to, and a word that decodes to none. -/
theorem faultedBlockIgnoresCommands : Obligations.FaultedBlockIgnoresCommands := by
  intro s w rest hl hq
  cases hd : decode w with
  | ok i => exact (step_of_decode_ok hq hd).trans (exec_of_faulted i hl)
  | error e => exact (step_of_decode_error hq hd).trans (congrArg Host.Outcome.next (takeIllegalWord_of_faulted hl))

/-- Settles O15, an equation of INIT for each lifecycle and rate. -/
theorem initConstructsTheEngine : Obligations.InitConstructsTheEngine := by
  refine fun s v sr => ⟨exec_init_of_faulted v sr, exec_init_of_running v sr, exec_init_of_unsupported v, ?_⟩
  rintro hl rfl
  exact ⟨construct v s, exec_init_of_supported v hl, rfl, fun _ => rfl, rfl, construct_statusWord v s⟩

end Sys2Proof

/-! CERTIFICATE O17. What TICK leaves unchanged (40_commands.md R101). -/

namespace Sys2Proof

namespace Machine

variable {s t : State}

/-- The status word reads three registers (10_state.md R33). -/
theorem statusWord_congr (hl : t.lifecycle = s.lifecycle) (hv : t.variant = s.variant)
    (hc : t.faultCode = s.faultCode) : t.statusWord = s.statusWord := by
  rw [State.statusWord, State.statusWord, hl, hv, hc]

/-- TICK is ignored, raises a fault, or commits and emits one tick. -/
theorem exec_tick_cases (h : exec .tick s = .next t) :
    (s.lifecycle = .faulted ∧ t = s) ∨
    (s.lifecycle ≠ .faulted ∧ ∃ c, t = raiseFault c s) ∨
    (s.lifecycle = .running ∧ ∃ v u, tickStep Config.numeric s = .produced v u ∧ t = emit v u) := by
  obtain ⟨hl, rfl⟩ | ⟨hl, rfl⟩ | ⟨hl, c, -, rfl⟩ | hran := tickWith_cases h
  · exact .inl ⟨hl, rfl⟩
  · exact .inr (.inl ⟨(nomatch hl.symm.trans ·), _, rfl⟩)
  · exact .inr (.inl ⟨(nomatch hl.symm.trans ·), c, rfl⟩)
  · exact .inr (.inr hran)

end Machine

open Machine

/-- Settles O17: a tick writes the datapath as `tickStep_line` says, and without one only the fault state is written. -/
theorem tickFrame : Obligations.TickFrame := by
  intro s t h
  obtain ⟨hl, rfl⟩ | ⟨hl, c, rfl⟩ | ⟨hl, v, u, htick, rfl⟩ := exec_tick_cases h
  · exact ⟨rfl, rfl, rfl, rfl, rfl, id, fun _ => rfl, fun _ => ⟨rfl, rfl⟩, fun hne => absurd rfl hne,
      fun hrun => (nomatch hl.symm.trans hrun), fun _ => ⟨rfl, fun _ => rfl⟩⟩
  · exact ⟨rfl, rfl, rfl, rfl, rfl, id, fun _ => rfl, fun heq => absurd heq.symm hl, fun _ => rfl, nofun,
      fun _ => ⟨rfl, fun _ => rfl⟩⟩
  · obtain ⟨hlife, hcode, hvar, hwrit, hpat, hhost, -, hcont, -⟩ := tickStep_frame htick
    obtain ⟨-, hgate, hphase, hcalled, hidle⟩ := tickStep_line htick
    refine ⟨hvar, hwrit, hpat, hhost, hcont, fun hg => hgate.trans (gateAfter_of_engaged hg),
      fun hg => hphase (hgate.symm.trans hg), fun _ => ⟨hcode, statusWord_congr hlife hvar hcode⟩,
      fun hne => absurd hlife hne, fun _ hv hg => ?_, fun hnot => ?_⟩
    · obtain ⟨-, hcall⟩ := hcalled hv (hgate.symm.trans hg)
      exact hcall
    · obtain ⟨hcursor, hdly⟩ := hidle fun ⟨hv, hg⟩ => hnot ⟨hlife.trans hl, hv, hgate.trans hg⟩
      exact ⟨hcursor, fun a => congrArg (·.load a) hdly⟩

end Sys2Proof

/-! CERTIFICATES O19, O20 and O21. FILL and its ticks (40_commands.md R101, R102). -/

namespace Sys2Proof

namespace Machine

variable {F : NumericConfig} {s t u : State}

/-! ### A tick does not use the ports -/

/-- A tick stops the model where steps 6 and 7 do. -/
theorem tickStep_stopped {f : Fault} :
    tickStep F s = .stopped f ↔
      s.datapathWritten = true ∧ s.sampleCount.toNat < Const.indexLimit ∧
        chordVoice F (clock s.sampleCount.toNat) (gateAfter s) s = .error f := by
  unfold tickStep
  cases hw : s.datapathWritten with
  | false => simp
  | true =>
    by_cases hn : s.sampleCount.toNat < Const.indexLimit
    · rw [if_neg (by decide), if_neg hn.not_ge, tickAt, gateAfter]
      split <;> simp_all
    · simp [hn, Nat.le_of_not_lt hn]

/-- A state with its command queue and its report of continue flags replaced. -/
def State.mapPorts (queue : List HostMove → List HostMove) (report : List (BitVec 1) → List (BitVec 1))
    (s : State) : State :=
  { s with hostIn := queue s.hostIn, contOut := report s.contOut }

/-- A tick's result with its next state, if it has one, replaced. -/
def TickResult.mapState (f : State → State) : TickResult → TickResult
  | .produced v t => .produced v (f t)
  | .raised c => .raised c
  | .stopped e => .stopped e

/-- A tick neither reads nor writes the command queue and the continue flags. -/
theorem tickStep_mapPorts (queue : List HostMove → List HostMove) (report : List (BitVec 1) → List (BitVec 1))
    (s : State) : tickStep F (s.mapPorts queue report) = (tickStep F s).mapState (State.mapPorts queue report) := by
  cases h : tickStep F s with
  | produced v t =>
    obtain ⟨hw, hn, r, hr, -⟩ := tickStep_produced h
    rw [tickStep_of_chordVoice hw hn hr] at h
    cases h
    exact tickStep_of_chordVoice (s := s.mapPorts queue report) hw hn hr
  | raised c =>
    rw [tickStep_raised] at h
    exact tickStep_raised.2 h
  | stopped f =>
    rw [tickStep_stopped] at h
    exact tickStep_stopped.2 h

theorem exec_tick_of_produced {v : Binary64} (hl : s.lifecycle = .running)
    (h : tickStep Config.numeric s = .produced v t) : exec .tick s = .next (emit v t) := tickWith_of_produced hl h

/-! ### N ticks from the queue -/

/-- A queue that begins with `n` TICK words. -/
def tickWords (n : Nat) (rest : List HostMove) : List HostMove :=
  List.replicate n (.command 0x02000000#32) ++ rest

/-- The block takes a TICK word (30_encoding.md R73). -/
theorem step_tickWords (n : Nat) (rest : List HostMove) :
    step { s with hostIn := tickWords (n + 1) rest } = exec .tick { s with hostIn := tickWords n rest } :=
  step_of_decode_ok (s := { s with hostIn := tickWords (n + 1) rest }) rfl rfl

theorem runSteps_succ_of_next {n : Nat} (h : step s = .next t) : runSteps (n + 1) s = runSteps n t := by
  rw [runSteps, h]

theorem runSteps_succ_of_fault {n : Nat} {f : Fault} (h : step s = .fault f) : runSteps (n + 1) s = .fault f := by
  rw [runSteps, h]

/-- A Faulted block takes TICK words and does nothing else (R103). -/
theorem runSteps_tickWords_of_faulted (n : Nat) (rest : List HostMove) (hl : s.lifecycle = .faulted) :
    runSteps n { s with hostIn := tickWords n rest } = .next { s with hostIn := rest } := by
  induction n with
  | zero => rfl
  | succ n ih =>
    have hstep := (step_tickWords n rest).trans (exec_tick_of_faulted (s := { s with hostIn := tickWords n rest }) hl)
    rw [runSteps_succ_of_next hstep, ih]

/-- What a FILL gives where its ticks one by one give `ticks`: the same, and `CONT` reported where no tick has
faulted. -/
def FillAgrees (fill ticks : Host.Outcome State Fault Refusal) : Prop :=
  match ticks with
  | .next t => fill = .next (if t.lifecycle = .running then reportCont t else t)
  | .fault f => fill = .fault f
  | .refused _ => False

theorem fillTicks_agrees_tickWords (n : Nat) (rest : List HostMove) (hl : s.lifecycle = .running) :
    FillAgrees (fillTicks Config.numeric n { s with hostIn := rest })
      (runSteps n { s with hostIn := tickWords n rest }) := by
  induction n generalizing s with
  | zero => exact congrArg Host.Outcome.next (if_pos hl).symm
  | succ n ih =>
    have hstep := step_tickWords (s := s) n rest
    have hports (q : List HostMove) := tickStep_mapPorts (F := Config.numeric) (fun _ => q) id s
    cases htick : tickStep Config.numeric s with
    | produced v u =>
      rw [htick] at hports
      obtain ⟨hlife, -⟩ := tickStep_frame htick
      rw [exec_tick_of_produced (s := { s with hostIn := tickWords n rest }) hl (hports _)] at hstep
      rw [runSteps_succ_of_next hstep, fillTicks_of_produced (s := { s with hostIn := rest }) (hports rest)]
      exact ih (s := emit v u) (hlife.trans hl)
    | raised c =>
      rw [htick] at hports
      rw [exec_tick_of_raised (s := { s with hostIn := tickWords n rest }) hl (hports _)] at hstep
      have hignored : runSteps n (raiseFault c { s with hostIn := tickWords n rest }) =
          .next (raiseFault c { s with hostIn := rest }) :=
        runSteps_tickWords_of_faulted n rest (raiseFault_lifecycle s c)
      rw [runSteps_succ_of_next hstep, hignored, fillTicks_of_raised (s := { s with hostIn := rest }) (hports rest)]
      rfl
    | stopped f =>
      rw [htick] at hports
      rw [exec_tick_of_stopped (s := { s with hostIn := tickWords n rest }) hl (hports _)] at hstep
      rw [runSteps_succ_of_fault hstep, fillTicks_of_stopped (s := { s with hostIn := rest }) (hports rest)]
      rfl

/-! ### One FILL after another -/

/-- A FILL that has not faulted has reported `CONT` in a state from which a longer FILL goes on. -/
theorem fillTicks_add {a : Nat} (h : fillTicks F a s = .next t) (hl : t.lifecycle = .running) :
    ∃ u, t = reportCont u ∧ ∀ b, fillTicks F (a + b) s = fillTicks F b u := by
  induction a generalizing s with
  | zero =>
    cases h
    exact ⟨s, rfl, fun b => by rw [Nat.zero_add]⟩
  | succ a ih =>
    cases htick : tickStep F s with
    | produced v w =>
      rw [fillTicks_of_produced htick] at h
      obtain ⟨u, ht, hadd⟩ := ih h
      exact ⟨u, ht, fun b => by rw [Nat.add_right_comm, fillTicks_of_produced htick, hadd]⟩
    | raised c =>
      rw [fillTicks_of_raised htick] at h
      cases h
      cases hl
    | stopped f =>
      rw [fillTicks_of_stopped htick] at h
      cases h

/-- A FILL that starts with one more flag reported ends with one more. -/
theorem fillTicks_reportCont {n : Nat} (h : fillTicks F n (reportCont s) = .next t) :
    ∃ u, fillTicks F n s = .next u ∧ t = reportCont u := by
  induction n generalizing s with
  | zero =>
    cases h
    exact ⟨reportCont s, rfl, rfl⟩
  | succ n ih =>
    have hports : tickStep F (reportCont s) = (tickStep F s).mapState reportCont :=
      tickStep_mapPorts id (· ++ [1#1]) s
    cases htick : tickStep F s with
    | produced v w =>
      rw [htick] at hports
      rw [fillTicks_of_produced hports] at h
      rw [fillTicks_of_produced htick]
      exact ih h
    | raised c =>
      rw [htick] at hports
      rw [fillTicks_of_raised hports] at h
      cases h
      exact ⟨raiseFault c s, fillTicks_of_raised htick, rfl⟩
    | stopped f =>
      rw [htick] at hports
      rw [fillTicks_of_stopped hports] at h
      cases h

/-! ### A FILL within the index limit -/

open Relation (ReflTransGen)

/-- Each tick emits one sample and advances the index by one (70_reset_and_hazards.md R235). -/
theorem ticks_emit (h : ReflTransGen TicksTo s t) :
    ∃ xs, t.sampleOut = s.sampleOut ++ xs ∧ t.sampleCount.toNat = s.sampleCount.toNat + xs.length := by
  induction h with
  | refl => exact ⟨[], (List.append_nil _).symm, rfl⟩
  | tail _ htick ih =>
    obtain ⟨v, u, hu, rfl⟩ := htick
    obtain ⟨-, -, -, -, -, -, hout, -⟩ := tickStep_frame hu
    obtain ⟨hcount, -⟩ := tickStep_line hu
    obtain ⟨xs, hxs, hlen⟩ := ih
    refine ⟨xs ++ [v], ?_, ?_⟩
    · rw [emit_sampleOut, hout, hxs, List.append_assoc]
    · rw [emit_sampleCount, hcount, hlen, List.length_append, List.length_singleton, Nat.add_assoc]

/-- Every tick of a FILL meets an index below the limit and a cursor in range, so the FILL completes. -/
theorem fillTicks_completes {n : Nat} (hw : s.datapathWritten = true) (hc : s.delayWriteIndex.toNat < Const.delayLen)
    (hn : s.sampleCount.toNat + n ≤ Const.indexLimit) :
    ∃ u, fillTicks Config.numeric n s = .next (reportCont u) ∧ ReflTransGen TicksTo s u ∧
      u.sampleCount.toNat = s.sampleCount.toNat + n := by
  induction n generalizing s with
  | zero => exact ⟨s, rfl, .refl, rfl⟩
  | succ n ih =>
    obtain ⟨v, w, htick, hcursor⟩ := tickStep_completes (F := Config.numeric) hw (by omega) hc
    obtain ⟨-, -, -, hwrit, -⟩ := tickStep_frame htick
    obtain ⟨hcount, -⟩ := tickStep_line htick
    obtain ⟨u, hfill, hticks, hu⟩ := ih (s := emit v w) (hwrit.trans hw) hcursor (by rw [emit_sampleCount]; omega)
    rw [emit_sampleCount] at hu
    exact ⟨u, (fillTicks_of_produced htick).trans hfill, .head ⟨v, w, htick, rfl⟩ hticks, by omega⟩

/-- The ticks of a command leave the ROM and the ports but `sample_out` alone. -/
theorem ticks_keep_ports (h : ReflTransGen TicksTo s t) :
    t.pat = s.pat ∧ t.hostIn = s.hostIn ∧ t.contOut = s.contOut := by
  induction h with
  | refl => exact ⟨rfl, rfl, rfl⟩
  | tail _ htick ih =>
    obtain ⟨v, u, hu, rfl⟩ := htick
    obtain ⟨-, -, -, -, hpat, hhost, -, hcont, -⟩ := tickStep_frame hu
    obtain ⟨hpat', hhost', hcont'⟩ := ih
    exact ⟨hpat.trans hpat', hhost.trans hhost', hcont.trans hcont'⟩

end Machine

open Machine

/-- Settles O19, by induction on the ticks: a tick that faults leaves a block that ignores the words to come. -/
theorem fillEqualsTicks : Obligations.FillEqualsTicks := by
  intro s n rest hl
  rw [exec_fill_of_running (s := { s with hostIn := rest }) n hl]
  exact fillTicks_agrees_tickWords n rest hl

/-- Settles O20: the second FILL starts where the longer one goes on, but for the flag the first has reported. -/
theorem fillBoundariesAreInvisible : Obligations.FillBoundariesAreInvisible := by
  intro s t u a b hs ht hfirst hsecond
  rw [exec_fill_of_running a hs] at hfirst
  rw [exec_fill_of_running b ht] at hsecond
  obtain ⟨m, rfl, hadd⟩ := fillTicks_add hfirst ht
  obtain ⟨u', hu', rfl⟩ := fillTicks_reportCont hsecond
  exact ⟨u', (exec_fill_of_running (a + b) hs).trans ((hadd b).trans hu'), rfl, rfl⟩

/-- Settles O21: within the limit every tick produces its sample. -/
theorem fillCompletes : Obligations.FillCompletes := by
  intro s n hl hw hc hn
  obtain ⟨u, hfill, hticks, hcount⟩ := fillTicks_completes hw hc hn
  obtain ⟨hlife, hcode, hvar, -⟩ := ticks_frame hticks
  obtain ⟨-, -, hcont⟩ := ticks_keep_ports hticks
  obtain ⟨xs, hout, hlen⟩ := ticks_emit hticks
  refine ⟨reportCont u, xs, (exec_fill_of_running n hl).trans hfill, hlife.trans hl,
    statusWord_congr hlife hvar hcode, hout, by omega, hcount, congrArg (· ++ [1#1]) hcont, ?_⟩
  rintro rfl
  exact (Host.Outcome.next.inj hfill).symm

end Sys2Proof

/-! CERTIFICATE O23. What FILL leaves unchanged (40_commands.md R102), and the ticks at which it calls the delay line
(44_voices.md R155, R160; 45_delay.md R181). -/

namespace Sys2Proof

/-! ### How far rounding moves a number -/

/-- Where 53 bits reach down to the place 2^-k, rounding moves a number by at most half that place. -/
theorem RoundedOnce.abs_sub_le {q : ℚ} {r : Binary64} {k : Nat} (h : RoundedOnce q r) (hk : k ≤ 1074)
    (hq : |q * 2 ^ k| ≤ 2 ^ 53 - 1) : r.isFinite = true ∧ |r.value - q| ≤ 1 / 2 ^ (k + 1) := by
  have hpos : (0 : ℚ) < 2 ^ k := by positivity
  have hplace : |q * 2 ^ k - round (q * 2 ^ k)| ≤ 1 / 2 := abs_sub_round _
  have hsize : (round (q * 2 ^ k)).natAbs ≤ 2 ^ 53 := by
    rw [← Nat.cast_le (α := ℚ), Nat.cast_natAbs, Int.cast_abs]
    push_cast
    rw [abs_le] at hq hplace ⊢
    constructor <;> linarith
  have hlarge : |q| ≤ 2 ^ 53 := by
    rw [abs_mul, abs_of_pos hpos] at hq
    linarith [le_mul_of_one_le_right (abs_nonneg q) (one_le_pow₀ one_le_two : (1 : ℚ) ≤ 2 ^ k)]
  obtain ⟨hr, -⟩ := h.mem_Icc (representable_int (n := -2 ^ 53) (by omega))
    (representable_int (n := 2 ^ 53) (by omega)) (by push_cast; exact abs_le.1 hlarge)
  obtain ⟨z, hz, hzv⟩ := representable_dyadic rfl hsize hk
  have hdist : z.value - q = (round (q * 2 ^ k) - q * 2 ^ k) / 2 ^ k := by
    rw [hzv, sub_div, mul_div_cancel_right₀ _ hpos.ne']
  refine ⟨hr, (h.nearest hr hz).trans ?_⟩
  rw [hdist, abs_div, abs_of_pos hpos, abs_sub_comm, pow_succ', ← div_div]
  exact div_le_div_of_nonneg_right hplace hpos.le

/-- Doubling a datum of moderate size does not round. -/
theorem representable_mul_two {x : Binary64} (hx : |x.value| ≤ 2 ^ 53) : Representable (x.value * 2) := by
  obtain ⟨m, k, hmag, hm⟩ := x.exists_magnitude_eq
  rcases Nat.eq_zero_or_pos m with rfl | hpos
  · rw [Binary64.value_eq_zero_iff.2 (by rw [hmag, Nat.zero_mul]), zero_mul]
    exact representable_nat (Nat.zero_le _)
  · have hk : k + 1 ≤ 2044 := by
      rw [Binary64.abs_value, div_le_iff₀ cast_unitsPerOne_pos, hmag, unitsPerOne] at hx
      have hle : 2 ^ k ≤ 2 ^ (53 + 1074) :=
        (Nat.le_mul_of_pos_left _ hpos).trans (by rw [pow_add]; exact_mod_cast hx)
      have := (Nat.pow_le_pow_iff_right (by omega)).1 hle
      omega
    have h := representable_of_natAbs (z := x.units * 2) (m := m) (k := k + 1)
      (by rw [Int.natAbs_mul, Binary64.natAbs_units, hmag, pow_succ, mul_assoc]; rfl) hm.le hk
    rwa [Int.cast_mul, Int.cast_ofNat, mul_div_right_comm] at h

/-- Above its floor a non-negative datum is zero exactly where it is an integer. -/
theorem sub_floor_eq_zero_iff {x : Binary64} (hx : x.isFinite = true) (h0 : 0 ≤ x.value) :
    (x.sub x.floor).ieeeEq Machine.Const.zero = true ↔ ∃ m : ℤ, (m : ℚ) = x.value := by
  obtain ⟨hf, hv⟩ := Binary64.sub_floor_value hx h0
  obtain ⟨-, -, -, htrunc, -, hfrac, -⟩ := truncFloorFracAreExact x hx
  rw [Binary64.ieeeEq_iff_value_eq hf rfl, Machine.Const.zero, Binary64.value_zero, hv, hfrac, htrunc, if_pos h0]
  exact Int.fract_eq_zero_iff

namespace Machine

variable {s t u : State}

/-! ### The indexes at which the latch sets -/

/-- The time is within 2^-16 s of the exact one, which is less than a sample. -/
theorem clockSeconds_near {n : Nat} (hn : n < 2 ^ 53) :
    (clockSeconds n).isFinite = true ∧ |(clockSeconds n).value - n / 48000| ≤ 1 / 2 ^ 16 := by
  have h : (n : ℚ) ≤ 2 ^ 53 := by exact_mod_cast hn.le
  refine (roundedOnce_clockSeconds hn.le).abs_sub_le (k := 15) (by omega) ?_
  rw [abs_of_nonneg (by positivity)]
  linarith

theorem three_lt_clockSeconds_iff {n : Nat} (hn : n < 2 ^ 53) :
    Const.three.lt (clockSeconds n) = true ↔ 144000 < n := by
  refine ⟨fun h => Nat.lt_of_not_le fun hle => ?_, fun h => ?_⟩
  · rw [three_lt_clockSeconds_of_le hle] at h
    cases h
  · obtain ⟨hf, hnear⟩ := clockSeconds_near hn
    have hlate : (144001 : ℚ) ≤ n := by exact_mod_cast h
    rw [Binary64.lt_iff_value_lt Const.three_exact.1 hf, Const.three_exact.2]
    linarith [(abs_le.1 hnear).1]

/-- Beats are twice the seconds, without a rounding (41_clock.md R120). -/
theorem clockBeats_exact {n : Nat} (hn : n < 2 ^ 53) :
    (clockBeats n).isFinite = true ∧ (clockBeats n).value = (clockSeconds n).value * 2 := by
  obtain ⟨hf, hnear⟩ := clockSeconds_near hn
  have h : RoundedOnce _ (clockBeats n) := Binary64.roundedOnce_mul hf Const.two_exact.1
  rw [Const.two_exact.2] at h
  refine h.exact_of_representable (representable_mul_two ?_)
  have hlarge : (n : ℚ) ≤ 2 ^ 53 := by exact_mod_cast hn.le
  have hpos : (0 : ℚ) ≤ n := Nat.cast_nonneg n
  rw [abs_le] at hnear ⊢
  constructor <;> linarith

/-- The beats are whole exactly at the multiples of 24 000 samples: elsewhere the time is at least a sample away from a
whole beat. -/
theorem clockBeats_eq_int_iff {n : Nat} (hn : n < 2 ^ 53) :
    (∃ m : ℤ, (m : ℚ) = (clockBeats n).value) ↔ 24000 ∣ n := by
  rw [(clockBeats_exact hn).2]
  constructor
  · rintro ⟨m, hm⟩
    obtain ⟨-, hnear⟩ := clockSeconds_near hn
    have hlt : |(n : ℤ) - 24000 * m| < 1 := by
      have h : |(n : ℚ) - 24000 * m| < 1 := by
        rw [abs_le] at hnear
        rw [hm, abs_lt]
        constructor <;> linarith
      exact_mod_cast h
    have := Int.abs_lt_one_iff.1 hlt
    omega
  · rintro ⟨m, rfl⟩
    have hexact := (roundedOnce_clockSeconds hn.le).exact_of_representable
      (representable_dyadic (n := m) (k := 1) (by push_cast; ring) (by omega) (by omega))
    exact ⟨m, by rw [hexact.2]; push_cast; ring⟩

theorem beatFraction_eq_zero_iff {n : Nat} (hn : n < 2 ^ 53) :
    (clock n).beatFraction.ieeeEq Const.zero = true ↔ 24000 ∣ n := by
  obtain ⟨hf, h0, -⟩ := clockBeats_atMost hn
  exact (sub_floor_eq_zero_iff hf h0).trans (clockBeats_eq_int_iff hn)

/-- The gate after a tick, by the index (44_voices.md R155). -/
theorem gateAfter_iff (hn : s.sampleCount.toNat < 2 ^ 53) :
    gateAfter s = true ↔
      s.chordGateEngaged = true ∨ 144000 < s.sampleCount.toNat ∧ 24000 ∣ s.sampleCount.toNat := by
  have hthree : Const.three.lt (clock s.sampleCount.toNat).seconds = true ↔ _ := three_lt_clockSeconds_iff hn
  rw [gateAfter, gateLatch_eq_or, Bool.or_eq_true, Bool.and_eq_true, hthree, beatFraction_eq_zero_iff hn]

/-! ### The ticks that call the delay line -/

/-- The index of the first tick, from a state on, with the gate engaged: at once where it is on already, otherwise the
first index past 144 000 that is a multiple of 24 000. -/
def firstCall (s : State) : Nat :=
  if s.chordGateEngaged then s.sampleCount.toNat else (max s.sampleCount.toNat 144001 + 23999) / 24000 * 24000

theorem firstCall_of_engaged (hg : s.chordGateEngaged = true) : firstCall s = s.sampleCount.toNat := if_pos hg

theorem firstCall_of_idle (hg : s.chordGateEngaged = false) :
    firstCall s = (max s.sampleCount.toNat 144001 + 23999) / 24000 * 24000 := by
  rw [firstCall, hg, if_neg Bool.false_ne_true]

theorem sampleCount_le_firstCall (s : State) : s.sampleCount.toNat ≤ firstCall s := by
  cases hg : s.chordGateEngaged with
  | true => exact (firstCall_of_engaged hg).ge
  | false => rw [firstCall_of_idle hg]; omega

theorem gateAfter_iff_firstCall_le (hn : s.sampleCount.toNat < 2 ^ 53) :
    gateAfter s = true ↔ firstCall s ≤ s.sampleCount.toNat := by
  rw [gateAfter_iff hn]
  cases hg : s.chordGateEngaged with
  | true => simp [firstCall_of_engaged hg]
  | false =>
    rw [firstCall_of_idle hg, or_iff_right Bool.false_ne_true]
    omega

theorem gateAfter_eq_false_iff (hn : s.sampleCount.toNat < 2 ^ 53) :
    gateAfter s = false ↔ s.sampleCount.toNat < firstCall s := by
  rw [← Bool.not_eq_true, gateAfter_iff_firstCall_le hn, not_le]

/-- A tick that leaves the gate off found it off. -/
theorem engaged_eq_false_of_gateAfter (h : gateAfter s = false) : s.chordGateEngaged = false := by
  rw [gateAfter, gateLatch_eq_or, Bool.or_eq_false_iff] at h
  exact h.1

/-- A tick makes the first call or leaves it ahead. -/
theorem firstCall_tick {v : Binary64} (h : tickStep Config.numeric s = .produced v t) :
    firstCall t = max (firstCall s) t.sampleCount.toNat := by
  obtain ⟨-, hn, -⟩ := tickStep_produced h
  obtain ⟨hcount, hgate, -⟩ := tickStep_line h
  cases hg : gateAfter s with
  | true =>
    have hnow := (gateAfter_iff_firstCall_le hn).1 hg
    rw [firstCall_of_engaged (hgate.trans hg)]
    omega
  | false =>
    have hlater := (gateAfter_eq_false_iff hn).1 hg
    rw [firstCall_of_idle (engaged_eq_false_of_gateAfter hg)] at hlater ⊢
    rw [firstCall_of_idle (hgate.trans hg)]
    omega

/-- The calls of the delay line that the ticks from `s` to `t` make. -/
def calls (s t : State) : Nat := t.sampleCount.toNat - firstCall s

/-- What the ticks from `s` to `t` have done to the delay line under WithDelay: each call has moved the cursor on by one
and stored at most the word it left (45_delay.md R180, R181). -/
structure LineMoved (s t : State) : Prop where
  first : firstCall t = max (firstCall s) t.sampleCount.toNat
  cursor : t.delayWriteIndex.toNat = (s.delayWriteIndex.toNat + calls s t) % 18000
  words : ∀ a, (∀ j, j < calls s t → a ≠ (s.delayWriteIndex.toNat + j) % 18000) → t.dly.load a = s.dly.load a

theorem lineMoved_refl (hc : s.delayWriteIndex.toNat < 18000) : LineMoved s s where
  first := (max_eq_left (sampleCount_le_firstCall s)).symm
  cursor := by
    rw [calls, Nat.sub_eq_zero_of_le (sampleCount_le_firstCall s), Nat.add_zero, Nat.mod_eq_of_lt hc]
  words _ _ := rfl

/-- A tick makes a call exactly where it leaves the gate engaged. -/
theorem calls_tick {v : Binary64} (hfirst : firstCall t = max (firstCall s) t.sampleCount.toNat)
    (h : tickStep Config.numeric t = .produced v u) : calls s u = calls s t + (gateAfter t).toNat := by
  obtain ⟨-, hn, -⟩ := tickStep_produced h
  obtain ⟨hcount, -⟩ := tickStep_line h
  rw [calls, calls, hcount]
  cases hg : gateAfter t with
  | true =>
    have hnow := (gateAfter_iff_firstCall_le hn).1 hg
    rw [Bool.toNat_true]
    omega
  | false =>
    have hlater := (gateAfter_eq_false_iff hn).1 hg
    rw [Bool.toNat_false]
    omega

theorem lineMoved_tick {v : Binary64} (hm : LineMoved s t) (hv : t.variant = .withDelay)
    (h : tickStep Config.numeric t = .produced v u) : LineMoved s (emit v u) := by
  have hcalls : calls s (emit v u) = calls s t + (gateAfter t).toNat := calls_tick (u := u) hm.first h
  obtain ⟨hcount, -, -, hcalled, hidle⟩ := tickStep_line h
  have hfirst : firstCall (emit v u) = max (firstCall s) (emit v u).sampleCount.toNat := by
    have hnext : firstCall (emit v u) = max (firstCall t) u.sampleCount.toNat := firstCall_tick (t := u) h
    rw [hnext, hm.first, emit_sampleCount]
    omega
  cases hg : gateAfter t with
  | true =>
    obtain ⟨-, hcursor, hother⟩ := hcalled hv hg
    rw [hg, Bool.toNat_true] at hcalls
    refine ⟨hfirst, ?_, fun a ha => ?_⟩
    · rw [emit_delayWriteIndex, hcursor, hm.cursor, hcalls, ← Nat.add_assoc]
      exact Nat.mod_add_mod _ 18000 1
    · rw [hcalls] at ha
      have hne : a ≠ t.delayWriteIndex.toNat := hm.cursor ▸ ha (calls s t) (Nat.lt_succ_self _)
      exact (hother a hne).trans (hm.words a fun j hj => ha j (Nat.lt_succ_of_lt hj))
  | false =>
    obtain ⟨hcursor, hdly⟩ := hidle fun ⟨_, hon⟩ => by rw [hg] at hon; cases hon
    rw [hg, Bool.toNat_false, Nat.add_zero] at hcalls
    refine ⟨hfirst, ?_, fun a ha => ?_⟩
    · rw [emit_delayWriteIndex, hcursor, hm.cursor, hcalls]
    · rw [hcalls] at ha
      rw [emit_dly, hdly]
      exact hm.words a ha

/-! ### The frame of a command's ticks -/

open Relation (ReflTransGen)

theorem ticks_lineMoved (hv : s.variant = .withDelay) (hc : s.delayWriteIndex.toNat < 18000)
    (h : ReflTransGen TicksTo s t) : LineMoved s t := by
  induction h with
  | refl => exact lineMoved_refl hc
  | tail hticks htick ih =>
    obtain ⟨v, u, hu, rfl⟩ := htick
    obtain ⟨-, -, hvar, -⟩ := ticks_frame hticks
    exact lineMoved_tick ih (hvar.trans hv) hu

/-- Ticks under Basic never call the delay line (44_voices.md R168). -/
theorem ticks_basic_line (hv : s.variant = .basic) (h : ReflTransGen TicksTo s t) :
    t.delayWriteIndex = s.delayWriteIndex ∧ t.dly = s.dly := by
  induction h with
  | refl => exact ⟨rfl, rfl⟩
  | tail hticks htick ih =>
    obtain ⟨v, u, hu, rfl⟩ := htick
    obtain ⟨-, -, hvar, -⟩ := ticks_frame hticks
    obtain ⟨-, -, -, -, hidle⟩ := tickStep_line hu
    obtain ⟨hcursor, hdly⟩ := hidle fun ⟨hdelay, _⟩ => nomatch (hvar.trans hv).symm.trans hdelay
    obtain ⟨hcursor', hdly'⟩ := ih
    exact ⟨hcursor.trans hcursor', hdly.trans hdly'⟩

/-- Ticks that leave the gate off leave the chord phases alone (44_voices.md R160). -/
theorem ticks_keep_chordPhase (h : ReflTransGen TicksTo s t) (hg : t.chordGateEngaged = false) :
    t.chordPhase = s.chordPhase := by
  induction h with
  | refl => rfl
  | tail _ htick ih =>
    obtain ⟨v, u, hu, rfl⟩ := htick
    obtain ⟨-, hgate, hphase, -⟩ := tickStep_line hu
    have hoff := hgate.symm.trans hg
    exact (hphase hoff).trans (ih (engaged_eq_false_of_gateAfter hoff))

/-- FILL gives a state that its ticks reach, but for the registers of a fault and the report of `CONT`. -/
theorem exec_fill_next {n : Nat} (h : exec (.fill n) s = .next t) :
    ∃ u l c k, ReflTransGen TicksTo s u ∧ t = { u with lifecycle := l, faultCode := c, contOut := k } ∧
      (l = s.lifecycle → c = s.faultCode) ∧ (k = s.contOut ∨ k = s.contOut ++ [1#1]) := by
  obtain ⟨hl, rfl⟩ | ⟨hl, rfl⟩ | ⟨hl, hfill⟩ := fillWith_cases h
  · exact ⟨t, _, _, _, .refl, rfl, fun _ => rfl, .inl rfl⟩
  · exact ⟨s, .faulted, .notConstructed, s.contOut, .refl, rfl, (nomatch ·.trans hl), .inl rfl⟩
  · obtain ⟨u, hu, ht⟩ := fillTicks_induct (P := ReflTransGen TicksTo s)
      (fun _ v _ hrun htick => hrun.tail ⟨v, _, htick, rfl⟩) .refl hfill
    obtain ⟨-, hcode, -⟩ := ticks_frame hu
    obtain ⟨-, -, hcont⟩ := ticks_keep_ports hu
    obtain rfl | ⟨c, -, rfl⟩ := ht
    · exact ⟨u, _, _, _, hu, rfl, fun _ => hcode, .inr (congrArg (· ++ [1#1]) hcont)⟩
    · exact ⟨u, .faulted, c, _, hu, rfl, (nomatch ·.trans hl), .inl hcont⟩

end Machine

open Machine

/-- Settles O23: the frame of its ticks, whatever they end in. -/
theorem fillFrame : Obligations.FillFrame := by
  intro s t n h
  obtain ⟨u, l, c, k, hticks, rfl, hstatus, hcont⟩ := exec_fill_next h
  obtain ⟨-, -, hvar, hwrit⟩ := ticks_frame hticks
  obtain ⟨hpat, hhost, -⟩ := ticks_keep_ports hticks
  have hgate := ticks_keep_gate hticks
  have hphase := ticks_keep_chordPhase hticks
  refine ⟨hvar, hwrit, hpat, hhost, hcont, fun hl => ⟨hstatus hl, statusWord_congr hl hvar (hstatus hl)⟩,
    hgate, hphase, fun hv => ?_, fun hv hc => ?_⟩
  · obtain ⟨hcursor, hdly⟩ := ticks_basic_line hv hticks
    exact ⟨hcursor, fun a => congrArg (·.load a) hdly⟩
  · obtain ⟨-, hcursor, hwords⟩ := ticks_lineMoved hv hc hticks
    exact ⟨hcursor, hwords⟩

end Sys2Proof

/-! CERTIFICATES O26 and O56. The clock's formulas (41_clock.md R120) and the grid of beats and sixteenths (R123). -/

namespace Sys2Proof

/-- Halving does not round where it leaves a normal datum: it lowers the exponent by one. -/
theorem representable_div_two {x : Binary64} (hx : x.isFinite = true) (h : 2 ^ 53 ≤ x.magnitude) :
    Representable (x.value / 2) := by
  obtain ⟨neg, ⟨e, he⟩, f, rfl⟩ := Binary64.isFinite_iff.1 hx
  have hf : f.toNat < 2 ^ 52 := f.isLt
  match e with
  | 0 =>
    have : f.toNat = Binary64.magnitude (.fin neg ⟨0, he⟩ f) := rfl
    omega
  | 1 =>
    have : (2 ^ 52 + f.toNat) * 1 = Binary64.magnitude (.fin neg ⟨1, he⟩ f) := rfl
    omega
  | e + 2 =>
    refine ⟨.fin neg ⟨e + 1, by omega⟩ f, rfl, ?_⟩
    have hunits : (Binary64.fin neg ⟨e + 2, he⟩ f).units = (Binary64.fin neg ⟨e + 1, by omega⟩ f).units * 2 := by
      have hmag : (Binary64.fin neg ⟨e + 2, he⟩ f).magnitude = (Binary64.fin neg ⟨e + 1, by omega⟩ f).magnitude * 2 :=
        (mul_assoc _ (2 ^ e) 2).symm
      cases neg with
      | false => exact congrArg Nat.cast hmag
      | true => rw [Binary64.units, Binary64.units, hmag]; simp [Binary64.isNeg]
    rw [Binary64.value, Binary64.value, hunits, Int.cast_mul, Int.cast_ofNat]
    ring

/-- The floor of a datum as a natural number. -/
theorem Binary64.toNat_floor {x : Binary64} (hx : x.isFinite = true) : x.floor.toNat = ⌊x.value⌋.toNat := by
  rw [toNat_eq_toNat_floor, (floor_exact hx).2, Int.floor_intCast]

namespace Machine

theorem Const.four_exact : four.isFinite = true ∧ four.value = 4 := Binary64.ofNat_exact (n := 4) (by omega)

variable {n : Nat}

/-! ### The scalings by powers of two (R120) -/

/-- Sixteenths are four times the beats, without a rounding. -/
theorem clockSixteenths_exact (hn : n < 2 ^ 53) :
    (clockSixteenths n).isFinite = true ∧ (clockSixteenths n).value = (clockBeats n).value * 4 := by
  obtain ⟨hf, hbeats⟩ := clockBeats_exact hn
  obtain ⟨-, h0, -⟩ := clockBeats_atMost hn
  have hsmall : (clockBeats n).value * 2 ≤ 2 ^ 53 := by
    obtain ⟨-, hnear⟩ := clockSeconds_near hn
    have hlarge : (n : ℚ) ≤ 2 ^ 53 := by exact_mod_cast hn.le
    linarith [(abs_le.1 hnear).2]
  have h : RoundedOnce _ (clockSixteenths n) := Binary64.roundedOnce_mul hf Const.four_exact.1
  rw [Const.four_exact.2] at h
  refine h.exact_of_representable ?_
  obtain ⟨z, -, hz⟩ := representable_mul_two (x := clockBeats n) (by rw [abs_of_nonneg h0]; linarith)
  have hrep := representable_mul_two (x := z) (by rwa [hz, abs_of_nonneg (by linarith)])
  rwa [hz, mul_assoc, show (2 : ℚ) * 2 = 4 by norm_num] at hrep

theorem clockSixteenths_value (hn : n < 2 ^ 53) : (clockSixteenths n).value = (clockSeconds n).value * 8 := by
  rw [(clockSixteenths_exact hn).2, (clockBeats_exact hn).2]
  ring

/-- After index 0 the time is at least 2^-16 s; at index 0 it is zero. -/
theorem representable_clockSeconds_div_two (hn : n < 2 ^ 53) : Representable ((clockSeconds n).value / 2) := by
  have hround := roundedOnce_clockSeconds hn.le
  rcases Nat.eq_zero_or_pos n with rfl | hpos
  · rw [Nat.cast_zero, zero_div] at hround
    have hzero : Representable 0 := representable_nat (Nat.zero_le _)
    rwa [(hround.exact_of_representable hzero).2, zero_div]
  · have hlo : (1 : ℚ) ≤ n := by exact_mod_cast hpos
    have hhi : (n : ℚ) ≤ 2 ^ 53 := by exact_mod_cast hn.le
    obtain ⟨hf, hmin, -⟩ := hround.mem_Icc
      (representable_dyadic (q := 1 / 2 ^ 16) (n := 1) (k := 16) (by norm_num) (by decide) (by omega))
      (representable_nat (n := 2 ^ 53) le_rfl) ⟨by linarith, by push_cast; linarith⟩
    refine representable_div_two hf ?_
    have hmag := hmin.trans (le_abs_self _)
    rw [Binary64.abs_value, div_le_div_iff₀ (by positivity) cast_unitsPerOne_pos, one_mul, unitsPerOne] at hmag
    have hmag : 2 ^ 1074 ≤ (clockSeconds n).magnitude * 2 ^ 16 := by exact_mod_cast hmag
    omega

/-- Four beats, a bar, are half the seconds, without a rounding. -/
theorem clockBeats_div_four_exact (hn : n < 2 ^ 53) :
    ((clockBeats n).div Const.four).isFinite = true ∧
    ((clockBeats n).div Const.four).value = (clockBeats n).value / 4 := by
  obtain ⟨hf, hbeats⟩ := clockBeats_exact hn
  have h := Binary64.roundedOnce_div hf Const.four_exact.1 (by rw [Const.four_exact.2]; norm_num)
  rw [Const.four_exact.2] at h
  refine h.exact_of_representable ?_
  have hrep := representable_clockSeconds_div_two hn
  rwa [show (clockSeconds n).value / 2 = (clockBeats n).value / 4 by rw [hbeats]; ring] at hrep

/-! ### The grid (R123) -/

/-- The sixteenths are within 2^-13 of the exact ones. -/
theorem clockSixteenths_near (hn : n < 2 ^ 53) : |(clockSixteenths n).value - n / 6000| ≤ 1 / 2 ^ 13 := by
  obtain ⟨-, hnear⟩ := clockSeconds_near hn
  rw [clockSixteenths_value hn]
  rw [abs_le] at hnear ⊢
  constructor <;> linarith

/-- Rounding the time does not pass a grid line: the lines are representable, and the last index before one is further
from it than the rounding moves. -/
theorem floor_clockSixteenths (hn : n < 2 ^ 53) : ⌊(clockSixteenths n).value⌋ = ((n / 6000 : ℕ) : ℤ) := by
  have hbelow : ((n / 6000 : ℕ) : ℚ) * 6000 ≤ n := by exact_mod_cast Nat.div_mul_le_self n 6000
  have habove : (n : ℚ) + 1 ≤ ((n / 6000 : ℕ) + 1) * 6000 := by exact_mod_cast (by omega)
  rw [Int.floor_eq_iff, Int.cast_natCast]
  constructor
  · obtain ⟨z, hz, hline⟩ := representable_dyadic (q := (n / 6000 : ℕ) / 8) (n := ((n / 6000 : ℕ) : ℤ)) (k := 3)
      (by rw [Int.cast_natCast]; norm_num) (by omega) (by omega)
    have := (roundedOnce_clockSeconds hn.le).le_value (clockSeconds_near hn).1 hz (by rw [hline]; linarith)
    rw [clockSixteenths_value hn]
    linarith
  · linarith [(abs_le.1 (clockSixteenths_near hn)).2]

/-- The sixteenths are whole exactly at the multiples of 6 000 samples. -/
theorem clockSixteenths_eq_int_iff (hn : n < 2 ^ 53) :
    (∃ m : ℤ, (m : ℚ) = (clockSixteenths n).value) ↔ 6000 ∣ n := by
  constructor
  · rintro ⟨m, hm⟩
    have hlt : |(n : ℤ) - 6000 * m| < 1 := by
      have hnear := abs_le.1 (clockSixteenths_near hn)
      have : |(n : ℚ) - 6000 * m| < 1 := by
        rw [hm, abs_lt]
        constructor <;> linarith
      exact_mod_cast this
    have := Int.abs_lt_one_iff.1 hlt
    omega
  · rintro ⟨m, rfl⟩
    have hexact := (roundedOnce_clockSeconds hn.le).exact_of_representable
      (representable_dyadic (n := m) (k := 3) (by push_cast; ring) (by omega) (by omega))
    refine ⟨m, ?_⟩
    rw [clockSixteenths_value hn, hexact.2]
    push_cast
    ring

/-- The whole part of a `k`-th of the sixteenths counts the lines of 6000 · k samples up to the index. -/
theorem toNat_floor_of_eq_div {x : Binary64} {k : Nat} (hn : n < 2 ^ 53) (hx : x.isFinite = true)
    (h : x.value = (clockSixteenths n).value / k) : x.floor.toNat = n / (6000 * k) := by
  rw [Binary64.toNat_floor hx, h, Int.floor_div_natCast, floor_clockSixteenths hn, ← Nat.div_div_eq_div_mul]
  exact_mod_cast Int.toNat_natCast _

end Machine

open Machine

/-- Settles O26: the whole sixteenths count the lines of the grid; four of them make a beat and sixteen a bar. -/
theorem clockGridIsExact : Obligations.ClockGridIsExact := by
  intro n hn
  obtain ⟨hbf, -⟩ := clockBeats_exact hn
  obtain ⟨-, hb0, -⟩ := clockBeats_atMost hn
  obtain ⟨hsf, hs⟩ := clockSixteenths_exact hn
  obtain ⟨hdf, hd⟩ := clockBeats_div_four_exact hn
  have hs0 : 0 ≤ (clockSixteenths n).value := by rw [hs]; positivity
  refine ⟨?_, ?_, ?_, ?_, ?_, three_lt_clockSeconds_iff hn, beatFraction_inUnit hn, Binary64.sub_floor_inUnit hsf hs0⟩
  · rw [beatFraction_eq_zero_iff hn, Nat.dvd_iff_mod_eq_zero]
  · exact (sub_floor_eq_zero_iff hsf hs0).trans ((clockSixteenths_eq_int_iff hn).trans Nat.dvd_iff_mod_eq_zero)
  · exact toNat_floor_of_eq_div (x := clockBeats n) (k := 4) hn hbf (by rw [hs]; push_cast; ring)
  · exact toNat_floor_of_eq_div (x := clockSixteenths n) (k := 1) hn hsf (by rw [Nat.cast_one, div_one])
  · exact toNat_floor_of_eq_div (k := 16) hn hdf (by rw [hd, hs]; push_cast; ring)

/-- The clock at index 0, computed: all +0.0 or 0. -/
theorem clock_zero : clock 0 =
    { seconds := .zero false, beats := .zero false, beatFraction := .zero false, bar := .zero false,
      sixteenths := .zero false, sixteenthFraction := .zero false, step := 0, barMod4 := 0 } := by decide +kernel

/-- Settles O56: the formulas are the definitions; the scalings are exact because they only move the exponent. -/
theorem clockFollowsItsFormulas : Obligations.ClockFollowsItsFormulas :=
  ⟨fun _ => ⟨rfl, rfl, rfl, rfl, rfl, rfl, rfl, rfl⟩, clock_zero, fun _ hn =>
    ⟨(clockBeats_exact hn).2, (clockBeats_div_four_exact hn).2, (clockSixteenths_exact hn).2⟩⟩

end Sys2Proof

/-! CERTIFICATES O33 and O34. ADVANCE: the range of an advanced phase (42_oscillator_bank.md R132) and the corner cases
(R130). -/

namespace Sys2Proof

namespace Binary64

variable {x y : Binary64}

/-! ### When data of one value are one datum -/

theorem isNeg_of_value_ne_zero (h : x.value ≠ 0) : x.isNeg = decide (x.units < 0) := by
  have hm : x.magnitude ≠ 0 := mt value_eq_zero_iff.2 h
  unfold units
  cases x.isNeg
  · rw [if_neg Bool.false_ne_true]; exact (decide_eq_false (by omega)).symm
  · rw [if_pos rfl]; exact (decide_eq_true (by omega)).symm

/-- Only the two zeros share a value. -/
theorem eq_of_value_eq (hx : x.isFinite = true) (hy : y.isFinite = true) (h : x.value = y.value) (h0 : y.value ≠ 0) :
    x = y :=
  calc x = round x.isNeg x.magnitude 1 := (round_magnitude hx).symm
    _ = round y.isNeg y.magnitude 1 := by
      rw [isNeg_of_value_ne_zero h0, isNeg_of_value_ne_zero (h ▸ h0), ← natAbs_units, ← natAbs_units,
        value_eq_value_iff.1 h]
    _ = y := round_magnitude hy

theorem isFinite_of_ieeeEq (hy : y.isFinite = true) (h : x.ieeeEq y = true) : x.isFinite = true := by
  obtain ⟨a, e, f, rfl⟩ := isFinite_iff.1 hy
  cases x with
  | fin => rfl
  | inf => exact absurd h Bool.false_ne_true
  | nan => exact absurd h Bool.false_ne_true

/-! ### Differences and fractions -/

/-- The exact zero difference of a datum with itself is +0.0: the two operands of its sum have opposite signs. -/
theorem sub_self_eq_zero (hx : x.isFinite = true) : x.sub x = zero false := by
  obtain ⟨a, e, f, rfl⟩ := isFinite_iff.1 hx
  change roundInt (a && !a) ((fin a e f).units + (fin a e f).neg.units) = zero false
  rw [units_neg, add_neg_cancel, Bool.and_not_self]
  exact if_pos rfl

theorem frac_value (hx : x.isFinite = true) (h0 : 0 ≤ x.value) : x.frac.value = x.value - ⌊x.value⌋ := by
  obtain ⟨-, -, -, htrunc, -, hfrac, -⟩ := truncFloorFracAreExact x hx
  rw [hfrac, htrunc, if_pos h0]

end Binary64

namespace Machine

open Binary64

variable {x phase : Binary64}

theorem trunc_eq_one (hx : x.isFinite = true) (h1 : 1 ≤ x.value) (h2 : x.value < 2) : x.trunc = Const.one := by
  obtain ⟨hone, hone1⟩ := Const.one_exact
  obtain ⟨htf, -, -, htrunc, -⟩ := truncFloorFracAreExact x hx
  have hfloor : ⌊x.value⌋ = 1 := Int.floor_eq_iff.2 ⟨by exact_mod_cast h1, by push_cast; linarith⟩
  rw [if_pos (by linarith), hfloor, Int.cast_one] at htrunc
  exact eq_of_value_eq htf hone (htrunc.trans hone1.symm) (by rw [hone1]; exact one_ne_zero)

/-- A datum equal to 1.0 is 1.0, and its fraction is +0.0. -/
theorem frac_of_ieeeEq_one (h : x.ieeeEq Const.one = true) : x.frac = zero false := by
  obtain ⟨hone, hone1⟩ := Const.one_exact
  have hx := isFinite_of_ieeeEq hone h
  have hv := (ieeeEq_iff_value_eq hx hone).1 h
  have hxone := eq_of_value_eq hx hone hv (by rw [hone1]; exact one_ne_zero)
  have htrunc := trunc_eq_one hx (by rw [hv, hone1]) (by rw [hv, hone1]; exact one_lt_two)
  rw [frac, htrunc, ← hxone]
  exact sub_self_eq_zero hx

theorem frac_eq_sub_one (hx : x.isFinite = true) (h1 : 1 ≤ x.value) (h2 : x.value < 2) :
    x.frac = x.sub Const.one ∧ x.frac.value = x.value - 1 := by
  obtain ⟨-, hone1⟩ := Const.one_exact
  have htrunc := trunc_eq_one hx h1 h2
  obtain ⟨-, -, -, -, -, hfrac, -⟩ := truncFloorFracAreExact x hx
  exact ⟨by rw [frac, htrunc], by rw [hfrac, htrunc, hone1]⟩

/-- At frequency 0 neither the product nor the sum rounds. -/
theorem phase_add_zero (hp : phase.isFinite = true) :
    (phase.add (Const.zero.mul Const.dt)).isFinite = true ∧
    (phase.add (Const.zero.mul Const.dt)).value = phase.value := by
  have hzero : Const.zero.value = 0 := value_zero false
  obtain ⟨hdf, -⟩ := Const.dt_mem
  have hmul : RoundedOnce _ (Const.zero.mul Const.dt) := roundedOnce_mul rfl hdf
  rw [hzero, zero_mul] at hmul
  obtain ⟨hmf, hmv⟩ := hmul.exact_of_representable ⟨Const.zero, rfl, hzero⟩
  have hadd : RoundedOnce _ (phase.add (Const.zero.mul Const.dt)) := roundedOnce_add hp hmf
  rw [hmv, add_zero] at hadd
  exact hadd.exact_of_representable ⟨phase, hp, rfl⟩

theorem advance_zero (hp : phase.inUnit = true) : (advance phase Const.zero).ieeeEq phase = true := by
  obtain ⟨hpf, hp0, hp1⟩ := inUnit_iff.1 hp
  obtain ⟨hxf, hxv⟩ := phase_add_zero hpf
  obtain ⟨hf, -⟩ := frac_exact hxf
  rw [advance, ieeeEq_iff_value_eq hf hpf, frac_value hxf (by rw [hxv]; exact hp0), hxv,
    Int.floor_eq_zero_iff.2 ⟨hp0, hp1⟩, Int.cast_zero, sub_zero]

end Machine

open Machine

/-- Settles O33: the sum is finite and not negative, and the fraction of such a datum lies in [0, 1). -/
theorem advanceStaysInUnit : Obligations.AdvanceStaysInUnit := fun _ _ hp hf h0 =>
  advance_inUnit hp hf (Binary64.value_nonneg_iff.2 h0)

/-- Settles O34: each corner case is one of `frac` at the sum; the four examples are computed. -/
theorem advanceCornerCases : Obligations.AdvanceCornerCases := by
  refine ⟨fun phase f => ⟨rfl, advance_zero, frac_of_ieeeEq_one, frac_eq_sub_one, ?wholeCycles, ?negative⟩,
    by decide +kernel, by decide +kernel, by decide +kernel, by decide +kernel⟩
  case wholeCycles => exact fun hx h1 => Binary64.frac_value hx (by linarith)
  case negative =>
    intro hx hneg
    obtain ⟨-, -, -, -, -, -, -, hfrac⟩ := truncFloorFracAreExact _ hx
    exact hfrac hneg

end Sys2Proof

/-! CERTIFICATES O35, O36 and O57. ENV: its formula and corner cases (43_envelope.md R140), its endpoints and its decay
(R142). -/

namespace Sys2Proof

namespace Binary64

variable {x y z : Binary64}

/-! ### Rounding keeps the order of exact numbers, equal ones included -/

theorem magnitude_round (neg : Bool) {a b : Nat} (hf : (round neg a b).isFinite = true) :
    (round neg a b).magnitude = codeMag (roundCode a b) := by
  obtain ⟨-, hcode, -⟩ := pack_of_lt (neg := neg) (isFinite_round_iff.1 hf)
  rw [magnitude_eq_codeMag, round, hcode]

theorem magnitude_round_mono {m n : Bool} {a a' b : Nat} (hb : 0 < b) (h : a ≤ a')
    (hf : (round n a' b).isFinite = true) : (round m a b).magnitude ≤ (round n a' b).magnitude := by
  have hcode : roundCode a b ≤ roundCode a' b := roundCode_mono hb h
  have hf' : (round m a b).isFinite = true := isFinite_round_iff.2 (hcode.trans_lt (isFinite_round_iff.1 hf))
  rw [magnitude_round m hf', magnitude_round n hf]
  exact codeMag_le_iff.2 hcode

theorem mul_eq_round (hx : x.isFinite = true) (hy : y.isFinite = true) :
    x.mul y = round (x.isNeg != y.isNeg) (x.magnitude * y.magnitude) unitsPerOne := by
  obtain ⟨a, e, f, rfl⟩ := isFinite_iff.1 hx
  obtain ⟨b, e', f', rfl⟩ := isFinite_iff.1 hy
  rfl

theorem sub_eq_roundInt (hx : x.isFinite = true) (hy : y.isFinite = true) :
    x.sub y = roundInt (x.isNeg && y.neg.isNeg) (x.units - y.units) := by
  obtain ⟨a, e, f, rfl⟩ := isFinite_iff.1 hx
  obtain ⟨b, e', f', rfl⟩ := isFinite_iff.1 hy
  rw [sub_eq_add_neg, ← units_neg]
  rfl

theorem units_eq_magnitude (h : 0 ≤ x.units) : x.units = x.magnitude := by
  rw [← natAbs_units, Int.natAbs_of_nonneg h]

theorem magnitude_le_iff_units_le (hx : 0 ≤ x.units) (hy : 0 ≤ y.units) :
    x.magnitude ≤ y.magnitude ↔ x.units ≤ y.units := by
  rw [units_eq_magnitude hx, units_eq_magnitude hy, Int.ofNat_le]

theorem magnitude_mul_mono (hx : x.isFinite = true) (hy : y.isFinite = true) (hz : z.isFinite = true)
    (h : y.magnitude ≤ z.magnitude) (hf : (x.mul z).isFinite = true) : (x.mul y).magnitude ≤ (x.mul z).magnitude := by
  rw [mul_eq_round hx hz] at hf ⊢
  rw [mul_eq_round hx hy]
  exact magnitude_round_mono unitsPerOne_pos (Nat.mul_le_mul_left _ h) hf

/-- Of two data below a third, the lower leaves the larger difference. -/
theorem magnitude_sub_anti (hx : x.isFinite = true) (hy : y.isFinite = true) (hz : z.isFinite = true)
    (hyz : y.units ≤ z.units) (hzx : z.units ≤ x.units) (hf : (x.sub y).isFinite = true) :
    (x.sub z).magnitude ≤ (x.sub y).magnitude := by
  rw [sub_eq_roundInt hx hy, roundInt_eq_round] at hf ⊢
  rw [sub_eq_roundInt hx hz, roundInt_eq_round]
  exact magnitude_round_mono one_pos (by omega) hf

/-! ### Products with 1.0, with a zero, and with a factor in [0, 1] -/

theorem magnitude_one : Machine.Const.one.magnitude = unitsPerOne := by decide +kernel

/-- 1.0 is a right unit of every datum, whatever its sign, the infinities and NaN included. -/
theorem mul_const_one (x : Binary64) : x.mul Machine.Const.one = x := by
  obtain ⟨e, f, hone⟩ : ∃ e f, Machine.Const.one = .fin false e f := ⟨1023, 0#52, by decide +kernel⟩
  have hmag := magnitude_one
  rw [hone] at hmag ⊢
  cases x with
  | nan => rfl
  | inf a =>
    change (if magnitude (.fin false e f) = 0 then nan else inf (a != false)) = inf a
    rw [if_neg (hmag ▸ unitsPerOne_pos.ne'), Bool.bne_false]
  | fin a e' f' =>
    rw [mul_eq_round rfl rfl, hmag, magnitude_eq_codeMag, round, roundCode_exact unitsPerOne_pos]
    exact (congrArg (pack · _) (Bool.bne_false a)).trans (pack_code rfl)

theorem mul_zero_ieeeEq_zero (hx : x.isFinite = true) :
    (x.mul Machine.Const.zero).ieeeEq Machine.Const.zero = true := by
  have hzero : Machine.Const.zero.value = 0 := value_zero false
  have h : RoundedOnce _ (x.mul Machine.Const.zero) := roundedOnce_mul hx rfl
  rw [hzero, mul_zero] at h
  obtain ⟨hf, hv⟩ := h.exact_of_representable ⟨Machine.Const.zero, rfl, hzero⟩
  rwa [ieeeEq_iff_value_eq hf rfl, hzero]

/-- A factor in [0, 1] takes a non-negative amplitude to a finite datum between 0 and itself. -/
theorem mul_mem_of_atMost_one (hx : x.isFinite = true) (h0 : 0 ≤ x.units) (hy : y.AtMost 1) :
    (x.mul y).isFinite = true ∧ 0 ≤ (x.mul y).units ∧ (x.mul y).units ≤ x.units := by
  obtain ⟨hyf, hy0, hy1⟩ := hy
  rw [Nat.cast_one] at hy1
  have hx0 := value_nonneg_iff.2 h0
  obtain ⟨hf, hlo, hhi⟩ := (roundedOnce_mul hx hyf).mem_Icc ⟨zero false, rfl, value_zero false⟩ ⟨x, hx, rfl⟩
    ⟨mul_nonneg hx0 hy0, mul_le_of_le_one_right hx0 hy1⟩
  exact ⟨hf, value_nonneg_iff.1 hlo, value_le_value_iff.1 hhi⟩

/-! ### Sterbenz's lemma at 1.0 -/

/-- A datum in [1/2, 1) is `m * 2 ^ k` units with `m` below 2^53; what it leaves of 1.0 is a multiple of the same `2 ^ k`
and no larger, so it needs no more bits than `m`. -/
theorem representable_one_sub (hlo : 1 / 2 ≤ x.value) (hhi : x.value < 1) : Representable (1 - x.value) := by
  obtain ⟨m, k, hmag, hm⟩ := x.exists_magnitude_eq
  have hunits : x.units = x.magnitude := units_eq_magnitude (value_nonneg_iff.1 (one_half_pos.le.trans hlo))
  have hlt : m * 2 ^ k < unitsPerOne := by
    rw [← hmag, ← Int.ofNat_lt, ← hunits]
    exact value_lt_one_iff.1 hhi
  have hge : unitsPerOne ≤ 2 * (m * 2 ^ k) := by
    rw [value, div_le_div_iff₀ two_pos cast_unitsPerOne_pos, one_mul, hunits, hmag] at hlo
    have : unitsPerOne ≤ m * 2 ^ k * 2 := by exact_mod_cast hlo
    omega
  have hk : k ≤ 1074 := by
    have hpos : 0 < m := Nat.pos_of_ne_zero fun h => by
      rw [h, Nat.zero_mul, Nat.mul_zero] at hge
      exact absurd unitsPerOne_pos hge.not_gt
    by_contra hbig
    have hle := Nat.le_of_dvd (by positivity) (unitsPerOne_dvd_two_pow (not_le.1 hbig).le)
    exact (hle.trans (Nat.le_mul_of_pos_left _ hpos)).not_gt hlt
  obtain ⟨j, hj⟩ : 2 ^ k ∣ unitsPerOne - m * 2 ^ k := Nat.dvd_sub (two_pow_dvd_unitsPerOne hk) (Nat.dvd_mul_left _ _)
  have hjm : j ≤ m := by
    refine Nat.le_of_mul_le_mul_left (c := 2 ^ k) ?_ (by positivity)
    rw [← hj, Nat.mul_comm (2 ^ k) m]
    omega
  have hrep := representable_of_natAbs (z := unitsPerOne - x.units) (m := j) (k := k)
    (by rw [hunits, hmag, Nat.mul_comm j, ← hj]; omega) (hjm.trans hm.le) (by omega)
  rwa [Int.cast_sub, Int.cast_natCast, ← one_sub_div cast_unitsPerOne_pos.ne'] at hrep

end Binary64

namespace Machine

open Binary64

variable {F : NumericConfig} {A E t u : Binary64}

/-! ### The base `1.0 - t` -/

theorem one_sub_zero : Const.one.sub Const.zero = Const.one := by decide +kernel

theorem one_sub_one : Const.one.sub Const.one = Const.zero := sub_self_eq_zero Const.one_exact.1

theorem env_zero (F : NumericConfig) (A E : Binary64) : env F Const.zero A E = A.mul (F.pow Const.one E) := by
  rw [env, one_sub_zero]

theorem env_one (F : NumericConfig) (A E : Binary64) : env F Const.one A E = A.mul (F.pow Const.zero E) := by
  rw [env, one_sub_one]

/-- The base is one `Pow` is assumed about. -/
theorem one_sub_units_mem (ht : t.inUnit = true) :
    (Const.one.sub t).isFinite = true ∧ 0 < (Const.one.sub t).units ∧
      (Const.one.sub t).units ≤ (unitsPerOne : ℤ) := by
  obtain ⟨hf, h0, h1⟩ := one_sub_mem ht
  exact ⟨hf, value_pos_iff.1 h0, value_le_one_iff.1 h1⟩

theorem one_sub_units_anti (ht : t.inUnit = true) (hu : u.inUnit = true) (htu : t.units ≤ u.units) :
    (Const.one.sub u).units ≤ (Const.one.sub t).units := by
  obtain ⟨htf, -⟩ := inUnit_iff.1 ht
  obtain ⟨huf, -, hu1⟩ := inUnit_iff.1 hu
  obtain ⟨hbtf, hbt0, -⟩ := one_sub_units_mem ht
  obtain ⟨-, hbu0, -⟩ := one_sub_units_mem hu
  have hu1 : u.units ≤ Const.one.units := value_le_value_iff.1 (by rw [Const.one_exact.2]; exact hu1.le)
  exact (magnitude_le_iff_units_le hbu0.le hbt0.le).1 (magnitude_sub_anti Const.one_exact.1 htf huf htu hu1 hbtf)

theorem one_sub_exact (hf : t.isFinite = true) (hlo : 1 / 2 ≤ t.value) (hhi : t.value < 1) :
    (Const.one.sub t).value = 1 - t.value := by
  have h : RoundedOnce _ (Const.one.sub t) := roundedOnce_sub Const.one_exact.1 hf
  rw [Const.one_exact.2] at h
  exact (h.exact_of_representable (representable_one_sub hlo hhi)).2

/-! ### The decay -/

theorem pow_one_sub_atMost (hF : PowUnit F) (hE : Const.zero.lt E = true) (ht : t.inUnit = true) :
    (F.pow (Const.one.sub t) E).AtMost 1 := by
  obtain ⟨hbf, hb0, hb1⟩ := one_sub_units_mem ht
  obtain ⟨hf, h0, h1⟩ := hF _ E hbf hb0 hb1 hE
  exact ⟨hf, value_nonneg_iff.2 h0, by rw [Nat.cast_one]; exact value_le_one_iff.2 h1⟩

theorem env_mem (hF : PowUnit F) (hA : A.isFinite = true) (hA0 : 0 ≤ A.units) (hE : Const.zero.lt E = true)
    (ht : t.inUnit = true) : (env F t A E).isFinite = true ∧ 0 ≤ (env F t A E).units ∧ (env F t A E).units ≤ A.units :=
  mul_mem_of_atMost_one hA hA0 (pow_one_sub_atMost hF hE ht)

/-- A later `t` has a lower base, so a lower power, so a lower product: every rounding on the way keeps the order. -/
theorem env_anti (hF : PowUnit F) (hM : PowMonotone F) (hA : A.isFinite = true) (hA0 : 0 ≤ A.units)
    (hE : Const.zero.lt E = true) (ht : t.inUnit = true) (hu : u.inUnit = true) (htu : t.units ≤ u.units) :
    (env F u A E).units ≤ (env F t A E).units := by
  obtain ⟨-, hbu0, -⟩ := one_sub_units_mem hu
  obtain ⟨-, -, hbt1⟩ := one_sub_units_mem ht
  obtain ⟨hpuf, hpu0, -⟩ := pow_one_sub_atMost hF hE hu
  obtain ⟨hptf, hpt0, -⟩ := pow_one_sub_atMost hF hE ht
  obtain ⟨-, heu0, -⟩ := env_mem hF hA hA0 hE hu
  obtain ⟨hetf, het0, -⟩ := env_mem hF hA hA0 hE ht
  have hpow : (F.pow (Const.one.sub u) E).units ≤ (F.pow (Const.one.sub t) E).units :=
    hM _ _ E hbu0 (one_sub_units_anti ht hu htu) hbt1 hE
  have hmag := (magnitude_le_iff_units_le (value_nonneg_iff.1 hpu0) (value_nonneg_iff.1 hpt0)).2 hpow
  exact (magnitude_le_iff_units_le heu0 het0).1 (magnitude_mul_mono hA hpuf hptf hmag hetf)

end Machine

open Machine

/-- Settles O35: at 0 the base is 1.0, whose power 1.0 is a right unit; at 1 it is +0.0, whose power is +0.0. -/
theorem envelopeEndpoints : Obligations.EnvelopeEndpoints := by
  intro F hone hzero A E
  refine ⟨?_, fun hA hE => ?_⟩
  · rw [env_zero, hone, Binary64.mul_const_one]
  · rw [env_one, hzero E hE]
    exact Binary64.mul_zero_ieeeEq_zero hA

/-- Settles O36: rounding keeps the order of the bases and of the products. -/
theorem envelopeDecays : Obligations.EnvelopeDecays := by
  intro F hF hM A E t u hA hA0 hE ht hu htu
  obtain ⟨-, hu0, -⟩ := env_mem hF hA hA0 hE hu
  obtain ⟨-, -, htA⟩ := env_mem hF hA hA0 hE ht
  exact ⟨env_anti hF hM hA hA0 hE ht hu htu, hu0, htA⟩

/-- Settles O57: the formula is `env` itself; below 1.0 a fraction leaves a unit, and from 1/2 on Sterbenz's lemma says
that the difference does not round. -/
theorem envelopeIsPowerDecay : Obligations.EnvelopeIsPowerDecay := fun F _ A E =>
  ⟨rfl, env_zero F A E, env_one F A E, one_sub_mem, one_sub_exact⟩

end Sys2Proof

/-! CERTIFICATE O43. The latch, the cursor and the idle chord by sample index (44_voices.md R156; 45_delay.md R181). -/

namespace Sys2Proof

namespace Machine

variable {F : NumericConfig} {s t : State} {v : Binary64}

/-- From a state on the grid a tick leaves the gate on exactly from index 168 000 on, the least multiple of 24 000 past
144 000 (44_voices.md R156). -/
theorem gateAfter_iff_of_onGrid (hs : s.OnGrid) (hw : s.datapathWritten = true) (hn : s.sampleCount.toNat < 2 ^ 53) :
    gateAfter s = true ↔ 168000 ≤ s.sampleCount.toNat := by
  rw [gateAfter_iff hn, hs.gate hw]
  omega

/-- Under WithDelay the first tick that moves the cursor is that of index 168 000; under Basic none does. -/
theorem cursor_tick_of_onGrid (hs : s.OnGrid) (htick : tickStep F s = .produced v t) :
    t.delayWriteIndex.toNat =
      if s.variant = .withDelay then (t.sampleCount.toNat - 168000) % 18000 else 0 := by
  obtain ⟨hw, hn, -⟩ := tickStep_produced htick
  obtain ⟨hcount, -, -, hcalled, hidle⟩ := tickStep_line htick
  have hcursor := hs.cursor hw
  have hgate := gateAfter_iff_of_onGrid hs hw hn
  by_cases hv : s.variant = .withDelay
  case neg =>
    rw [if_neg hv] at hcursor ⊢
    obtain ⟨hsame, -⟩ := hidle fun ⟨hdelay, _⟩ => hv hdelay
    rw [hsame, hcursor]
  case pos =>
    rw [if_pos hv] at hcursor ⊢
    rw [hcount]
    by_cases hon : gateAfter s = true
    · obtain ⟨-, hnext, -⟩ := hcalled hv hon
      have := hgate.1 hon
      rw [hnext, hcursor, Const.delayLen]
      omega
    · obtain ⟨hsame, -⟩ := hidle fun ⟨_, hengaged⟩ => hon hengaged
      have := mt hgate.2 hon
      rw [hsame, hcursor]
      omega

/-- A tick takes a state on the grid to the next index of the grid. -/
theorem onGrid_tick (hs : s.OnGrid) (htick : tickStep F s = .produced v t) : (emit v t).OnGrid := by
  obtain ⟨hw, hn, -⟩ := tickStep_produced htick
  obtain ⟨-, -, hvar, -⟩ := tickStep_frame htick
  obtain ⟨hcount, hgate, hphase, -, hidle⟩ := tickStep_line htick
  refine ⟨fun _ => ?gate, fun _ => ?cursor, fun _ hoff => ?chordIdle, fun _ hoff => ?dlyIdle⟩
  case gate =>
    rw [emit_chordGateEngaged, hgate, gateAfter_iff_of_onGrid hs hw hn, emit_sampleCount, hcount, Nat.lt_succ_iff]
  case cursor =>
    rw [emit_delayWriteIndex, emit_variant, hvar, emit_sampleCount]
    exact cursor_tick_of_onGrid hs htick
  case chordIdle =>
    have hstays : gateAfter s = false := hgate.symm.trans hoff
    exact (hphase hstays).trans (hs.chordIdle hw (engaged_eq_false_of_gateAfter hstays))
  case dlyIdle =>
    rw [emit_chordGateEngaged, hgate, emit_variant, hvar] at hoff
    have huncalled : ¬ (s.variant = .withDelay ∧ gateAfter s = true) := by
      rintro ⟨hdelay, hon⟩
      rw [hdelay, hon] at hoff
      exact absurd hoff (by decide)
    obtain ⟨-, hsame⟩ := hidle huncalled
    exact hsame.trans (hs.dlyIdle hw (hoff.imp_left engaged_eq_false_of_gateAfter))

/-- INIT puts the index at 0, with the gate off and the chord and the delay line at rest. -/
theorem onGrid_construct (v : Variant) (s : State) : (construct v s).OnGrid where
  gate _ := by simp
  cursor _ := by simp
  chordIdle _ _ := rfl
  dlyIdle _ _ := rfl

/-- The grid says nothing of a datapath without values. -/
theorem onGrid_powerOnReset (s : State) : (powerOnReset s).OnGrid := ⟨nofun, nofun, nofun, nofun⟩

end Machine

open Machine in
/-- Settles O43: only a tick and INIT move what the grid speaks of. -/
theorem stepKeepsTheGrid : Obligations.StepKeepsTheGrid := fun _ _ _ =>
  step_induct (fun _ _ ⟨hg, hc, hp, hd⟩ => ⟨hg, hc, hp, hd⟩) (fun s _ => onGrid_powerOnReset s)
    (fun _ _ ⟨hg, hc, hp, hd⟩ _ => ⟨hg, hc, hp, hd⟩) (fun s v _ _ => onGrid_construct v s)
    (fun _ _ _ hs _ htick => onGrid_tick hs htick) (fun _ ⟨hg, hc, hp, hd⟩ _ => ⟨hg, hc, hp, hd⟩)

end Sys2Proof

/-! CERTIFICATE O27. The step gate and the chord's frequency by sample index (44_voices.md R161, R162 and R166). -/

namespace Sys2Proof

namespace Machine

variable {n : Nat}

/-- The step and the bar count the grid's lines, by the exact grid (41_clock.md R123). -/
theorem clock_step_val (hn : n < 2 ^ 53) : (clock n).step.val = n / 6000 % 16 := by
  obtain ⟨-, -, -, hsixteenths, -⟩ := clockGridIsExact n hn
  exact congrArg (· % 16) hsixteenths

theorem clock_barMod4 (hn : n < 2 ^ 53) : (clock n).barMod4 = n / 96000 % 4 := by
  obtain ⟨-, -, -, -, hbar, -⟩ := clockGridIsExact n hn
  exact congrArg (· % 4) hbar

theorem stepGate_pattern (i : Fin 16) :
    stepGate Const.pattern i = if i.val ∈ [0, 3, 5, 10, 12] then Const.one else Const.zero := by
  rw [stepGate, romRead_pattern]
  simp only [decide_eq_true_eq]

/-- The base frequencies are exact (44_voices.md R161). -/
theorem chordBase_eq_ofNat : chordBase .basic = .ofNat 200 ∧ chordBase .withDelay = .ofNat 250 := by decide +kernel

/-- Bars 2 and 3 of every four are the second half of every 384 000 samples (44_voices.md R162). -/
theorem chordFreq_clock (v : Variant) (hn : n < 2 ^ 53) :
    chordFreq v (clock n).barMod4 =
      if 192000 ≤ n % 384000 then (chordBase v).mul Const.twoThirds else chordBase v := by
  rw [chordFreq, clock_barMod4 hn]
  exact if_congr (by omega) rfl rfl

end Machine

open Machine

/-- Settles O27: the clock's lines are the grid's, and the base frequencies and the pattern are computed. -/
theorem stepGateAndShiftByIndex : Obligations.StepGateAndShiftByIndex := by
  intro n hn
  obtain ⟨hbasic, hdelay⟩ := chordBase_eq_ofNat
  refine ⟨clock_step_val hn, clock_barMod4 hn, ?_, ?_, ?_⟩
  · rw [stepGate_pattern, clock_step_val hn]
    rfl
  · rw [chordFreq_clock _ hn, hbasic]
    rfl
  · rw [chordFreq_clock _ hn, hdelay]
    rfl

end Sys2Proof

/-! CERTIFICATE O38. The bass on the beat (44_voices.md R152, R153). -/

namespace Sys2Proof

namespace Binary64

variable {x y : Binary64}

theorem absLe_iff : x.absLe y = true ↔ x.isFinite = true ∧ |x.value| ≤ y.value := by
  rw [absLe, Bool.and_eq_true, Bool.and_eq_true, decide_eq_true_iff, decide_eq_true_iff, and_assoc, ← units_neg,
    ← value_le_value_iff, ← value_le_value_iff, value_neg, abs_le]

/-- A factor of magnitude at most 1 does not take a finite datum past the overflow bound. -/
theorem isFinite_mul_of_abs_le_one (hx : x.isFinite = true) (hy : y.isFinite = true) (h : |x.value| ≤ 1) :
    (x.mul y).isFinite = true := by
  refine (roundedOnce_mul hx hy).isFinite ?_
  rw [abs_mul]
  exact (mul_le_of_le_one_left (abs_nonneg _) h).trans_lt (abs_value_lt_overflowBound hy)

end Binary64

namespace Machine

open Binary64

variable {F : NumericConfig} {bf phase : Binary64}

theorem one_sub_of_ieeeEq_zero (h : bf.ieeeEq Const.zero = true) : Const.one.sub bf = Const.one := by
  obtain ⟨hone, hone1⟩ := Const.one_exact
  have hf : bf.isFinite = true := isFinite_of_ieeeEq rfl h
  have hv : bf.value = 0 := ((ieeeEq_iff_value_eq hf rfl).1 h).trans (value_zero false)
  have hsub : RoundedOnce _ (Const.one.sub bf) := roundedOnce_sub hone hf
  rw [hv, sub_zero] at hsub
  obtain ⟨hsf, hsv⟩ := hsub.exact_of_representable ⟨_, hone, rfl⟩
  exact eq_of_value_eq hsf hone hsv (by rw [hone1]; exact one_ne_zero)

theorem Const.pointTwo_isFinite : Const.pointTwo.isFinite = true := by decide +kernel

/-- On a beat the envelope is at its full 0.2, which the gain takes away from 0.2. -/
theorem bassGain_on_beat (hF : PowOne F) (h : bf.ieeeEq Const.zero = true) : bassGain F bf = Binary64.zero false := by
  rw [bassGain, env, one_sub_of_ieeeEq_zero h, hF, mul_const_one]
  exact sub_self_eq_zero Const.pointTwo_isFinite

theorem Const.twoPi_isFinite : Const.twoPi.isFinite = true := by
  obtain ⟨-, hbits⟩ := Const.pi_twoPi_bits
  rw [hbits]
  rfl

theorem angle_isFinite (hp : phase.inUnit = true) : (angle phase).isFinite = true := by
  obtain ⟨hpf, hp0, hp1⟩ := inUnit_iff.1 hp
  exact isFinite_mul_of_abs_le_one hpf Const.twoPi_isFinite (by rw [abs_of_nonneg hp0]; exact hp1.le)

/-- What the bass gain multiplies is finite. -/
theorem tanh_drive_isFinite (hT : TanhBounded F) (hS : SinBounded F) (hp : phase.inUnit = true) :
    (F.tanh ((F.sin (angle phase)).mul Const.oneAndHalf)).isFinite = true := by
  obtain ⟨hsin, hsin1⟩ := absLe_iff.1 (hS _ (angle_isFinite hp))
  obtain ⟨hhalf, -⟩ := Const.oneAndHalf_atMost
  have hdrive : ((F.sin (angle phase)).mul Const.oneAndHalf).isFinite = true :=
    isFinite_mul_of_abs_le_one hsin hhalf (hsin1.trans_eq Const.one_exact.2)
  obtain ⟨htanh, -⟩ := absLe_iff.1 (hT _ hdrive)
  exact htanh

end Machine

open Machine

/-- Settles O38: on a beat the gain is an exact difference, and a finite datum times +0.0 is a zero. -/
theorem bassIsSilentOnTheBeat : Obligations.BassIsSilentOnTheBeat := by
  intro F hF hT hS n phase hn hbeat hp
  have hbf := (beatFraction_eq_zero_iff hn).2 (Nat.dvd_of_mod_eq_zero hbeat)
  have hgain := bassGain_on_beat hF hbf
  refine ⟨hgain, ?_⟩
  rw [bassOut, hgain]
  exact Binary64.mul_zero_ieeeEq_zero (tanh_drive_isFinite hT hS hp)

end Sys2Proof

/-! CERTIFICATE O39. The zero property of the gate (44_voices.md R169). -/

namespace Sys2Proof

namespace Machine

variable {pat : Vector Bool 16} {i : Fin 16}

theorem stepGate_of_not_hit (h : pat[i] = false) : stepGate pat i = Const.zero := by
  rw [stepGate, romRead, h, if_neg Bool.false_ne_true]

/-- On a step that is no hit the dry chord is a finite datum times +0.0 (44_voices.md R167). -/
theorem dryChordOf_ieeeEq_zero {F : NumericConfig} {t : MusicalTime} {phases : Vector Binary64 3}
    (h : pat[t.step] = false)
    (hf : ((chordTimbre F phases).mul (env F t.sixteenthFraction Const.chordEnvAmp Const.three)).isFinite = true) :
    (dryChordOf F t pat phases).ieeeEq Const.zero = true := by
  rw [dryChordOf, dryChord, stepGate_of_not_hit h]
  exact Binary64.mul_zero_ieeeEq_zero hf

end Machine

open Machine

/-- Settles O39: the dry chord is a zero, and the variant decides what is added to it (44_voices.md R168). -/
theorem gateZeroSilencesTheDryChord : Obligations.GateZeroSilencesTheDryChord := by
  intro F t s r hpat hr hf
  have hdry := dryChordOf_ieeeEq_zero hpat hf
  obtain ⟨-, ⟨hv, -, hout⟩ | ⟨hv, y, hcall, hout⟩⟩ := chordVoice_on hr
  · exact ⟨hdry, fun _ => ⟨_, hout, hdry⟩, fun hv' => nomatch hv.symm.trans hv'⟩
  · exact ⟨hdry, fun hv' => (nomatch hv.symm.trans hv'), fun _ => ⟨y, hcall, hout⟩⟩

end Sys2Proof

/-! CERTIFICATE O37. SAW6F (44_voices.md R164). -/

namespace Sys2Proof

namespace Binary64

/-- A whole number times +0.0 is +0.0, sign included. -/
theorem ofNat_mul_zero {n : Nat} (hn : n ≤ 2 ^ 53) : (ofNat n).mul (zero false) = zero false := by
  obtain ⟨hf, -⟩ := ofNat_exact hn
  obtain ⟨-, -, hsign⟩ := pack_of_lt (neg := false) (isFinite_round_iff.1 hf)
  have hcode : roundCode 0 unitsPerOne = 0 := by simpa [codeMag] using roundCode_exact (c := 0) unitsPerOne_pos
  have hneg : (ofNat n).isNeg = false := hsign
  rw [mul_eq_round hf rfl, hneg, show (zero false).magnitude = 0 from rfl, Nat.mul_zero, round, hcode]
  rfl

end Binary64

namespace Machine

variable {F : NumericConfig}

/-- The statement gives the bias 0.2 in hundredths. -/
theorem Const.pointTwo_eq_hundredths : Const.pointTwo = Binary64.ofRatio 20 100 := by decide +kernel

/-- A harmonic of SAW6F whose sine is +0.0. -/
def silentHarmonic (sum bias : Binary64) : Binary64 := (sum.add Const.zero).add bias

/-- At +0.0, where every sine is +0.0, each harmonic adds +0.0 and then its bias. -/
theorem saw6fFrom_zero (hF : F.sin Const.zero = Const.zero) {k : Nat} {biases : List Binary64}
    (hk : k + biases.length ≤ 2 ^ 53) (s : Binary64) :
    saw6fFrom F Const.zero k biases s = biases.foldl silentHarmonic s := by
  induction biases generalizing k s with
  | nil => rfl
  | cons bias biases ih =>
    rw [List.length_cons] at hk
    have harg : (Binary64.ofNat k).mul Const.zero = Const.zero := Binary64.ofNat_mul_zero (by omega)
    rw [saw6fFrom, harg, hF, List.foldl_cons]
    exact ih (by omega) _

/-- The bias sum, rounded at each step (95_test_vectors.md V-SAW-1). -/
theorem biasSum_bits :
    Const.sawBias.foldl silentHarmonic Const.zero = .fin false 1023 0x70a3d70a3d70a#52 := by decide +kernel

theorem saw6f_zero (hF : F.sin Const.zero = Const.zero) :
    saw6f F Const.zero = .fin false 1023 0x70a3d70a3d70a#52 :=
  (saw6fFrom_zero hF (by simp [Const.sawBias]) Const.zero).trans biasSum_bits

end Machine

open Machine

/-- Settles O37: the loop over the six biases unrolls to the six harmonics; at +0.0 only the biases are left. -/
theorem sawIsSixBiasedSines : Obligations.SawIsSixBiasedSines := by
  refine fun F x => ⟨?_, saw6f_zero⟩
  rw [← Const.pointTwo_eq_hundredths]
  rfl

end Sys2Proof

/-! CERTIFICATE O24. One DELAY call (45_delay.md R180). -/

namespace Sys2Proof

namespace Machine

/-- What one call of a delay line does, for any feedback: the slot at the cursor takes the input and the fed-back old word,
and the word returned is the next slot's, which this call has not written. -/
structure DelayCalled (feedback input : Binary64) (line : DelayLine) (returned : Binary64) (line' : DelayLine) : Prop where
  cursor : line'.cursor.toNat = (line.cursor.toNat + 1) % 18000
  written : line'.words.load line.cursor.toNat = input.add ((line.words.load line.cursor.toNat).mul feedback)
  other : ∀ a, a ≠ line.cursor.toNat → line'.words.load a = line.words.load a
  old : returned = line.words.load ((line.cursor.toNat + 1) % 18000)
  next : returned = line'.words.load line'.cursor.toNat
  wf : line'.words.wf = true

theorem delayCall_called (feedback input : Binary64) {line : DelayLine} (hw : line.words.wf = true)
    (hc : line.cursor.toNat < 18000) :
    ∃ returned line', delayCall feedback input line = .ok (returned, line') ∧
      DelayCalled feedback input line returned line' := by
  have hne : (line.cursor.toNat + 1) % 18000 ≠ line.cursor.toNat := by omega
  have hnext : (nextCursor line.cursor).toNat = (line.cursor.toNat + 1) % 18000 := nextCursor_toNat _
  exact ⟨_, _, delayCall_eq_ok.2 ⟨hc, rfl, rfl⟩,
    { cursor := hnext
      written := load_store_same hw
      other := fun _ ha => load_store_other ha
      old := by rw [hnext]; exact load_store_other hne
      next := rfl
      wf := store_wf hw hc }⟩

end Machine

open Machine

/-- Settles O24: the block's feedback is one half, and a cursor out of range stops at the first read. -/
theorem delayCallReadsWritesAdvances : Obligations.DelayCallReadsWritesAdvances := by
  refine fun input line hw => ⟨fun hc => ?_, delay_out_of_range input⟩
  obtain ⟨returned, line', hcall, hcursor, hwritten, hother, hold, hnext, hwf⟩ :=
    delayCall_called Const.delayFeedback input hw hc
  exact ⟨returned, line', hcall, hcursor, hwritten, hother, hold, hnext, hwf⟩

end Sys2Proof

/-! CERTIFICATE O25. The impulse response (45_delay.md R183). -/

namespace Sys2Proof

/-! ### Powers of one half, down to where they underflow -/

namespace Binary64

/-- A ratio of at most half a unit rounds to zero: at exactly half, the even neighbour is zero. -/
theorem round_eq_zero_of_le_half (neg : Bool) {a b : Nat} (hb : 0 < b) (h : 2 * a ≤ b) : round neg a b = zero neg := by
  have hcode : roundCode a b = 0 := by
    have hlt : a < b := by omega
    rw [roundCode, Nat.div_eq_of_lt hlt, show roundShift 0 = 0 by rfl, Nat.zero_mul, Nat.zero_add, pow_zero,
      Nat.mul_one, divNearestEven, Nat.mod_eq_of_lt hlt, Nat.div_eq_of_lt hlt]
    split
    · rfl
    · exact if_neg h.not_gt
  rw [round, hcode]
  rfl

theorem ofRatio_one_two_pow_exact {j : Nat} (hj : j ≤ 1074) :
    (ofRatio 1 (2 ^ j)).isFinite = true ∧ (ofRatio 1 (2 ^ j)).value = 1 / 2 ^ j := by
  exact_mod_cast ofRatio_exact (a := 1) (b := 2 ^ j) (m := 1) (by positivity) rfl (by omega) hj

theorem ofRatio_one_two_pow_underflow {j : Nat} (hj : 1074 < j) : ofRatio 1 (2 ^ j) = zero false := by
  obtain ⟨i, hi, rfl⟩ : ∃ i, 1074 ≤ i ∧ j = i + 1 := ⟨j - 1, by omega, by omega⟩
  refine round_eq_zero_of_le_half false (by positivity) ?_
  rw [Nat.one_mul, pow_succ']
  exact Nat.mul_le_mul_left 2 (Nat.le_of_dvd (by positivity) (unitsPerOne_dvd_two_pow hi))

end Binary64

namespace Machine

open Binary64

/-- Halving a power of one half once gives the next, rounded once, underflow included. -/
theorem zero_add_mul_half (j : Nat) :
    Const.zero.add ((ofRatio 1 (2 ^ j)).mul Const.half) = ofRatio 1 (2 ^ (j + 1)) := by
  rcases Nat.lt_trichotomy j 1074 with hlt | rfl | hgt
  · obtain ⟨hf, hv⟩ := ofRatio_one_two_pow_exact hlt.le
    obtain ⟨hf', hv'⟩ := ofRatio_one_two_pow_exact (Nat.succ_le_of_lt hlt)
    obtain ⟨hhalf, hhalf2⟩ := Const.half_exact
    have hmul := roundedOnce_mul hf hhalf
    rw [hv, hhalf2, div_mul_div_comm, one_mul, ← pow_succ, ← hv'] at hmul
    obtain ⟨hmf, hmv⟩ := hmul.exact_of_representable ⟨_, hf', rfl⟩
    have hadd : RoundedOnce _ (Const.zero.add _) := roundedOnce_add rfl hmf
    rw [show Const.zero.value = 0 from value_zero false, zero_add, hmv] at hadd
    obtain ⟨haf, hav⟩ := hadd.exact_of_representable ⟨_, hf', rfl⟩
    exact eq_of_value_eq haf hf' hav (by rw [hv']; positivity)
  · decide +kernel
  · rw [ofRatio_one_two_pow_underflow hgt, ofRatio_one_two_pow_underflow (by omega)]
    decide +kernel

/-! ### The line after an impulse -/

/-- With this feedback an impulse leaves `echo j` in slot 0 at the cursor's `j`-th return to it, and no trace of the zeros
that follow anywhere else. -/
structure Echoes (feedback : Binary64) (echo : Nat → Binary64) : Prop where
  impulse : Const.one.add (Const.zero.mul feedback) = echo 0
  fedBack : ∀ j, Const.zero.add ((echo j).mul feedback) = echo (j + 1)
  silent : Const.zero.add (Const.zero.mul feedback) = Const.zero

/-- What call `i` returns, counted from the impulse: the echo of slot 0 one call before the cursor is back at it. -/
def echoReturned (echo : Nat → Binary64) (i : Nat) : Binary64 :=
  if (i + 1) % 18000 = 0 then echo ((i + 1) / 18000 - 1) else Const.zero

/-- The delay line after call `n`, counted from the impulse: only slot 0 sounds. -/
structure Ringing (echo : Nat → Binary64) (n : Nat) (line : DelayLine) : Prop where
  cursor : line.cursor.toNat = (n + 1) % 18000
  slot0 : line.words.load 0 = echo (n / 18000)
  silent : ∀ a, a ≠ 0 → line.words.load a = Const.zero
  wf : line.words.wf = true

section

variable {feedback : Binary64} {echo : Nat → Binary64} {n : Nat} {line : DelayLine} (hE : Echoes feedback echo)
include hE

theorem delayCall_impulse :
    ∃ line', delayCall feedback Const.one { cursor := 0#15, words := [] } = .ok (echoReturned echo 0, line') ∧
      Ringing echo 0 line' := by
  obtain ⟨_, line', hcall, hcursor, hwritten, hother, rfl, -, hwf⟩ :=
    delayCall_called feedback Const.one (line := { cursor := 0#15, words := [] }) rfl (by decide)
  exact ⟨line', hcall, hcursor, hwritten.trans hE.impulse, hother, hwf⟩

theorem delayCall_ringing (hr : Ringing echo n line) :
    ∃ line', delayCall feedback Const.zero line = .ok (echoReturned echo (n + 1), line') ∧
      Ringing echo (n + 1) line' := by
  obtain ⟨hpos, hslot0, hsilent, hwf⟩ := hr
  obtain ⟨_, line', hcall, hcursor, hwritten, hother, rfl, -, hwf'⟩ :=
    delayCall_called feedback Const.zero hwf (by omega)
  refine ⟨line', ?returned, by omega, ?slot0, fun a ha => ?silent, hwf'⟩
  case returned =>
    rw [hcall, echoReturned, show (line.cursor.toNat + 1) % 18000 = (n + 1 + 1) % 18000 by omega]
    split
    · rename_i hback
      rw [hback, hslot0, show (n + 1 + 1) / 18000 - 1 = n / 18000 by omega]
    · rename_i haway
      rw [hsilent _ haway]
  case slot0 =>
    by_cases hzero : line.cursor.toNat = 0
    · rw [hzero, hslot0, hE.fedBack] at hwritten
      rw [hwritten, show (n + 1) / 18000 = n / 18000 + 1 by omega]
    · rw [hother 0 (Ne.symm hzero), hslot0, show (n + 1) / 18000 = n / 18000 by omega]
  case silent =>
    by_cases hat : a = line.cursor.toNat
    · rw [← hat, hsilent a ha, hE.silent] at hwritten
      exact hwritten
    · rw [hother a hat, hsilent a ha]

theorem delayCalls_ringing (k : Nat) (hr : Ringing echo n line) :
    ∃ line', delayCalls feedback (List.replicate k Const.zero) line =
      .ok ((List.range' (n + 1) k).map (echoReturned echo), line') := by
  induction k generalizing n line with
  | zero => exact ⟨line, rfl⟩
  | succ k ih =>
    obtain ⟨line', hcall, hr'⟩ := delayCall_ringing hE hr
    obtain ⟨line'', hcalls⟩ := ih hr'
    exact ⟨line'', by simp only [List.replicate_succ, delayCalls, hcall, hcalls, List.range'_succ, List.map_cons]⟩

/-- The impulse response of any feedback, by its echoes. -/
theorem delayCalls_impulse (k : Nat) :
    ∃ ys line, delayCalls feedback (Const.one :: List.replicate k Const.zero) { cursor := 0#15, words := [] } =
        .ok (ys, line) ∧ ys.length = k + 1 ∧
      ∀ i, i ≤ k → ys[i]? = some (echoReturned echo i) := by
  obtain ⟨line', hcall, hr⟩ := delayCall_impulse hE
  obtain ⟨line'', hcalls⟩ := delayCalls_ringing hE k hr
  refine ⟨(List.range' 0 (k + 1)).map (echoReturned echo), line'', ?_, by simp, fun i hi => ?_⟩
  · simp only [delayCalls, hcall, hcalls, List.range'_succ, List.map_cons]
  · simp [List.getElem?_range' (Nat.lt_succ_of_le hi)]

end

/-! ### The two feedbacks -/

/-- Without feedback the impulse is heard once. -/
def singleEcho (j : Nat) : Binary64 := if j = 0 then Const.one else Const.zero

theorem echoes_zero : Echoes Const.zero singleEcho where
  impulse := by decide +kernel
  fedBack
    | 0 => by decide +kernel
    | _ + 1 => show Const.zero.add (Const.zero.mul Const.zero) = Const.zero by decide +kernel
  silent := by decide +kernel

theorem echoReturned_singleEcho (i : Nat) :
    echoReturned singleEcho i = if i = 17999 then Const.one else Const.zero := by
  unfold echoReturned singleEcho
  rw [← ite_and]
  exact if_congr (by omega) rfl rfl

theorem echoes_half : Echoes Const.half fun j => ofRatio 1 (2 ^ j) where
  impulse := by decide +kernel
  fedBack := zero_add_mul_half
  silent := by decide +kernel

end Machine

open Machine

/-- Settles O25: by induction on the calls only slot 0 ever holds a word other than +0.0, and each feedback has its
echoes. -/
theorem delayImpulseResponse : Obligations.DelayImpulseResponse := by
  refine fun k => ⟨?_, delayCalls_impulse echoes_half k⟩
  obtain ⟨ys, line, hcalls, hlength, hys⟩ := delayCalls_impulse echoes_zero k
  exact ⟨ys, line, hcalls, hlength, fun i hi => by rw [hys i hi, echoReturned_singleEcho]⟩

end Sys2Proof

/-! CERTIFICATE O16. One TICK of a Running block (46_mixer.md R190; 44_voices.md R168). -/

namespace Sys2Proof

namespace Machine

variable {s : State}

/-- TICK of a Running block below the index limit, from what steps 6 and 7 return. -/
theorem exec_tick_of_chordVoice {r : ChordResult} (hl : s.lifecycle = .running) (hw : s.datapathWritten = true)
    (hn : s.sampleCount.toNat < Const.indexLimit)
    (hr : chordVoice Config.numeric (clock s.sampleCount.toNat) (gateAfter s) s = .ok r) :
    let bf := (clock s.sampleCount.toNat).beatFraction
    exec .tick s = .next (emit (mix (kickOut Config.numeric bf (kickAdvance Config.numeric bf s.kickPhase))
      (bassOut Config.numeric bf (bassAdvance s.bassPhase)) r.chordOut) (ticked Config.numeric s r)) :=
  exec_tick_of_produced hl (tickStep_of_chordVoice hw hn hr)

/-- The registers a tick commits, the latch written as one disjunction (44_voices.md R155). -/
theorem ticked_eq_or (F : NumericConfig) (s : State) (r : ChordResult) :
    ticked F s r = { ticked F s r with
      chordGateEngaged := s.chordGateEngaged || (Const.three.lt (clock s.sampleCount.toNat).seconds &&
        (clock s.sampleCount.toNat).beatFraction.ieeeEq Const.zero) } := by
  rw [← gateLatch_eq_or]
  rfl

end Machine

open Machine

/-- Settles O16: the formulas are those of the definitions; the gate and the variant decide what steps 6 and 7 return. -/
theorem tickComputesOneSample : Obligations.TickComputesOneSample := by
  intro s hl hw hc
  refine ⟨fun hn => exec_tick_of_raised hl (tickStep_raised.2 (.inr ⟨hw, hn, rfl⟩)), fun hn => ?_⟩
  refine ⟨fun hg => ?off, fun hg hv => ?basic, fun hg hv => ?withDelay⟩
  case off =>
    replace hg : gateAfter s = false := (gateLatch_eq_or ..).trans hg
    rw [exec_tick_of_chordVoice hl hw hn (by rw [hg]; rfl), ticked_eq_or]
    rfl
  case basic =>
    replace hg : gateAfter s = true := (gateLatch_eq_or ..).trans hg
    rw [exec_tick_of_chordVoice hl hw hn (by rw [hg]; exact chordVoice_basic hv), ticked_eq_or]
    rfl
  case withDelay =>
    replace hg : gateAfter s = true := (gateLatch_eq_or ..).trans hg
    obtain ⟨returned, line, hcall⟩ := delay_completes (line := ⟨s.delayWriteIndex, s.dly⟩) (dryChordOf Config.numeric
      (clock s.sampleCount.toNat) s.pat (chordPartials (chordFreq s.variant (clock s.sampleCount.toNat).barMod4)
        s.chordPhase)) hc
    refine ⟨returned, line, hcall, ?_⟩
    rw [exec_tick_of_chordVoice hl hw hn (by rw [hg]; exact chordVoice_withDelay hv hcall), ticked_eq_or]
    rfl

end Sys2Proof

/-! CERTIFICATE O45. Samples and delay words are finite and bounded (46_mixer.md R193, R195; 45_delay.md R186). -/

namespace Sys2Proof

/-! ### Bounds on magnitudes, in units of 2^-10 -/

namespace Binary64

variable {x y : Binary64} {m n p : Nat}

/-- A finite datum of magnitude at most `m` units of 2^-10. Such bounds are representable, so rounding does not pass them,
and fine enough for the sum of R193 to stay below 4.5. -/
def Within (x : Binary64) (m : Nat) : Prop := x.isFinite = true ∧ |x.value| ≤ m / 1024

theorem Within.mono (h : x.Within m) (hmn : m ≤ n) : x.Within n := by
  obtain ⟨hf, hm⟩ := h
  exact ⟨hf, hm.trans (by gcongr)⟩

theorem within_of_roundedOnce {q : ℚ} (h : RoundedOnce q x) (hq : |q| ≤ m / 1024) (hm : m ≤ 2 ^ 53) : x.Within m := by
  have hrep : Representable (m / 1024) := representable_dyadic (n := m) (k := 10) (by norm_num) (by omega) (by omega)
  obtain ⟨hf, hx⟩ := h.mem_Icc (representable_signed true hrep) hrep (abs_le.1 hq)
  exact ⟨hf, abs_le.2 hx⟩

theorem within_ofRatio {a b : Nat} (hb : 0 < b) (h : a * 1024 ≤ m * b) (hm : m ≤ 2 ^ 53) : (ofRatio a b).Within m := by
  refine within_of_roundedOnce (roundedOnce_ofRatio a hb) ?_ hm
  rw [abs_of_nonneg (by positivity), div_le_div_iff₀ (Nat.cast_pos.2 hb) (by norm_num)]
  exact_mod_cast h

theorem within_ofNat (hn : n * 1024 ≤ 2 ^ 53) : (ofNat n).Within (n * 1024) := by
  obtain ⟨hf, hv⟩ := ofNat_exact (n := n) (by omega)
  exact ⟨hf, by rw [hv, Nat.abs_cast]; push_cast; linarith⟩

theorem Within.add (hx : x.Within m) (hy : y.Within n) (hmn : m + n ≤ 2 ^ 53) : (x.add y).Within (m + n) := by
  obtain ⟨hxf, hxm⟩ := hx
  obtain ⟨hyf, hyn⟩ := hy
  refine within_of_roundedOnce (roundedOnce_add hxf hyf) ((abs_add_le _ _).trans ?_) hmn
  rw [Nat.cast_add, add_div]
  exact add_le_add hxm hyn

theorem Within.mul (hx : x.Within m) (hy : y.Within n) (hmn : m * n ≤ p * 1024) (hp : p ≤ 2 ^ 53) :
    (x.mul y).Within p := by
  obtain ⟨hxf, hxm⟩ := hx
  obtain ⟨hyf, hyn⟩ := hy
  refine within_of_roundedOnce (roundedOnce_mul hxf hyf) ?_ hp
  have hmn : (m : ℚ) * n ≤ p * 1024 := by exact_mod_cast hmn
  calc |x.value * y.value| = |x.value| * |y.value| := abs_mul _ _
    _ ≤ m / 1024 * (n / 1024) := mul_le_mul hxm hyn (abs_nonneg _) (by positivity)
    _ ≤ p / 1024 := by linarith

/-- What a number between 0 and a bound leaves of the bound. -/
theorem within_sub_of_le (hx : x.Within m) (hy : y.isFinite = true) (h0 : 0 ≤ y.value) (hyx : y.value ≤ x.value)
    (hm : m ≤ 2 ^ 53) : (x.sub y).Within m := by
  obtain ⟨hxf, hxm⟩ := hx
  refine within_of_roundedOnce (roundedOnce_sub hxf hy) ?_ hm
  rw [abs_of_nonneg (sub_nonneg.2 hyx)]
  linarith [le_abs_self x.value]

theorem within_of_atMost (h : x.AtMost n) : x.Within (n * 1024) := by
  obtain ⟨hf, h0, hn⟩ := h
  exact ⟨hf, by rw [abs_of_nonneg h0]; push_cast; linarith⟩

theorem within_of_inUnit (h : x.inUnit = true) : x.Within 1024 := by
  obtain ⟨hf, h0, h1⟩ := inUnit_iff.1 h
  exact within_of_atMost (n := 1) ⟨hf, h0, by exact_mod_cast h1.le⟩

theorem within_of_absLe_one (h : x.absLe Machine.Const.one = true) : x.Within 1024 := by
  obtain ⟨hf, h1⟩ := absLe_iff.1 h
  exact ⟨hf, h1.trans (by rw [Machine.Const.one_exact.2]; norm_num)⟩

theorem absLe_outputBound_iff : x.absLe Machine.outputBound = true ↔ x.Within 4608 := by
  obtain ⟨-, hv⟩ := ofRatio_exact (a := 9) (b := 2) (m := 9) (k := 1) (by omega) (by omega) (by omega) (by omega)
  rw [absLe_iff, Within, Machine.outputBound, hv]
  norm_num

end Binary64

namespace Machine

open Binary64

variable {F : NumericConfig} {s t : State} {v x y bf phase : Binary64}

/-! ### The constants -/

theorem Const.kickAmp_within : Const.kickAmp.Within 154 := within_ofRatio (by omega) (by omega) (by omega)

theorem Const.pointTwo_within : Const.pointTwo.Within 205 := within_ofRatio (by omega) (by omega) (by omega)

theorem Const.chordEnvAmp_within : Const.chordEnvAmp.Within 103 := within_ofRatio (by omega) (by omega) (by omega)

theorem Const.delayWet_within : Const.delayWet.Within 410 := within_ofRatio (by omega) (by omega) (by omega)

theorem Const.half_within : Const.half.Within 512 := within_ofRatio (by omega) (by omega) (by omega)

theorem Const.zero_within : Const.zero.Within 0 :=
  ⟨rfl, by rw [Const.zero, value_zero]; norm_num⟩

theorem Const.twoPi_within : Const.twoPi.Within 6434 :=
  (within_ofNat (n := 2) (by omega)).mul (within_ofRatio (m := 3217) (by omega) (by omega) (by omega)) (by omega)
    (by omega)

/-- The biases of SAW6F, which add up to about 1.44 (44_voices.md R164). -/
theorem Const.sawBias_within : List.Forall₂ Within Const.sawBias [0, 512, 338, 256, 205, 164] := by
  have decimal {a m : Nat} (h : a * 1024 ≤ m * 100) (hm : m ≤ 2 ^ 53) := within_ofRatio (b := 100) (by omega) h hm
  exact .cons Const.zero_within <| .cons Const.half_within <| .cons (decimal (by omega) (by omega)) <|
    .cons (decimal (by omega) (by omega)) <| .cons Const.pointTwo_within <|
    .cons (decimal (by omega) (by omega)) .nil

/-! ### The voices -/

/-- An envelope stays within its amplitude, at every exponent the block uses. -/
theorem env_within {A E : Binary64} {m : Nat} (hP : PowUnit F) (hA : A.Within m) (hm : m ≤ 2 ^ 53)
    (hE : Const.zero.lt E = true) (ht : bf.inUnit = true) : (env F bf A E).Within m :=
  hA.mul (within_of_atMost (pow_one_sub_atMost hP hE ht)) (by omega) hm

theorem Const.zero_lt_three : Const.zero.lt Const.three = true := Const.zero_lt_ofNat (by omega) (by omega)

theorem Const.zero_lt_half : Const.zero.lt Const.half = true := by
  obtain ⟨hf, hv⟩ := Const.half_exact
  rw [lt_iff_value_lt rfl hf, Const.zero, value_zero, hv]
  norm_num

/-- `|kick| ≤ 0.15`, up to rounding. -/
theorem kickOut_within (hS : SinBounded F) (hP : PowUnit F) (hbf : bf.inUnit = true) (hp : phase.inUnit = true) :
    (kickOut F bf phase).Within 154 :=
  (within_of_absLe_one (hS _ (angle_isFinite hp))).mul
    (env_within hP Const.kickAmp_within (by omega) Const.zero_lt_three hbf) (by omega) (by omega)

/-- The bass gain is what its envelope leaves of 0.2. -/
theorem bassGain_within (hP : PowUnit F) (hbf : bf.inUnit = true) : (bassGain F bf).Within 205 := by
  obtain ⟨-, h0, -⟩ := atMost_of_roundedOnce (n := 1) (roundedOnce_ofRatio 2 (b := 10) (by omega))
    (by norm_num) (by norm_num) (by omega)
  obtain ⟨hf, he0, heA⟩ := env_mem hP Const.pointTwo_isFinite (value_nonneg_iff.1 h0) Const.zero_lt_half hbf
  exact within_sub_of_le Const.pointTwo_within hf (value_nonneg_iff.2 he0) (value_le_value_iff.2 heA) (by omega)

/-- `|bass| ≤ 0.2`, up to rounding. -/
theorem bassOut_within (hS : SinBounded F) (hT : TanhBounded F) (hP : PowUnit F) (hbf : bf.inUnit = true)
    (hp : phase.inUnit = true) : (bassOut F bf phase).Within 205 := by
  have hsin := within_of_absLe_one (hS _ (angle_isFinite hp))
  obtain ⟨hdrive, -⟩ := hsin.mul (within_of_atMost Const.oneAndHalf_atMost) (p := 2048) (by omega) (by omega)
  exact (within_of_absLe_one (hT _ hdrive)).mul (bassGain_within hP hbf) (by omega) (by omega)

/-- Each harmonic adds at most 1 and its bias. -/
theorem saw6fFrom_within {k m : Nat} {biases : List Binary64} {bounds : List Nat} (hS : SinBounded F)
    (hx : x.Within 8192) (hb : List.Forall₂ Within biases bounds) (hk : k + biases.length ≤ 2 ^ 20)
    (hm : m + 1024 * biases.length + bounds.sum ≤ 2 ^ 53) (hs : v.Within m) :
    (saw6fFrom F x k biases v).Within (m + 1024 * biases.length + bounds.sum) := by
  induction hb generalizing k m v with
  | nil => exact hs
  | @cons bias bound biases bounds hbias _ ih =>
    have hsum : (bound :: bounds).sum = bound + bounds.sum := List.sum_cons
    rw [List.length_cons] at hk hm ⊢
    rw [hsum] at hm ⊢
    obtain ⟨harg, -⟩ := (within_ofNat (n := k) (by omega)).mul hx (p := k * 8192) (by omega) (by omega)
    have hsin := hs.add (within_of_absLe_one (hS _ harg)) (by omega)
    have hharmonic := hsin.add hbias (by lia)
    exact (ih (by omega) (by omega) hharmonic).mono (by omega)

/-- `|SAW6F| ≤ 7.44`, up to rounding. -/
theorem saw6f_within (hS : SinBounded F) (hp : phase.inUnit = true) : (saw6f F (angle phase)).Within 7619 := by
  have hangle : (angle phase).Within 8192 := (within_of_inUnit hp).mul Const.twoPi_within (p := 8192) (by omega) (by omega)
  have hlength : Const.sawBias.length = 6 := rfl
  have hsum : [0, 512, 338, 256, 205, 164].sum = 1475 := rfl
  have h := saw6fFrom_within (k := 1) hS hangle Const.sawBias_within (by omega) (by omega) Const.zero_within
  rwa [hlength, hsum] at h

/-- The step gate is 0 or 1. -/
theorem stepGate_within (pat : Vector Bool 16) (i : Fin 16) : (stepGate pat i).Within 1024 := by
  unfold stepGate
  split
  · exact within_ofNat (n := 1) (by omega)
  · exact Const.zero_within.mono (by omega)

/-- `|dry| ≤ 2.232`, up to rounding. -/
theorem dryChordOf_within {T : MusicalTime} {pat : Vector Bool 16} {phases : Vector Binary64 3} (hS : SinBounded F)
    (hP : PowUnit F) (hsf : T.sixteenthFraction.inUnit = true) (h0 : phases[0].inUnit = true)
    (h1 : phases[1].inUnit = true) (h2 : phases[2].inUnit = true) : (dryChordOf F T pat phases).Within 2300 := by
  have htimbre : (chordTimbre F phases).Within (7619 + 7619 + 7619) :=
    ((saw6f_within hS h0).add (saw6f_within hS h1) (by omega)).add (saw6f_within hS h2) (by omega)
  have henv := env_within hP Const.chordEnvAmp_within (by omega) Const.zero_lt_three hsf
  exact (htimbre.mul henv (p := 2300) (by omega) (by omega)).mul (stepGate_within pat T.step) (by omega) (by omega)

/-! ### The delay line -/

/-- A call keeps the words within 4.5 where the input is within the half of it that the feedback leaves
(45_delay.md R186). -/
theorem delay_within {line line' : DelayLine} (hw : line.words.wf = true)
    (hline : ∀ a, (line.words.load a).Within 4608) (hx : x.Within 2300) (h : delay x line = .ok (y, line')) :
    y.Within 4608 ∧ ∀ a, (line'.words.load a).Within 4608 := by
  obtain ⟨-, rfl, rfl⟩ := delayCall_eq_ok.1 h
  have hstored : (x.add ((line.words.load line.cursor.toNat).mul Const.delayFeedback)).Within 4608 :=
    (hx.add ((hline _).mul Const.half_within (p := 2304) (by omega) (by omega)) (by omega)).mono (by omega)
  have hwords (a : Nat) : ((line.words.store line.cursor.toNat
      (x.add ((line.words.load line.cursor.toNat).mul Const.delayFeedback))).load a).Within 4608 := by
    by_cases ha : a = line.cursor.toNat
    · rw [ha, load_store_same hw]
      exact hstored
    · rw [load_store_other ha]
      exact hline a
  exact ⟨hwords _, hwords⟩

/-- The chord with its wet tap is within `|dry| + 0.4 · 4.5`, and the delay line keeps its bound. -/
theorem chordVoice_within {T : MusicalTime} {engaged : Bool} {r : ChordResult} (hS : SinBounded F) (hP : PowUnit F)
    (hsf : T.sixteenthFraction.inUnit = true) (hw : s.dly.wf = true) (hd : ∀ a, (s.dly.load a).Within 4608)
    (h0 : r.chordPhase[0].inUnit = true) (h1 : r.chordPhase[1].inUnit = true) (h2 : r.chordPhase[2].inUnit = true)
    (h : chordVoice F T engaged s = .ok r) :
    (∀ c, r.chordOut = some c → c.Within 4145) ∧ ∀ a, (r.line.words.load a).Within 4608 := by
  have hdry := dryChordOf_within (pat := s.pat) hS hP hsf h0 h1 h2
  cases engaged with
  | false =>
    rw [chordVoice_off h]
    exact ⟨nofun, hd⟩
  | true =>
    obtain ⟨-, ⟨-, hline, hout⟩ | ⟨-, y, hcall, hout⟩⟩ := chordVoice_on h
    · rw [hline, hout]
      refine ⟨?_, hd⟩
      rintro _ ⟨⟩
      exact hdry.mono (by omega)
    · obtain ⟨hy, hwords⟩ := delay_within (line := ⟨s.delayWriteIndex, s.dly⟩) hw hd hdry hcall
      have hwet := hy.mul Const.delayWet_within (p := 1845) (by omega) (by omega)
      have hsum := hdry.add hwet (by omega)
      rw [hout]
      refine ⟨?_, hwords⟩
      rintro _ ⟨⟩
      exact hsum

/-! ### The sum -/

theorem mix_within {kick bass : Binary64} {chordOut : Option Binary64} (hk : kick.Within 154) (hb : bass.Within 205)
    (hc : ∀ c, chordOut = some c → c.Within 4145) : (mix kick bass chordOut).Within 4608 := by
  have hsum := hk.add hb (by omega)
  cases chordOut with
  | none => exact hsum.mono (by omega)
  | some c => exact (hsum.add (hc c rfl) (by omega)).mono (by omega)

end Machine

open Machine

/-- Settles O45: each term of the sum is within its part of R193, and a delay word, at most the dry chord and half an
older word, is within 4.5 again. -/
theorem outputIsBounded : Obligations.OutputIsBounded := by
  intro F s t v hS hT hP hs hphases hkick hd h
  have hkick' := tickStep_keeps_kickPhase_inUnit hP hkick h
  obtain ⟨hbass', h0, h1, h2⟩ := phasesInUnit_tick hphases h
  obtain ⟨hw, hn, r, hr, -⟩ := tickStep_produced h
  obtain ⟨-, -, -, -, -, -, hbf, hsf⟩ := clockGridIsExact s.sampleCount.toNat hn
  rw [tickStep_of_chordVoice hw hn hr] at h
  cases h
  obtain ⟨hchord, hwords⟩ := chordVoice_within hS hP hsf hs.dlyCanonical
    (fun a => Binary64.absLe_outputBound_iff.1 (hd a)) h0 h1 h2 hr
  exact ⟨Binary64.absLe_outputBound_iff.2
      (mix_within (kickOut_within hS hP hbf hkick') (bassOut_within hS hT hP hbf hbass') hchord),
    fun a => Binary64.absLe_outputBound_iff.2 (hwords a)⟩

end Sys2Proof

/-! CERTIFICATES O7, O8, O9 and O40. A step with nothing presented (60_exceptions.md R215), and power-on reset
(70_reset_and_hazards.md R230). -/

namespace Sys2Proof

namespace Machine

variable {s : State} {rest : List HostMove}

/-- With nothing presented the block is idle (60_exceptions.md R215). -/
theorem step_of_idle (hq : s.hostIn = []) : step s = .next s := by
  rw [step, takeMove, hq]

/-- The block takes the `rst` move (70_reset_and_hazards.md R230, R239). -/
theorem step_of_rst (hq : s.hostIn = .rst :: rest) : step s = .next (powerOnReset { s with hostIn := rest }) := by
  rw [step, takeMove, hq]

/-- Unconstructed, `VARIANT` 0 and no fault are the status word 0 (10_state.md R33). -/
theorem powerOnReset_statusWord (s : State) : (powerOnReset s).statusWord = 0#32 :=
  (by decide : State.reset.statusWord = 0#32)

/-- After reset a tick meets a datapath without values (10_state.md R20; log 4). -/
theorem tickStep_powerOnReset (F : NumericConfig) (s : State) :
    tickStep F (powerOnReset s) = .raised .notConstructed :=
  tickStep_raised.2 (.inl ⟨rfl, rfl⟩)

/-- Every clause speaks of an empty stream, an index of 0 or a lifecycle that reset does not leave. -/
theorem wf_reset : State.reset.Wf where
  dlyCanonical := reset_dly_wf
  cursorInRange := (by decide : (0#15).toNat < Const.delayLen)
  countInRange := Nat.zero_le _
  patFixed := rfl
  runningWritten := nofun
  unconstructedUnwritten _ := rfl
  faultedCode := by decide
  countsSamples := nofun
  nothingBeforeInit _ := ⟨rfl, rfl, rfl⟩
  contIsOne := nofun

theorem phasesInUnit_reset : State.reset.PhasesInUnit := ⟨zero_inUnit, zero_inUnit, zero_inUnit, zero_inUnit⟩

/-- Every word of `DLY` reads +0.0. -/
theorem dlyBounded_reset : State.reset.DlyBounded := fun _ =>
  Binary64.absLe_outputBound_iff.2 (Const.zero_within.mono (Nat.zero_le _))

end Machine

open Machine

/-- Settles O7: there is no move to take. -/
theorem idleBlockKeepsItsState : Obligations.IdleBlockKeepsItsState := fun _ => step_of_idle

/-- Settles O8: the reset state field by field, and the pattern at its 16 steps. -/
theorem resetStateIsUnconstructed : Obligations.ResetStateIsUnconstructed :=
  ⟨rfl, rfl, rfl, powerOnReset_statusWord State.reset, rfl, by decide, rfl, rfl, rfl⟩

/-- Settles O9: an Unconstructed block without a datapath, whatever the state before. -/
theorem powerOnResetFromAnyState : Obligations.PowerOnResetFromAnyState := by
  intro s rest hq
  exact ⟨powerOnReset { s with hostIn := rest }, step_of_rst hq, rfl, rfl, rfl, powerOnReset_statusWord _,
    fun F => tickStep_powerOnReset F _, rfl, rfl, exec_tick_of_unconstructed rfl,
    fun n => exec_fill_of_unconstructed n rfl, fun v => exec_init_of_supported v rfl⟩

/-- Settles O40; reset leaves the reset state as it is, so the grid holds of it as after any reset. -/
theorem resetMeetsTheInvariants : Obligations.ResetMeetsTheInvariants :=
  ⟨wf_reset, onGrid_powerOnReset State.reset, phasesInUnit_reset, dlyBounded_reset⟩

end Sys2Proof

/-! CERTIFICATES O11 and O13. The order of the fault checks (60_exceptions.md R205) and the way out of Faulted
(R206). -/

namespace Sys2Proof

namespace Machine

variable {F : NumericConfig} {s : State} {w : Word} {rest : List HostMove}

/-- A block that is not Faulted answers a word that is no command with IllegalCommand (30_encoding.md R76). -/
theorem step_of_illegal {e : IllegalWord} (hq : s.hostIn = .command w :: rest) (hd : decode w = .error e)
    (hl : s.lifecycle ≠ .faulted) : step s = .next (raiseFault .illegalCommand { s with hostIn := rest }) := by
  rw [step_of_decode_error hq hd, takeIllegalWord_of_not_faulted (s := { s with hostIn := rest }) hl]

/-- A tick of a constructed block past the index limit (10_state.md R22). -/
theorem tickStep_counterRange (hw : s.datapathWritten = true) (hn : 2 ^ 53 ≤ s.sampleCount.toNat) :
    tickStep F s = .raised .counterRange :=
  tickStep_raised.2 (.inr ⟨hw, hn, rfl⟩)

end Machine

open Machine

/-- Settles O11, by the kinds of step: a Faulted block is idle, ignores a word, or is reset. -/
theorem onlyResetLeavesFaulted : Obligations.OnlyResetLeavesFaulted := by
  intro s t hl h
  cases stepped_of_step h with
  | idle | ignored => exact .inl ⟨hl, rfl⟩
  | reset hq => exact .inr ⟨by rw [hq]; rfl, rfl, rfl⟩
  | refused _ hne => exact absurd hl hne
  | constructed _ _ hl' => exact nomatch hl.symm.trans hl'
  | ran _ _ hl' => exact nomatch hl.symm.trans hl'

/-- Settles O13, an equation of the step for each condition. -/
theorem faultChecksInOrder : Obligations.FaultChecksInOrder := by
  intro s w rest hq raised
  refine ⟨fun hl => faultedBlockIgnoresCommands s w rest hl hq, fun hl ⟨e, hd⟩ => step_of_illegal hq hd hl,
    fun v sr hd hl => ?alreadyConstructed, fun v sr hd hl hsr => ?unsupportedSampleRate,
    fun hd hl => ?tickNotConstructed, fun n hd hl => ?fillNotConstructed,
    fun hl hw hn => ⟨fun hd => ?tickCounterRange, fun n hd => ?fillCounterRange⟩⟩
  all_goals refine (step_of_decode_ok hq hd).trans ?_
  case alreadyConstructed => exact exec_init_of_running v sr hl
  case unsupportedSampleRate => exact exec_init_of_unsupported v hl hsr
  case tickNotConstructed => exact exec_tick_of_unconstructed hl
  case fillNotConstructed => exact exec_fill_of_unconstructed n hl
  case tickCounterRange => exact exec_tick_of_raised hl (tickStep_counterRange hw hn)
  case fillCounterRange =>
    exact (exec_fill_of_running (s := { s with hostIn := rest }) _ hl).trans
      (fillTicks_of_raised (tickStep_counterRange hw hn))

end Sys2Proof

/-! CERTIFICATES O14 and O22. What a fault commits (60_exceptions.md R203), and the ticks of a FILL before it (R204). -/

namespace Sys2Proof

namespace Machine

variable {F : NumericConfig} {s t u : State} {n : Nat} {c d : FaultCode}

open Relation (ReflTransGen)

/-- Fault entry in the form the statements write it. -/
theorem raiseFault_eq (h : c = d) : raiseFault c s = { s with faultCode := d, lifecycle := .faulted } := by
  rw [h, raiseFault]

/-- Fault entry after the ticks that a shorter FILL commits: its report of `CONT` is not made. -/
theorem raiseFault_eq_of_reportCont (h : u.contOut = s.contOut) :
    raiseFault c u = { reportCont u with contOut := s.contOut, faultCode := c, lifecycle := .faulted } := by
  rw [← h]
  rfl

theorem reportCont_injective : Function.Injective reportCont := by
  rintro ⟨⟩ ⟨⟩ h
  simpa [reportCont] using h

/-- A FILL goes on from where a shorter one reports `CONT`. -/
theorem fillTicks_add_of_reportCont {a : Nat} (h : fillTicks F a s = .next (reportCont u))
    (hl : u.lifecycle = .running) (b : Nat) : fillTicks F (a + b) s = fillTicks F b u := by
  obtain ⟨u', hu, hadd⟩ := fillTicks_add h hl
  rw [hadd, reportCont_injective hu]

/-- The ticks of a FILL that faults: those that a shorter FILL makes, and then the one that raises the fault. -/
theorem fillTicks_faulted (hl : s.lifecycle = .running) (h : fillTicks Config.numeric n s = .next t)
    (ht : t.lifecycle = .faulted) :
    ∃ j u c, j < n ∧ fillTicks Config.numeric j s = .next (reportCont u) ∧ ReflTransGen TicksTo s u ∧
      tickStep Config.numeric u = .raised c ∧ t = raiseFault c u := by
  induction n generalizing s with
  | zero =>
    cases h
    exact nomatch ht.symm.trans hl
  | succ n ih =>
    cases htick : tickStep Config.numeric s with
    | produced v w =>
      rw [fillTicks_of_produced htick] at h
      obtain ⟨hlife, -⟩ := tickStep_frame htick
      obtain ⟨j, u, c, hj, hfill, hticks, hraised⟩ := ih (s := emit v w) (hlife.trans hl) h
      exact ⟨j + 1, u, c, Nat.succ_lt_succ hj, (fillTicks_of_produced htick).trans hfill,
        .head ⟨v, w, htick, rfl⟩ hticks, hraised⟩
    | raised c =>
      rw [fillTicks_of_raised htick] at h
      cases h
      exact ⟨0, s, c, n.succ_pos, rfl, .refl, htick, rfl⟩
    | stopped f =>
      rw [fillTicks_of_stopped htick] at h
      cases h

/-- Where the datapath holds no value the first tick raises the fault. -/
theorem fillTicks_faulted_of_unwritten (hl : s.lifecycle = .running) (hw : s.datapathWritten = false)
    (h : fillTicks F n s = .next t) (ht : t.lifecycle = .faulted) : t = raiseFault .notConstructed s := by
  cases n with
  | zero =>
    cases h
    exact nomatch ht.symm.trans hl
  | succ n =>
    rw [fillTicks_of_raised (tickStep_raised.2 (.inl ⟨hw, rfl⟩))] at h
    cases h
    rfl

/-- The fault of a tick by whether the datapath holds a value (10_state.md R20, R22). -/
theorem eq_ite_of_raised (h : tickStep F s = .raised c) :
    c = if s.datapathWritten then .counterRange else .notConstructed := by
  obtain ⟨hw, hc⟩ | ⟨hw, -, hc⟩ := tickStep_raised.1 h <;> simp [hw, hc]

/-- The only fault of a tick of a constructed block (10_state.md R22). -/
theorem eq_counterRange_of_raised (hw : s.datapathWritten = true) (h : tickStep F s = .raised c) :
    c = .counterRange := by
  rw [eq_ite_of_raised h, if_pos hw]

/-- A FILL of a constructed block that faults has made the ticks of a shorter FILL, which adds only its report of
`CONT`. -/
theorem fill_faulted_of_written (hl : s.lifecycle = .running) (hw : s.datapathWritten = true)
    (h : fillTicks Config.numeric n s = .next t) (ht : t.lifecycle = .faulted) :
    ∃ j u, j < n ∧ exec (.fill j) s = .next u ∧ u.lifecycle = .running ∧
      t = { u with contOut := s.contOut, faultCode := .counterRange, lifecycle := .faulted } := by
  obtain ⟨j, u, c, hj, hfill, hticks, hraised, rfl⟩ := fillTicks_faulted hl h ht
  obtain ⟨hlife, -, -, hwrit⟩ := ticks_frame hticks
  obtain ⟨-, -, hcont⟩ := ticks_keep_ports hticks
  obtain rfl := eq_counterRange_of_raised (hwrit.trans hw) hraised
  exact ⟨j, reportCont u, hj, (exec_fill_of_running j hl).trans hfill, hlife.trans hl,
    raiseFault_eq_of_reportCont hcont⟩

/-- A TICK of a Running block that faults does so in its tick. -/
theorem exec_tick_faulted (hl : s.lifecycle = .running) (h : exec .tick s = .next t) (ht : t.lifecycle = .faulted) :
    ∃ c, tickStep Config.numeric s = .raised c ∧ t = raiseFault c s := by
  obtain ⟨hl', -⟩ | ⟨hl', -⟩ | ⟨-, hraised⟩ | ⟨-, v, u, htick, rfl⟩ := tickWith_cases h
  · exact nomatch hl.symm.trans hl'
  · exact nomatch hl.symm.trans hl'
  · exact hraised
  · obtain ⟨hlife, -⟩ := tickStep_frame htick
    exact nomatch ht.symm.trans (hlife.trans hl)

end Machine

open Machine

/-- Settles O14, by the command and the lifecycle; a FILL may have made ticks before the one that faults. -/
theorem faultEntryWritesTwoRegisters : Obligations.FaultEntryWritesTwoRegisters := by
  refine ⟨fun s t i hs ht h => ?command, fun s t w rest e hs hq hd h => ?illegal⟩
  case illegal => exact (Host.Outcome.next.inj ((step_of_illegal hq hd hs).symm.trans h)).symm
  case command =>
    cases i with
    | init v sr =>
      obtain ⟨hl, -⟩ | ⟨hl, rfl⟩ | ⟨-, -, rfl⟩ | ⟨hl, -, rfl⟩ := execInit_cases h
      · exact absurd hl hs
      · exact .inl (raiseFault_eq (by rw [hl]))
      · cases ht
      · exact .inl (raiseFault_eq (by rw [hl]))
    | tick =>
      cases hl : s.lifecycle with
      | faulted => exact absurd hl hs
      | unconstructed =>
        rw [exec_tick_of_unconstructed hl] at h
        cases h
        exact .inl (raiseFault_eq rfl)
      | running =>
        obtain ⟨c, hraised, rfl⟩ := exec_tick_faulted hl h ht
        exact .inl (raiseFault_eq (eq_ite_of_raised hraised))
    | fill n =>
      obtain ⟨hl, -⟩ | ⟨hl, rfl⟩ | ⟨hl, hfill⟩ := fillWith_cases h
      · exact absurd hl hs
      · exact .inl (raiseFault_eq (by rw [hl]))
      · obtain hw | hw := Bool.eq_false_or_eq_true s.datapathWritten
        · obtain ⟨j, u, hj, hticks⟩ := fill_faulted_of_written hl hw hfill ht
          exact .inr ⟨n, j, u, rfl, hj, hticks⟩
        · obtain rfl := fillTicks_faulted_of_unwritten hl hw hfill ht
          exact .inl (raiseFault_eq (by simp [hl, hw]))

/-- Settles O22: within the limit the ticks complete, and the tick that meets it raises CounterRange. -/
theorem faultsArePrecise : Obligations.FaultsArePrecise := by
  refine fun s hl hw hc => ⟨fun t h ht => ?tick, fun n j hj hlimit => ?fill⟩
  case tick =>
    obtain ⟨c, hraised, rfl⟩ := exec_tick_faulted hl h ht
    exact raiseFault_eq (eq_counterRange_of_raised hw hraised)
  case fill =>
    obtain ⟨u, hfill, hticks, hcount⟩ := fillTicks_completes hw hc hlimit.le
    obtain ⟨hlife, -, -, hwrit⟩ := ticks_frame hticks
    obtain ⟨-, -, hcont⟩ := ticks_keep_ports hticks
    obtain ⟨xs, hout, hlen⟩ := ticks_emit hticks
    have hraised : tickStep Config.numeric u = .raised .counterRange :=
      tickStep_counterRange (hwrit.trans hw) (hlimit.symm.trans hcount.symm).le
    obtain ⟨k, rfl⟩ := Nat.exists_eq_add_of_lt hj
    refine ⟨reportCont u, (exec_fill_of_running j hl).trans hfill, hlife.trans hl, hcount.trans hlimit, ?_, ?_⟩
    · rw [reportCont_sampleOut, hout, List.length_append]
      omega
    · rw [exec_fill_of_running _ hl, Nat.add_assoc, fillTicks_add_of_reportCont hfill (hlife.trans hl),
        fillTicks_of_raised hraised, raiseFault_eq_of_reportCont hcont]

end Sys2Proof

/-! CERTIFICATE O42. A well-formed state does not meet the model's stop (60_exceptions.md R202; 20_memory.md R51). -/

namespace Sys2Proof

namespace Machine

variable {F : NumericConfig} {s : State}

/-- With the cursor in range a tick raises a fault of the block or produces a sample, and leaves the cursor in range. -/
theorem tickStep_of_cursor (hc : s.delayWriteIndex.toNat < Const.delayLen) :
    (∃ c, tickStep F s = .raised c) ∨
      ∃ v t, tickStep F s = .produced v t ∧ t.delayWriteIndex.toNat < Const.delayLen := by
  cases hw : s.datapathWritten with
  | false => exact .inl ⟨_, tickStep_raised.2 (.inl ⟨hw, rfl⟩)⟩
  | true =>
    rcases le_or_gt Const.indexLimit s.sampleCount.toNat with hn | hn
    · exact .inl ⟨_, tickStep_counterRange hw hn⟩
    · exact .inr (tickStep_completes hw hn hc)

theorem fillTicks_answers {n : Nat} (hc : s.delayWriteIndex.toNat < Const.delayLen) :
    ∃ t, fillTicks F n s = .next t := by
  induction n generalizing s with
  | zero => exact ⟨_, rfl⟩
  | succ n ih =>
    obtain ⟨c, hraised⟩ | ⟨v, t, htick, hcursor⟩ := tickStep_of_cursor (F := F) hc
    · exact ⟨_, fillTicks_of_raised hraised⟩
    · rw [fillTicks_of_produced htick]
      exact ih (s := emit v t) hcursor

/-- INIT has a next state for every operand (40_commands.md R100). -/
theorem exec_init_answers (v : Variant) (sr : Nat) (s : State) : ∃ t, exec (.init v sr) s = .next t := by
  cases hl : s.lifecycle with
  | faulted => exact ⟨_, exec_init_of_faulted v sr hl⟩
  | running => exact ⟨_, exec_init_of_running v sr hl⟩
  | unconstructed =>
    by_cases hsr : sr = 48000
    · subst hsr
      exact ⟨_, exec_init_of_supported v hl⟩
    · exact ⟨_, exec_init_of_unsupported v hl hsr⟩

theorem exec_tick_answers (hc : s.delayWriteIndex.toNat < Const.delayLen) : ∃ t, exec .tick s = .next t := by
  cases hl : s.lifecycle with
  | faulted => exact ⟨_, exec_tick_of_faulted hl⟩
  | unconstructed => exact ⟨_, exec_tick_of_unconstructed hl⟩
  | running =>
    obtain ⟨c, hraised⟩ | ⟨v, t, htick, -⟩ := tickStep_of_cursor (F := Config.numeric) hc
    · exact ⟨_, exec_tick_of_raised hl hraised⟩
    · exact ⟨_, exec_tick_of_produced hl htick⟩

theorem exec_fill_answers (n : Nat) (hc : s.delayWriteIndex.toNat < Const.delayLen) :
    ∃ t, exec (.fill n) s = .next t := by
  cases hl : s.lifecycle with
  | faulted => exact ⟨_, exec_fill_of_faulted n hl⟩
  | unconstructed => exact ⟨_, exec_fill_of_unconstructed n hl⟩
  | running =>
    rw [exec_fill_of_running n hl]
    exact fillTicks_answers hc

/-- With the cursor in range every command has a next state. -/
theorem exec_answers (i : Instr) (hc : s.delayWriteIndex.toNat < Const.delayLen) : ∃ t, exec i s = .next t := by
  cases i with
  | init v sr => exact exec_init_answers v sr s
  | tick => exact exec_tick_answers hc
  | fill n => exact exec_fill_answers n hc

end Machine

open Machine

/-- Settles O42, by the move the host presents: only a cursor out of range stops a command. -/
theorem wellFormedStateAlwaysSteps : Obligations.WellFormedStateAlwaysSteps := by
  intro s hs
  cases hq : s.hostIn with
  | nil => exact ⟨s, step_of_idle hq⟩
  | cons move rest =>
    cases move with
    | rst => exact ⟨_, step_of_rst hq⟩
    | command w =>
      cases hd : decode w with
      | error e => exact ⟨_, step_of_decode_error hq hd⟩
      | ok i =>
        rw [step_of_decode_ok hq hd]
        exact exec_answers i hs.cursorInRange

end Sys2Proof

/-! CERTIFICATE O47. The sample stream only grows, with the index (70_reset_and_hazards.md R235). -/

namespace Sys2Proof

open Machine

/-- Settles O47, by the kinds of step: only ticks emit, one sample an index, and only a constructed block ticks. -/
theorem samplesAreOnlyAppended : Obligations.SamplesAreOnlyAppended := by
  intro s t hs hrst h
  cases stepped_of_step h with
  | idle | ignored | refused =>
    exact ⟨[], (List.append_nil _).symm, fun _ => rfl, fun h0 => ⟨rfl, fun h1 => nomatch h0.symm.trans h1⟩⟩
  | reset hq => exact absurd (by rw [hq]; rfl) hrst
  | constructed _ _ hl =>
    have hunwritten := hs.unconstructedUnwritten hl
    exact ⟨[], (List.append_nil _).symm, (nomatch hunwritten.symm.trans ·), fun _ => ⟨rfl, fun _ => rfl⟩⟩
  | @ran w _ u _ _ _ hl hu ht =>
    have hsame : t.sampleOut = u.sampleOut ∧ t.sampleCount = u.sampleCount := by
      obtain rfl | rfl | ⟨c, -, rfl⟩ := ht <;> exact ⟨rfl, rfl⟩
    obtain ⟨xs, hout, hcount⟩ := ticks_emit hu
    rw [hsame.1, hsame.2]
    exact ⟨xs, hout, fun _ => hcount, (nomatch ·.symm.trans (hs.runningWritten hl))⟩

end Sys2Proof
